-- ==== Sys2Proof/Word.lean ====
section
/-! DEFINITION. The words of the block (00_scope.md R8: every value is an unsigned integer of a stated width). -/

namespace Sys2Proof

/-- A `u8`: an operand byte, a status, a register-view cell (30_encoding.md R81). -/
abbrev Byte := BitVec 8

/-- A `u16`: a duration in ms, a raw key word, a per-pin bit mask (30_encoding.md R81, 20_memory.md R62). -/
abbrev Half := BitVec 16

/-- A 5-bit TimeCode; 0..29 are legal, 30 and 31 reserved (41_timing_codec.md R100). -/
abbrev TimeCode := BitVec 5

/-- A pin number, 0..15 (00_scope.md R6, `NPINS`). -/
abbrev PinNo := Fin 16

end Sys2Proof
end

