-- ==== Sys2Proof/Syntax.lean ====
section
/-! DEFINITION. The commands (30_encoding.md R84), one constructor a row of spec/opcode_table.json, with the
operands of its format (R81). An operand is the byte or the u16 of the frame as it stands: its range is
checked by the command that uses it, never by the decoder (R82). -/

namespace Sys2Proof

/-- The command space (30_encoding.md R84), operands in the order of the frame. -/
inductive Instr where
  | setMode (pin mode : Byte)
  | writeDigital (pin level : Byte)
  | readDigital (pin : Byte)
  | setIntensity (pin value : Byte)
  | blink (pin : Byte) (onMs offMs : Half)
  | breathe (pin : Byte) (onMs offMs riseMs fallMs : Half)
  | stop (pin : Byte)
  | configureKeypad (rows cols : Byte) (sleepMs scanMs debMs : Half)
  | readKeyData
  | decodeRow (raw : Half)
  | decodeCol (raw : Half)
  | setEdgeSense (pin edge : Byte)
  | setMask (pin enabled : Byte)
  | setGlobalDebounce (ms : Half)
  | enableDebounce (pin enabled : Byte)
  | readSource
  | codecEncode (ms : Half) (dv : Byte)
  | codecDecode (code dv : Byte)
  | setDivider (dv : Byte)
  | readReg (addr : Byte)
  | reset
deriving DecidableEq, Repr

/-- The rows of the opcode map by name (30_encoding.md R84). -/
inductive Mnemonic where
  | setMode | writeDigital | readDigital
  | setIntensity | blink | breathe | stop
  | configureKeypad | readKeyData | decodeRow | decodeCol
  | setEdgeSense | setMask | setGlobalDebounce | enableDebounce | readSource
  | codecEncode | codecDecode | setDivider
  | readReg | reset
deriving DecidableEq, Repr

/-- The row a command belongs to. -/
def Instr.mnemonic : Instr → Mnemonic
  | .setMode _ _ => .setMode
  | .writeDigital _ _ => .writeDigital
  | .readDigital _ => .readDigital
  | .setIntensity _ _ => .setIntensity
  | .blink _ _ _ => .blink
  | .breathe _ _ _ _ _ => .breathe
  | .stop _ => .stop
  | .configureKeypad _ _ _ _ _ => .configureKeypad
  | .readKeyData => .readKeyData
  | .decodeRow _ => .decodeRow
  | .decodeCol _ => .decodeCol
  | .setEdgeSense _ _ => .setEdgeSense
  | .setMask _ _ => .setMask
  | .setGlobalDebounce _ => .setGlobalDebounce
  | .enableDebounce _ _ => .enableDebounce
  | .readSource => .readSource
  | .codecEncode _ _ => .codecEncode
  | .codecDecode _ _ => .codecDecode
  | .setDivider _ => .setDivider
  | .readReg _ => .readReg
  | .reset => .reset

/-- The ten frame formats (30_encoding.md R81). -/
inductive Format where
  | op | pin | pinB | b | bb | w | wb | pinWW | pinWWWW | kp
deriving DecidableEq, Repr

/-- Why the decoder rejects a frame (30_encoding.md R85). Each is answered IllegalCommand. -/
inductive DecodeError where
  /-- No byte at all: no frame of R80. No step raises it, since a scheduled frame carries its opcode. -/
  | emptyFrame
  /-- Byte 0 is one of the 235 reserved opcodes. -/
  | reservedOpcode (op : Byte)
  /-- The frame's length is not its format's length. -/
  | wrongLength (m : Mnemonic) (length : Nat)
deriving DecidableEq, Repr

end Sys2Proof
end

