-- ==== Sys2Proof/Decode.lean ====
section
/-! DEFINITION. Decoding a frame (30_encoding.md R80 to R87) and, after it, encoding a command, both from the
tables of R81 and R84. Decoding is total on any bytes and rejects by name (R85). -/

namespace Sys2Proof

/-- A u16 operand from its two bytes, most significant first (20_memory.md R61, 30_encoding.md R82). -/
def be16 (hi lo : Byte) : Half := hi ++ lo

/-- The two bytes of a u16, most significant first (20_memory.md R61). -/
def bytes16 (w : Half) : List Byte := [w.extractLsb' 8 8, w.extractLsb' 0 8]

/-- The opcode column of 30_encoding.md R84. -/
def opcodeOf : Mnemonic → Byte
  | .setMode => 0x01
  | .writeDigital => 0x02
  | .readDigital => 0x03
  | .setIntensity => 0x10
  | .blink => 0x11
  | .breathe => 0x12
  | .stop => 0x13
  | .configureKeypad => 0x20
  | .readKeyData => 0x21
  | .decodeRow => 0x22
  | .decodeCol => 0x23
  | .setEdgeSense => 0x30
  | .setMask => 0x31
  | .setGlobalDebounce => 0x32
  | .enableDebounce => 0x33
  | .readSource => 0x34
  | .codecEncode => 0x40
  | .codecDecode => 0x41
  | .setDivider => 0x42
  | .readReg => 0x50
  | .reset => 0x7F

/-- The format column of 30_encoding.md R84. -/
def formatOf : Mnemonic → Format
  | .setMode => .pinB
  | .writeDigital => .pinB
  | .readDigital => .pin
  | .setIntensity => .pinB
  | .blink => .pinWW
  | .breathe => .pinWWWW
  | .stop => .pin
  | .configureKeypad => .kp
  | .readKeyData => .op
  | .decodeRow => .w
  | .decodeCol => .w
  | .setEdgeSense => .pinB
  | .setMask => .pinB
  | .setGlobalDebounce => .w
  | .enableDebounce => .pinB
  | .readSource => .op
  | .codecEncode => .wb
  | .codecDecode => .bb
  | .setDivider => .b
  | .readReg => .b
  | .reset => .op

/-- The length column of 30_encoding.md R81, the opcode byte included. -/
def Format.length : Format → Nat
  | .op => 1
  | .pin => 2
  | .pinB => 3
  | .b => 2
  | .bb => 3
  | .w => 3
  | .wb => 4
  | .pinWW => 6
  | .pinWWWW => 10
  | .kp => 9

/-- The rows of the opcode map, in its order (30_encoding.md R84). -/
def allMnemonics : List Mnemonic :=
  [.setMode, .writeDigital, .readDigital, .setIntensity, .blink, .breathe, .stop,
   .configureKeypad, .readKeyData, .decodeRow, .decodeCol,
   .setEdgeSense, .setMask, .setGlobalDebounce, .enableDebounce, .readSource,
   .codecEncode, .codecDecode, .setDivider, .readReg, .reset]

/-- The row an opcode selects; none for a reserved opcode (30_encoding.md R84, R85). -/
def mnemonicOf (op : Byte) : Option Mnemonic := allMnemonics.find? fun m => opcodeOf m == op

/-- The bytes after the opcode, read in the layout of `F_OP` (30_encoding.md R81). -/
def readOp (i : Instr) : List Byte → Option Instr
  | [] => some i
  | _ => none

/-- `F_PIN` and `F_B`: one byte (30_encoding.md R81). -/
def readB (k : Byte → Instr) : List Byte → Option Instr
  | [x] => some (k x)
  | _ => none

/-- `F_PIN_B` and `F_BB`: two bytes (30_encoding.md R81). -/
def readBB (k : Byte → Byte → Instr) : List Byte → Option Instr
  | [x, y] => some (k x y)
  | _ => none

/-- `F_W`: one u16 (30_encoding.md R81). -/
def readW (k : Half → Instr) : List Byte → Option Instr
  | [wH, wL] => some (k (be16 wH wL))
  | _ => none

/-- `F_WB`: a u16 and a byte (30_encoding.md R81). -/
def readWB (k : Half → Byte → Instr) : List Byte → Option Instr
  | [wH, wL, x] => some (k (be16 wH wL) x)
  | _ => none

/-- `F_PIN_WW`: a pin and two u16 (30_encoding.md R81). -/
def readPinWW (k : Byte → Half → Half → Instr) : List Byte → Option Instr
  | [p, aH, aL, cH, cL] => some (k p (be16 aH aL) (be16 cH cL))
  | _ => none

/-- `F_PIN_WWWW`: a pin and four u16 (30_encoding.md R81). -/
def readPinWWWW (k : Byte → Half → Half → Half → Half → Instr) : List Byte → Option Instr
  | [p, aH, aL, cH, cL, dH, dL, eH, eL] =>
    some (k p (be16 aH aL) (be16 cH cL) (be16 dH dL) (be16 eH eL))
  | _ => none

/-- `F_KP`: two bytes and three u16 (30_encoding.md R81). -/
def readKp (k : Byte → Byte → Half → Half → Half → Instr) : List Byte → Option Instr
  | [r, c, aH, aL, cH, cL, dH, dL] => some (k r c (be16 aH aL) (be16 cH cL) (be16 dH dL))
  | _ => none

/-- The command a row makes of the bytes after its opcode; none where their number is not the format's. -/
def readOperands : Mnemonic → List Byte → Option Instr
  | .setMode => readBB .setMode
  | .writeDigital => readBB .writeDigital
  | .readDigital => readB .readDigital
  | .setIntensity => readBB .setIntensity
  | .blink => readPinWW .blink
  | .breathe => readPinWWWW .breathe
  | .stop => readB .stop
  | .configureKeypad => readKp .configureKeypad
  | .readKeyData => readOp .readKeyData
  | .decodeRow => readW .decodeRow
  | .decodeCol => readW .decodeCol
  | .setEdgeSense => readBB .setEdgeSense
  | .setMask => readBB .setMask
  | .setGlobalDebounce => readW .setGlobalDebounce
  | .enableDebounce => readBB .enableDebounce
  | .readSource => readOp .readSource
  | .codecEncode => readWB .codecEncode
  | .codecDecode => readBB .codecDecode
  | .setDivider => readB .setDivider
  | .readReg => readB .readReg
  | .reset => readOp .reset

/-- The command of a frame. Byte 0 alone selects the row and the length (30_encoding.md R84, R87); a reserved
opcode or a wrong length is rejected (R85). -/
def decode : List Byte → Except DecodeError Instr
  | [] => .error .emptyFrame
  | op :: args =>
    match mnemonicOf op with
    | none => .error (.reservedOpcode op)
    | some m =>
      match readOperands m args with
      | none => .error (.wrongLength m (args.length + 1))
      | some i => .ok i

/-- The operand bytes of a command, in the layout of its format (30_encoding.md R81). -/
def operandBytes : Instr → List Byte
  | .setMode pin mode => [pin, mode]
  | .writeDigital pin level => [pin, level]
  | .readDigital pin => [pin]
  | .setIntensity pin value => [pin, value]
  | .blink pin onMs offMs => pin :: (bytes16 onMs ++ bytes16 offMs)
  | .breathe pin onMs offMs riseMs fallMs =>
    pin :: (bytes16 onMs ++ bytes16 offMs ++ bytes16 riseMs ++ bytes16 fallMs)
  | .stop pin => [pin]
  | .configureKeypad rows cols sleepMs scanMs debMs =>
    rows :: cols :: (bytes16 sleepMs ++ bytes16 scanMs ++ bytes16 debMs)
  | .readKeyData => []
  | .decodeRow raw => bytes16 raw
  | .decodeCol raw => bytes16 raw
  | .setEdgeSense pin edge => [pin, edge]
  | .setMask pin enabled => [pin, enabled]
  | .setGlobalDebounce ms => bytes16 ms
  | .enableDebounce pin enabled => [pin, enabled]
  | .readSource => []
  | .codecEncode ms dv => bytes16 ms ++ [dv]
  | .codecDecode code dv => [code, dv]
  | .setDivider dv => [dv]
  | .readReg addr => [addr]
  | .reset => []

/-- The frame of a command (30_encoding.md R80, R81, R84). -/
def encode (i : Instr) : List Byte := opcodeOf i.mnemonic :: operandBytes i

/-- The length of the frames an opcode selects; one byte for a reserved opcode (30_encoding.md R87). -/
def frameLength (op : Byte) : Nat :=
  match mnemonicOf op with
  | some m => (formatOf m).length
  | none => 1

/-- The frame whose bits are `w` as spec/opcode_table.json numbers them: byte k is bits 8k+7 .. 8k, the bits
from `nbits` up are 0, and the frame has its format's length, or `nbits` where that is longer. Log entry 13. -/
def tableFrame (nbits w : Nat) : List Byte :=
  let v := w % 2 ^ nbits
  (List.range (max (nbits / 8) (frameLength (BitVec.ofNat 8 v)))).map fun k => BitVec.ofNat 8 (v / 2 ^ (8 * k))

/-- The command the decoder reads from a table word; none where it rejects. -/
def decodeTableWord (nbits w : Nat) : Option Instr :=
  match decode (tableFrame nbits w) with
  | .ok i => some i
  | .error _ => none

end Sys2Proof
end

