-- ==== Sys2Proof/Config.lean ====
section
/-! DEFINITION. What is fixed for this hardware (00_scope.md R6), its OPEN parameters, and the free values
the environment supplies under no law (00_scope.md R7). An opaque constant has no body here: nothing can be
proved about its value, so a claim holds for every value. -/

namespace Sys2Proof.Config

/-- `TICKS_MAX`: the largest nominal duration of a code, `BASE(29)` (00_scope.md R6). -/
def ticksMax : Nat := 32768

/-- The largest legal TimeCode (00_scope.md R6, `TC_W`). -/
def maxCode : Nat := 29

/-- `MAX_ROWS` and `MAX_COLS` (00_scope.md R6). -/
def maxLines : Nat := 8

/-- `P_TAPER`, OPEN: the map from the 8-bit LED level to the 8-bit PWM duty (43_led_driver.md R150).
Log entry 11. -/
opaque pTaper : Byte → Byte

/-- `P_IRQ_LEVEL`, OPEN: the electrical level that signals "interrupt pending" (10_state.md R40).
Log entry 11. -/
opaque pIrqLevel : Bool

/-- What `P_PAD` gives for a pad: its strength and the PWM carrier's frequency and phase, as numbers in
units of their own (00_scope.md R6). -/
structure PadElectrical where
  strength : Nat
  carrierFrequency : Nat
  carrierPhase : Nat
deriving DecidableEq, Repr, Inhabited

/-- `P_PAD`, OPEN: the electrical drive of a pad in each mode, by the mode's value (42_pin_config.md R125).
Log entry 11. -/
opaque pPad : BitVec 2 → PadElectrical

/-- Free draw: the pad levels of the n-th step whose draws nobody scheduled; bit p is `pin_in[p]`
(00_scope.md R7). Log entry 1. -/
opaque freePinIn : Nat → Half

/-- Free draw: `ghost` of the n-th such step (00_scope.md R7). Log entry 1. -/
opaque freeGhost : Nat → Half

/-- Free draw: the latch choices of the n-th such step; bit p is `latch_choice[p]` (00_scope.md R7).
Log entry 1. -/
opaque freeLatchChoice : Nat → Half

end Sys2Proof.Config
end

