-- ==== Sys2Proof/Machine/State.lean ====
section
/-! DEFINITION. The architectural state of the block (10_state.md), as plain data, and its reset value
(70_reset_and_hazards.md R261). The block's own state is `Block`; `State` adds the steps that are scheduled,
the responses given, and the draws of the step in progress (INVENTORY.md, '## State'). -/

namespace Sys2Proof.Machine

/-- `MODE[p]` (10_state.md R22), in the order of its values 0..3. -/
inductive Mode where
  | input | inputPullUp | output | analogOutput
deriving DecidableEq, Repr

/-- `SENSE[p]` (10_state.md R35), in the order of its values 0..3. -/
inductive Sense where
  | none | rising | falling | both
deriving DecidableEq, Repr

/-- `WAVE[p]` (10_state.md R26), values 0..2. The value 3 is never written (93_implementation_defined.md I13)
and has no constructor. Log entry 7. -/
inductive Wave where
  | none | blink | breathe
deriving DecidableEq, Repr

/-- `led_phase[p]` (10_state.md R41), in the order of its values 0..3. -/
inductive Phase where
  | rise | on | fall | off
deriving DecidableEq, Repr

/-- `kp_state` (10_state.md R42): 0 SCAN, 1 SLEEP. -/
inductive KpState where
  | scan | sleep
deriving DecidableEq, Repr

/-- `kp_hits` (10_state.md R42): none, exactly one, two or more detections in the current cycle. Log entry 7. -/
inductive KpHits where
  | zero | one | many
deriving DecidableEq, Repr

/-- An edge of the detector level (45_interrupt_debounce.md R208). -/
inductive Edge where
  | rising | falling
deriving DecidableEq, Repr

/-- The status of a response (60_exceptions.md R241). -/
inductive Status where
  | ok | invalidPin | wrongMode | invalidParameter | outOfRange | noKeyPressed | illegalCommand
deriving DecidableEq, Repr

/-- The state of one pin: its configuration, LED profile, interrupt fields and hidden engine state. -/
structure Pin where
  /-- `MODE[p]`, R22 -/
  mode : Mode
  /-- `OUTLVL[p]`, R23 -/
  outlvl : Bool
  /-- `INTENSITY[p]`, R25 -/
  intensity : Byte
  /-- `WAVE[p]`, R26 -/
  wave : Wave
  /-- `TON[p]`, R27 -/
  ton : TimeCode
  /-- `TOFF[p]`, R27 -/
  toff : TimeCode
  /-- `TRISE[p]`, R27 -/
  trise : TimeCode
  /-- `TFALL[p]`, R27 -/
  tfall : TimeCode
  /-- `led_phase[p]`, R41 -/
  ledPhase : Phase
  /-- `led_cnt[p]`, R41 -/
  ledCnt : BitVec 16
  /-- `SENSE[p]`, R35 -/
  sense : Sense
  /-- `MASK[p]`, R36 -/
  mask : Bool
  /-- `DBEN[p]`, R37 -/
  dben : Bool
  /-- `SOURCE[p]`, R39 -/
  source : Bool
  /-- `det_valid[p]`, R43 -/
  detValid : Bool
  /-- `det_lvl[p]`, R43 -/
  detLvl : Bool
  /-- `db_cnt[p]`, R43 -/
  dbCnt : BitVec 16
  /-- `cfgwin[p]`, R43 -/
  cfgwin : Bool
deriving DecidableEq, Repr

/-- A pin after reset (70_reset_and_hazards.md R261). -/
def Pin.reset : Pin where
  mode := .input
  outlvl := false
  intensity := 0
  wave := .none
  ton := 0
  toff := 0
  trise := 0
  tfall := 0
  ledPhase := .rise
  ledCnt := 0
  sense := .none
  mask := false
  dben := false
  source := false
  detValid := false
  detLvl := false
  dbCnt := 0
  cfgwin := false

/-- Keypad configuration, status and engine state (10_state.md R31 to R33, R42). `KPCTL` is held as its
three fields. -/
structure Keypad where
  /-- `KP_EN`, R31 -/
  en : Bool
  /-- `KP_ROWS_M1`, R31 -/
  rowsM1 : BitVec 3
  /-- `KP_COLS_M1`, R31 -/
  colsM1 : BitVec 3
  /-- `KPSLEEP`, R32 -/
  sleepCode : TimeCode
  /-- `KPSCAN`, R32 -/
  scanCode : TimeCode
  /-- `KPDEB`, R32 -/
  debCode : TimeCode
  /-- `KEYDATA`, R33 -/
  keyData : Half
  /-- `kp_state`, R42 -/
  state : KpState
  /-- `kp_row`, R42 -/
  row : BitVec 3
  /-- `kp_cnt`, R42 -/
  cnt : BitVec 16
  /-- `kp_run[c]`, R42 -/
  run : Vector (BitVec 16) 8
  /-- `kp_hits`, R42 -/
  hits : KpHits
  /-- `kp_hit_r`, R42 -/
  hitR : BitVec 3
  /-- `kp_hit_c`, R42 -/
  hitC : BitVec 3
deriving DecidableEq, Repr

/-- The keypad after reset (70_reset_and_hazards.md R261). -/
def Keypad.reset : Keypad where
  en := false
  rowsM1 := 0
  colsM1 := 0
  sleepCode := 0
  scanCode := 0
  debCode := 0
  keyData := 0
  state := .scan
  row := 0
  cnt := 0
  run := .replicate 8 0
  hits := .zero
  hitR := 0
  hitC := 0

/-- The block's state: everything of 10_state.md that is stored. -/
structure Block where
  /-- `CLKDIV`, the divider exponent dv, R28 -/
  clkdiv : BitVec 3
  /-- `DBTIME`, R38 -/
  dbtime : TimeCode
  /-- the per-pin fields, indexed by pin number (R50) -/
  pins : Vector Pin 16
  /-- the keypad -/
  kp : Keypad
deriving DecidableEq, Repr

/-- The block after reset or at power-on (70_reset_and_hazards.md R261, 46_system.md R233). -/
def Block.reset : Block where
  clkdiv := 0
  dbtime := 0
  pins := .replicate 16 Pin.reset
  kp := Keypad.reset

/-- The draws of one step (00_scope.md R7): inputs the environment supplies, under no law. -/
structure Draws where
  /-- bit p is `pin_in[p]` -/
  pinIn : Half
  /-- `ghost` -/
  ghost : Half
  /-- bit p is `latch_choice[p]` -/
  latchChoice : Half
deriving DecidableEq, Repr

/-- One atomic step of the block, with its draws (20_memory.md R70 to R72). -/
inductive Event where
  /-- the host's frame: its opcode byte and the bytes after it (30_encoding.md R80) -/
  | frame (opcode : Byte) (operands : List Byte) (draws : Draws)
  /-- one tick of the timebase (20_memory.md R71) -/
  | tick (draws : Draws)
deriving DecidableEq, Repr

/-- The machine: the block, the steps scheduled for it and the responses it has given. -/
structure State where
  /-- the block's own state -/
  block : Block
  /-- the steps to come, oldest first; when it is empty the timebase ticks on. Log entry 2. -/
  inbox : List Event
  /-- the response frames given, oldest first. Log entry 3. -/
  outbox : List (List Byte)
  /-- the draws of the step in progress, overwritten by every step. Log entries 1 and 4. -/
  draws : Draws
  /-- how many steps took free draws. Log entry 1. -/
  drawCount : Nat
deriving DecidableEq, Repr

/-- Right after reset or at power-on: the block as 70_reset_and_hazards.md R261 says, nothing scheduled and no
response given. The draws and their counter are the model's own (log entry 4). -/
def State.reset : State where
  block := Block.reset
  inbox := []
  outbox := []
  draws := ⟨0, 0, 0⟩
  drawCount := 0

/-- Why a step can stop. The block has no traps (60_exceptions.md R240): a failing command answers a status. -/
inductive Fault where
  /-- Raised by the LED engine (a tick, or the settling of BLINK) where the waveform machine of
  43_led_driver.md R141 and R143 gives no next phase: the current phase has no successor, or every phase has
  length 0, so that the loop of R143 would not end. Safe: only states that 10_state.md R48 excludes raise it
  (93_implementation_defined.md I13, 'stuck'). Log entry 6. -/
  | ledStuck
deriving DecidableEq, Repr

/-- Why an instruction has no meaning. -/
inductive Refusal where
  /-- Raised by a dispatch arm whose instruction has no meaning yet; no arm does. Safe. -/
  | notModelled (mnemonic : String)
deriving DecidableEq, Repr

/-- What a step answers. -/
abbrev Result := Host.Outcome State Fault Refusal

end Sys2Proof.Machine
end

