-- ==== Sys2Proof/Machine/Ops.lean ====
section
/-! DEFINITION. The named operations over the state: access to one pin, bit packing, the response of a
command and its rejection, and taking the next scheduled step. The block takes no exception
(60_exceptions.md R240, R247, R248): what stands in its place is `State.raise`, the one shared way in which
a command fails. -/

namespace Sys2Proof.Machine

/-! ### Pins -/

/-- The fields of pin p (00_scope.md R9, `F[p]`). -/
def Block.pin (b : Block) (p : PinNo) : Pin := b.pins.get p

/-- Writing fields of pin p (00_scope.md R9, `F[p] <- v`). -/
def Block.setPin (b : Block) (p : PinNo) (q : Pin) : Block := { b with pins := b.pins.set p.val q p.isLt }

/-- Rewriting every pin from its number and its old fields. -/
def Block.mapPins (b : Block) (f : PinNo → Pin → Pin) : Block :=
  { b with pins := .ofFn fun p => f p (b.pin p) }

/-! ### Bits and bytes -/

/-- The word whose bit i is `f i` (20_memory.md R62). -/
def packBits : (n : Nat) → (Nat → Bool) → BitVec n
  | 0, _ => 0#0
  | n + 1, f => BitVec.cons (f n) (packBits n f)

/-- One bit as a byte (00_scope.md R8). -/
def bitByte (b : Bool) : Byte := if b then 1 else 0

/-- The four bytes of a 32-bit result, most significant first (20_memory.md R62). -/
def bytes32 (w : BitVec 32) : List Byte :=
  [w.extractLsb' 24 8, w.extractLsb' 16 8, w.extractLsb' 8 8, w.extractLsb' 0 8]

/-- The value of `MODE[p]` (10_state.md R22). -/
def Mode.toBits : Mode → BitVec 2
  | .input => 0
  | .inputPullUp => 1
  | .output => 2
  | .analogOutput => 3

/-- The value of `SENSE[p]` (10_state.md R35). -/
def Sense.toBits : Sense → BitVec 2
  | .none => 0
  | .rising => 1
  | .falling => 2
  | .both => 3

/-- The value of `WAVE[p]` (10_state.md R26). -/
def Wave.toBits : Wave → BitVec 2
  | .none => 0
  | .blink => 1
  | .breathe => 2

/-- The value of `led_phase[p]` (10_state.md R41). -/
def Phase.toBits : Phase → BitVec 2
  | .rise => 0
  | .on => 1
  | .fall => 2
  | .off => 3

/-- The status byte (60_exceptions.md R241). -/
def Status.code : Status → Byte
  | .ok => 0x00
  | .invalidPin => 0x01
  | .wrongMode => 0x02
  | .invalidParameter => 0x03
  | .outOfRange => 0x04
  | .noKeyPressed => 0x05
  | .illegalCommand => 0x06

/-! ### Keypad ownership and row drive, read by several families -/

/-- The row count, `KP_ROWS_M1 + 1` (10_state.md R31). -/
def Keypad.rows (k : Keypad) : Nat := k.rowsM1.toNat + 1

/-- The column count, `KP_COLS_M1 + 1` (10_state.md R31). -/
def Keypad.cols (k : Keypad) : Nat := k.colsM1.toNat + 1

/-- A row-owned pin (10_state.md R34). -/
def Keypad.ownsRow (k : Keypad) (p : PinNo) : Bool := k.en && decide (p.val ≤ 7 ∧ p.val ≤ k.rowsM1.toNat)

/-- A column-owned pin (10_state.md R34). -/
def Keypad.ownsCol (k : Keypad) (p : PinNo) : Bool := k.en && decide (8 ≤ p.val ∧ p.val - 8 ≤ k.colsM1.toNat)

/-- `owned(p)` (10_state.md R34). -/
def Keypad.owns (k : Keypad) (p : PinNo) : Bool := k.ownsRow p || k.ownsCol p

/-- `owned(p)` (10_state.md R34). -/
def Block.owned (b : Block) (p : PinNo) : Bool := b.kp.owns p

/-- `kp_drive(p)`: the current row is low in SCAN, every other row is high, and all are high in SLEEP
(44_keypad.md R174). -/
def Keypad.drive (k : Keypad) (p : PinNo) : Bool := !(k.state == .scan && k.row.toNat == p.val)

/-! ### Responses -/

/-- `return (v1, ...)`: the block becomes `b` and the response is OK with the result bytes
(00_scope.md R9, 30_encoding.md R83). -/
def State.finish (s : State) (b : Block) (results : List Byte) : Result :=
  .next { s with block := b, outbox := s.outbox ++ [Status.ok.code :: results] }

/-- `raise S`: the response is the single status byte and the block is as it was (60_exceptions.md R244). -/
def State.raise (s : State) (st : Status) : Result :=
  .next { s with outbox := s.outbox ++ [[st.code]] }

/-! ### The next step -/

/-- The free draws of the n-th step that nobody scheduled (00_scope.md R7). Log entry 1. -/
def freeDraws (n : Nat) : Draws := ⟨Config.freePinIn n, Config.freeGhost n, Config.freeLatchChoice n⟩

/-- The draws an event carries. -/
def Event.draws : Event → Draws
  | .frame _ _ d => d
  | .tick d => d

/-- The next step and the state it starts from: the oldest scheduled one, or, when none is scheduled, a tick
with free draws (20_memory.md R72, R73). Log entries 1 and 2. -/
def State.fetch (s : State) : Event × State :=
  match s.inbox with
  | [] => (.tick (freeDraws s.drawCount), { s with draws := freeDraws s.drawCount, drawCount := s.drawCount + 1 })
  | e :: rest => (e, { s with inbox := rest, draws := e.draws })

/-- `s` with a frame put before everything scheduled, drawing what `s` holds. Log entry 2. -/
def State.schedule (s : State) : List Byte → State
  | [] => s
  | op :: args => { s with inbox := .frame op args s.draws :: s.inbox }

end Sys2Proof.Machine
end

