-- ==== Sys2Proof/Machine/Flags.lean ====
section
/-! DEFINITION. The block has no flags and no condition codes (10_state.md R49): no command computes one. Its
only sticky status bits are SOURCE, read as one word, and the interrupt output derived from it. -/

namespace Sys2Proof.Machine

/-- SOURCE as one word: bit p is `SOURCE[p]` (10_state.md R40, 20_memory.md R62). -/
def Block.sourceWord (b : Block) : Half := packBits 16 fun i => (b.pin (Fin.ofNat 16 i)).source

/-- `irq = (SOURCE != 0)` (10_state.md R40, 45_interrupt_debounce.md R211). -/
def Block.irq (b : Block) : Bool := b.sourceWord != 0

/-- The electrical level of the interrupt line; the level that means pending is OPEN (10_state.md R40). -/
def Block.irqLine (b : Block) : Bool := if b.irq then Config.pIrqLevel else !Config.pIrqLevel

end Sys2Proof.Machine
end

