-- ==== Sys2Proof/Machine/Codec.lean ====
section
/-! DEFINITION. The timing codec (41_timing_codec.md): the TimeCode format, the tick-domain encoder, encode
and decode. All arithmetic is exact on naturals (00_scope.md R10). -/

namespace Sys2Proof.Machine

/-- `BASE(n)`, in ticks (41_timing_codec.md R101); the formula is written for every n (log entry 8). -/
def baseOf (n : Nat) : Nat := if n = 0 then 0 else (2 + (n - 1) % 2) <<< ((n - 1) / 2)

/-- `BASE` of a stored code (41_timing_codec.md R101). -/
def base (c : TimeCode) : Nat := baseOf c.toNat

/-- The largest k in 0..m with `BASE(k) <= t` (41_timing_codec.md R103). -/
def floorCode : Nat → Nat → Nat
  | 0, _ => 0
  | m + 1, t => if baseOf (m + 1) ≤ t then m + 1 else floorCode m t

/-- `ENC_T(t)`: the nearest code, a tie to the larger (41_timing_codec.md R103). -/
def encTicks (t : Nat) : Nat :=
  let n := floorCode Config.maxCode t
  if n = Config.maxCode then Config.maxCode
  else if baseOf n + baseOf (n + 1) ≤ 2 * t then n + 1 else n

/-- A duration in ticks at divider exponent dv: `ms << (dv + 2)` (41_timing_codec.md R104). -/
def durationTicks (ms : Half) (dv : Nat) : Nat := ms.toNat <<< (dv + 2)

/-- `encode(ms, dv)`; none where it fails OutOfRange (41_timing_codec.md R104). -/
def encodeMs (ms : Half) (dv : Nat) : Option TimeCode :=
  if Config.ticksMax < durationTicks ms dv then none
  else some (BitVec.ofNat 5 (encTicks (durationTicks ms dv)))

/-- `decode(n, dv)` in units of 1/1024 ms: `(BASE(n) · 256) >> dv` (41_timing_codec.md R105). -/
def decodeUnits (n dv : Nat) : Nat := (baseOf n * 256) >>> dv

end Sys2Proof.Machine
end

