-- ==== Sys2Proof/Machine/Operands.lean ====
section
/-! DEFINITION. Every operand form of 30_encoding.md R82, each read from its byte by the command that uses it:
none where the byte is outside its range. Durations are encoded at the divider in force. -/

namespace Sys2Proof.Machine

/-- `check_pin` (42_pin_config.md R120): the pin a byte names, 0..15. -/
def pinOperand (x : Byte) : Option PinNo := if h : x.toNat < 16 then some ⟨x.toNat, h⟩ else none

/-- A mode operand, 0..3 (30_encoding.md R82, 10_state.md R22). -/
def modeOperand (x : Byte) : Option Mode :=
  if x = 0 then some .input
  else if x = 1 then some .inputPullUp
  else if x = 2 then some .output
  else if x = 3 then some .analogOutput
  else none

/-- An edge operand, 0..3 (30_encoding.md R82, 10_state.md R35). -/
def edgeOperand (x : Byte) : Option Sense :=
  if x = 0 then some .none
  else if x = 1 then some .rising
  else if x = 2 then some .falling
  else if x = 3 then some .both
  else none

/-- A level or an enabled flag, 0 or 1 (30_encoding.md R82). -/
def bitOperand (x : Byte) : Option Bool :=
  if x = 0 then some false else if x = 1 then some true else none

/-- A row or a column count, 1..8, less 1 (30_encoding.md R82, 10_state.md R31). -/
def lineOperand (x : Byte) : Option (BitVec 3) :=
  if 1 ≤ x.toNat ∧ x.toNat ≤ Config.maxLines then some (BitVec.ofNat 3 (x.toNat - 1)) else none

/-- A divider exponent, 0..7 (30_encoding.md R82). -/
def dvOperand (x : Byte) : Option (BitVec 3) := if x.toNat ≤ 7 then some (BitVec.ofNat 3 x.toNat) else none

/-- A TimeCode operand, 0..29 (30_encoding.md R82). -/
def codeOperand (x : Byte) : Option TimeCode :=
  if x.toNat ≤ Config.maxCode then some (BitVec.ofNat 5 x.toNat) else none

/-- A duration operand, encoded at the divider in force (41_timing_codec.md R107). -/
def Block.encodeDuration (b : Block) (ms : Half) : Option TimeCode := encodeMs ms b.clkdiv.toNat

end Sys2Proof.Machine
end

