-- ==== Sys2Proof/Machine/Interrupt.lean ====
section
/-! DEFINITION. Debounce filter, edge detector and interrupt source (45_interrupt_debounce.md). -/

namespace Sys2Proof.Machine

/-- A reconfiguration of a debounced pin opens its window (45_interrupt_debounce.md R210). -/
def Pin.openWindow (q : Pin) : Pin := { q with cfgwin := q.cfgwin || q.dben }

/-- SET_EDGE_SENSE (45_interrupt_debounce.md R200). -/
def execSetEdgeSense (pin edge : Byte) (s : State) : Result :=
  match pinOperand pin with
  | none => s.raise .invalidPin
  | some p =>
    match edgeOperand edge with
    | none => s.raise .invalidParameter
    | some e =>
      let q := s.block.pin p
      s.finish (s.block.setPin p
        { q.openWindow with sense := e, source := if e = .none then false else q.source }) []

/-- SET_MASK (45_interrupt_debounce.md R201). -/
def execSetMask (pin enabled : Byte) (s : State) : Result :=
  match pinOperand pin with
  | none => s.raise .invalidPin
  | some p =>
    match bitOperand enabled with
    | none => s.raise .invalidParameter
    | some v =>
      let q := s.block.pin p
      s.finish (s.block.setPin p
        { q.openWindow with mask := v, source := if v then q.source else false }) []

/-- SET_GLOBAL_DEBOUNCE (45_interrupt_debounce.md R202): no count is reset. -/
def execSetGlobalDebounce (ms : Half) (s : State) : Result :=
  match s.block.encodeDuration ms with
  | none => s.raise .outOfRange
  | some c => s.finish { s.block with dbtime := c } []

/-- ENABLE_DEBOUNCE (45_interrupt_debounce.md R203): a changed value restarts the pin's count. -/
def execEnableDebounce (pin enabled : Byte) (s : State) : Result :=
  match pinOperand pin with
  | none => s.raise .invalidPin
  | some p =>
    match bitOperand enabled with
    | none => s.raise .invalidParameter
    | some v =>
      let q := s.block.pin p
      s.finish (s.block.setPin p (if q.dben = v then q else { q with dben := v, dbCnt := 0 })) []

/-- READ_SOURCE (45_interrupt_debounce.md R204): returns SOURCE and clears it. -/
def execReadSource (s : State) : Result :=
  s.finish (s.block.mapPins fun _ q => { q with source := false }) (bytes16 s.block.sourceWord)

/-! ### The detector tick -/

/-- `classify(old, new)` (45_interrupt_debounce.md R208); none where the level does not change. -/
def classify (old new : Bool) : Option Edge :=
  if old = new then none else if new then some .rising else some .falling

/-- `matches(SENSE, e)` (45_interrupt_debounce.md R208). -/
def Sense.admits : Sense → Edge → Bool
  | .none, _ => false
  | .rising, .rising => true
  | .rising, .falling => false
  | .falling, .rising => false
  | .falling, .falling => true
  | .both, _ => true

/-- The debounce length in samples: `max(BASE(DBTIME), 1)` (45_interrupt_debounce.md R207). -/
def debounceLength (dbtime : TimeCode) : Nat := max (base dbtime) 1

/-- The detector's new level and count on a sample, with the edge it accepts, if any. First sample: the pad's
level, without an edge (45_interrupt_debounce.md R206). Without debounce: follow the pad (R205). With
debounce: `debounce_step` (R207). -/
def Pin.detect (q : Pin) (dbtime : TimeCode) (raw : Bool) : Pin × Option Edge :=
  if q.detValid = false then ({ q with detLvl := raw, detValid := true, dbCnt := 0 }, none)
  else if q.dben = false then ({ q with detLvl := raw, dbCnt := 0 }, classify q.detLvl raw)
  else if raw = q.detLvl then ({ q with dbCnt := 0 }, none)
  else if debounceLength dbtime ≤ q.dbCnt.toNat + 1 then
    ({ q with detLvl := raw, dbCnt := 0 }, classify q.detLvl raw)
  else ({ q with dbCnt := BitVec.ofNat 16 (q.dbCnt.toNat + 1) }, none)

/-- Whether an accepted edge is latched: the pin is masked in, the edge matches its sense, and an open
reconfiguration window leaves it to the draw (45_interrupt_debounce.md R209, R210). -/
def Pin.latches (q : Pin) (e : Option Edge) (choice : Bool) : Bool :=
  match e with
  | none => false
  | some e => q.mask && q.sense.admits e && (!q.cfgwin || choice)

/-- Only Input and InputPullUp pins are sampled (45_interrupt_debounce.md R205). -/
def Mode.isInput : Mode → Bool
  | .input => true
  | .inputPullUp => true
  | .output => false
  | .analogOutput => false

/-- `det_tick(p, raw, choice)` (45_interrupt_debounce.md R205). -/
def Pin.detTick (q : Pin) (dbtime : TimeCode) (raw choice : Bool) : Pin :=
  if q.mode.isInput then
    let r := q.detect dbtime raw
    { r.1 with source := q.source || q.latches r.2 choice, cfgwin := false }
  else { q with detValid := false, dbCnt := 0, cfgwin := false }

end Sys2Proof.Machine
end

