-- ==== Sys2Proof/Machine/PinConfig.lean ====
section
/-! DEFINITION. Pin configuration commands (42_pin_config.md R120 to R124). -/

namespace Sys2Proof.Machine

/-- A pin with no waveform: WAVE, the four codes and the LED engine state cleared (43_led_driver.md R147). -/
def Pin.clearWave (q : Pin) : Pin :=
  { q with wave := .none, ton := 0, toff := 0, trise := 0, tfall := 0, ledPhase := .rise, ledCnt := 0 }

/-- The LedProfile cleared, INTENSITY included (42_pin_config.md R122). -/
def Pin.clearProfile (q : Pin) : Pin := { q.clearWave with intensity := 0 }

/-- `apply_mode(p, new)` (42_pin_config.md R122). -/
def Pin.applyMode (q : Pin) (new : Mode) : Pin :=
  if new = q.mode then q
  else
    { (if q.mode = .analogOutput then q.clearProfile else q) with
      outlvl := false, detValid := false, dbCnt := 0, cfgwin := false, mode := new }

/-- SET_MODE (42_pin_config.md R121). -/
def execSetMode (pin mode : Byte) (s : State) : Result :=
  match pinOperand pin with
  | none => s.raise .invalidPin
  | some p =>
    if s.block.owned p then s.raise .wrongMode
    else
      match modeOperand mode with
      | none => s.raise .invalidParameter
      | some m => s.finish (s.block.setPin p ((s.block.pin p).applyMode m)) []

/-- WRITE_DIGITAL (42_pin_config.md R123). -/
def execWriteDigital (pin level : Byte) (s : State) : Result :=
  match pinOperand pin with
  | none => s.raise .invalidPin
  | some p =>
    if (s.block.pin p).mode ≠ .output ∨ s.block.owned p then s.raise .wrongMode
    else
      match bitOperand level with
      | none => s.raise .invalidParameter
      | some v => s.finish (s.block.setPin p { s.block.pin p with outlvl := v }) []

/-- The level READ_DIGITAL returns; none for an AnalogOutput pin (42_pin_config.md R124). -/
def State.digitalLevel (s : State) (p : PinNo) : Option Bool :=
  match (s.block.pin p).mode with
  | .analogOutput => none
  | .input => some (s.draws.pinIn.getLsbD p.val)
  | .inputPullUp => some (s.draws.pinIn.getLsbD p.val)
  | .output => some (if s.block.owned p then s.block.kp.drive p else (s.block.pin p).outlvl)

/-- READ_DIGITAL (42_pin_config.md R124). -/
def execReadDigital (pin : Byte) (s : State) : Result :=
  match pinOperand pin with
  | none => s.raise .invalidPin
  | some p =>
    match s.digitalLevel p with
    | none => s.raise .wrongMode
    | some v => s.finish s.block [bitByte v]

end Sys2Proof.Machine
end

