-- ==== Sys2Proof/Machine/KeypadEngine.lean ====
section
/-! DEFINITION. The keypad row/column multiplexer and decoder (44_keypad.md). -/

namespace Sys2Proof.Machine

/-- The pin reassignment `kp_assign`: rows become Output, columns InputPullUp, a released pin Input, each by
apply_mode, and any other pin is as before (44_keypad.md R172). `old` and `new` are the keypad before and after. -/
def Keypad.assignPin (old new : Keypad) (p : PinNo) (q : Pin) : Pin :=
  if new.ownsRow p then q.applyMode .output
  else if new.ownsCol p then q.applyMode .inputPullUp
  else if old.owns p then q.applyMode .input
  else q

/-- OUTLVL is cleared when the keypad takes the pin (10_state.md R23), also where `kp_assign` changes no mode; so
an owned row has OUTLVL 0 (10_state.md R48 item 7). Log entry 5. -/
def Keypad.clearTaken (old new : Keypad) (p : PinNo) (q : Pin) : Pin :=
  if new.owns p && !old.owns p then { q with outlvl := false } else q

/-- What CONFIGURE_KEYPAD does to the pins: `kp_assign` (44_keypad.md R172), and the clearing of the pins it takes
(10_state.md R23). -/
def Block.assignKeypad (b : Block) (new : Keypad) : Block :=
  { b.mapPins (fun p q => b.kp.clearTaken new p (b.kp.assignPin new p q)) with kp := new }

/-- The keypad a CONFIGURE_KEYPAD that passes its checks leaves (44_keypad.md R171). -/
def Keypad.configured (rowsM1 colsM1 : BitVec 3) (sleepC scanC debC : TimeCode) : Keypad :=
  { Keypad.reset with
    en := true, rowsM1 := rowsM1, colsM1 := colsM1, sleepCode := sleepC, scanCode := scanC, debCode := debC }

/-- CONFIGURE_KEYPAD (44_keypad.md R171). -/
def execConfigureKeypad (rows cols : Byte) (sleepMs scanMs debMs : Half) (s : State) : Result :=
  match lineOperand rows, lineOperand cols with
  | some r, some c =>
    match s.block.encodeDuration sleepMs, s.block.encodeDuration scanMs, s.block.encodeDuration debMs with
    | some cSleep, some cScan, some cDeb =>
      if cScan.toNat ≤ cDeb.toNat then s.raise .invalidParameter
      else s.finish (s.block.assignKeypad (Keypad.configured r c cSleep cScan cDeb)) []
    | _, _, _ => s.raise .outOfRange
  | _, _ => s.raise .invalidParameter

/-! ### The scan engine -/

/-- Sampling the columns in use: a low column counts on, a high one starts over (44_keypad.md R175). -/
def Keypad.sampleColumns (k : Keypad) (pinIn : Half) : Vector (BitVec 16) 8 :=
  .ofFn fun c =>
    if c.val < k.cols then
      if pinIn.getLsbD (8 + c.val) then 0 else BitVec.ofNat 16 ((k.run.get c).toNat + 1)
    else k.run.get c

/-- `record_hit(r, c)`, r the row being scanned (44_keypad.md R175). -/
def Keypad.recordHit (k : Keypad) (c : Fin 8) : Keypad :=
  match k.hits with
  | .zero => { k with hitR := k.row, hitC := BitVec.ofNat 3 c.val, hits := .one }
  | .one => { k with hits := .many }
  | .many => { k with hits := .many }

/-- The run of low samples that makes a detection: `max(BASE(KPDEB), 1)` (44_keypad.md R176). -/
def Keypad.hitLength (k : Keypad) : Nat := max (base k.debCode) 1

/-- Whether column c is detected at the end of the current row's window (44_keypad.md R175, R176). -/
def Keypad.detects (k : Keypad) (c : Fin 8) : Bool :=
  decide (c.val < k.cols) && decide (k.hitLength ≤ (k.run.get c).toNat)

/-- The detections at the end of a row's window, columns ascending (44_keypad.md R175). -/
def Keypad.recordHits (k : Keypad) : Keypad :=
  (List.finRange 8).foldl (fun a c => if k.detects c then a.recordHit c else a) k

/-- What a cycle publishes (44_keypad.md R177). -/
def Keypad.published (k : Keypad) (ghost : Half) : Half :=
  match k.hits with
  | .zero => 0
  | .one => (1#16 <<< (8 + k.hitR.toNat)) ||| (1#16 <<< k.hitC.toNat)
  | .many => ghost

/-- The end of a cycle: publication, then row 0 again, after a sleep if there is one (44_keypad.md R175). -/
def Keypad.endCycle (k : Keypad) (ghost : Half) : Keypad :=
  { k with
    keyData := k.published ghost, row := 0, hits := .zero, hitR := 0, hitC := 0,
    state := if k.sleepCode = 0 then .scan else .sleep }

/-- The end of a row's window: detections, then the next row or the end of the cycle (44_keypad.md R175). -/
def Keypad.endWindow (k : Keypad) (ghost : Half) : Keypad :=
  let k' := { k.recordHits with run := .replicate 8 0, cnt := 0 }
  if k.row.toNat + 1 < k.rows then { k' with row := BitVec.ofNat 3 (k.row.toNat + 1) }
  else k'.endCycle ghost

/-- `kp_tick` (44_keypad.md R175). -/
def Keypad.tick (k : Keypad) (d : Draws) : Keypad :=
  if k.en then
    match k.state with
    | .scan =>
      let k' := { k with run := k.sampleColumns d.pinIn }
      if k.cnt.toNat + 1 < base k.scanCode then { k' with cnt := BitVec.ofNat 16 (k.cnt.toNat + 1) }
      else k'.endWindow d.ghost
    | .sleep =>
      if k.cnt.toNat + 1 < base k.sleepCode then { k with cnt := BitVec.ofNat 16 (k.cnt.toNat + 1) }
      else { k with cnt := 0, state := .scan }
  else k

/-! ### Key-data commands -/

/-- READ_KEY_DATA (44_keypad.md R182). -/
def execReadKeyData (s : State) : Result := s.finish s.block (bytes16 s.block.kp.keyData)

/-- The position of the lowest set bit of a byte (44_keypad.md R183). -/
def lowestSetBit (x : Byte) : Option Nat := (List.range 8).find? fun i => x.getLsbD i

/-- The answer of the two key-word decoders: NoKeyPressed on a zero byte (44_keypad.md R183, R184). -/
def State.decodeLine (s : State) (x : Byte) : Result :=
  match lowestSetBit x with
  | none => s.raise .noKeyPressed
  | some i => s.finish s.block [BitVec.ofNat 8 i]

/-- DECODE_ROW (44_keypad.md R183): the high byte. -/
def execDecodeRow (raw : Half) (s : State) : Result := s.decodeLine (raw.extractLsb' 8 8)

/-- DECODE_COL (44_keypad.md R184): the low byte. -/
def execDecodeCol (raw : Half) (s : State) : Result := s.decodeLine (raw.extractLsb' 0 8)

/-! ### The environment convention -/

/-- The level of column c when the keys `pressed` join row pins to column pins: low where some pressed key
joins it to an owned row driven low (44_keypad.md R181). No operation of the block reads it: it is the named
assumption about the environment that R181 allows. -/
def Block.matrixColumn (b : Block) (pressed : List (Fin 8 × Fin 8)) (c : Fin 8) : Bool :=
  !(pressed.any fun rc =>
    rc.2 == c && b.kp.ownsRow (Fin.ofNat 16 rc.1.val) && !b.kp.drive (Fin.ofNat 16 rc.1.val))

end Sys2Proof.Machine
end

