-- ==== Sys2Proof/Machine/Led.lean ====
section
/-! DEFINITION. The PWM LED driver (43_led_driver.md): the waveform machine of a pin, its tick, its level, and
its four commands. -/

namespace Sys2Proof.Machine

/-- The code that gives a phase its length (43_led_driver.md R141). -/
def Pin.phaseCode (q : Pin) : Phase → TimeCode
  | .rise => q.trise
  | .on => q.ton
  | .fall => q.tfall
  | .off => q.toff

/-- `len(p, phase)`, in ticks (43_led_driver.md R141). -/
def Pin.len (q : Pin) (ph : Phase) : Nat := base (q.phaseCode ph)

/-- `next(waveform, phase)`; none where 43_led_driver.md R141 gives no successor. -/
def nextPhase : Wave → Phase → Option Phase
  | .none, _ => none
  | .blink, .on => some .off
  | .blink, .off => some .on
  | .blink, .rise => none
  | .blink, .fall => none
  | .breathe, .rise => some .on
  | .breathe, .on => some .fall
  | .breathe, .fall => some .off
  | .breathe, .off => some .rise

/-- `settle(p)` with at most n iterations (43_led_driver.md R143): phases of length 0 are skipped. None where
no phase of nonzero length is reached (log entry 6). -/
def Pin.settle : Nat → Pin → Option Pin
  | 0, q => if q.len q.ledPhase = 0 then none else some q
  | n + 1, q =>
    if q.len q.ledPhase = 0 then
      match nextPhase q.wave q.ledPhase with
      | none => none
      | some ph => Pin.settle n { q with ledPhase := ph }
    else some q

/-- Entering a phase: the count starts at 0, and zero-length phases are skipped, which takes at most three
iterations (43_led_driver.md R143). -/
def Pin.enterPhase (q : Pin) (ph : Phase) : Option Pin := Pin.settle 3 { q with ledPhase := ph, ledCnt := 0 }

/-- `led_tick(p)` (43_led_driver.md R148); none where the engine has no next phase (log entry 6). -/
def Pin.ledTick (q : Pin) : Option Pin :=
  if q.mode ≠ .analogOutput ∨ q.wave = .none then some q
  else if q.len q.ledPhase ≤ q.ledCnt.toNat + 1 then
    match nextPhase q.wave q.ledPhase with
    | none => none
    | some ph => q.enterPhase ph
  else some { q with ledCnt := BitVec.ofNat 16 (q.ledCnt.toNat + 1) }

/-- The level of a breathe (43_led_driver.md R142). -/
def Pin.breatheLevel (q : Pin) : Nat :=
  match q.ledPhase with
  | .rise => 255 * q.ledCnt.toNat / q.len .rise
  | .on => 255
  | .fall => 255 - 255 * q.ledCnt.toNat / q.len .fall
  | .off => 0

/-- `L[p]` of an AnalogOutput pin (43_led_driver.md R142). Log entry 12 says what it is elsewhere. -/
def Pin.level (q : Pin) : Byte :=
  match q.wave with
  | .none => q.intensity
  | .blink => if q.ledPhase = .on then 255 else 0
  | .breathe => BitVec.ofNat 8 q.breatheLevel

/-- SET_INTENSITY (43_led_driver.md R144). -/
def execSetIntensity (pin value : Byte) (s : State) : Result :=
  match pinOperand pin with
  | none => s.raise .invalidPin
  | some p =>
    if (s.block.pin p).mode ≠ .analogOutput then s.raise .wrongMode
    else s.finish (s.block.setPin p { (s.block.pin p).clearWave with intensity := value }) []

/-- BLINK (43_led_driver.md R145). -/
def execBlink (pin : Byte) (onMs offMs : Half) (s : State) : Result :=
  match pinOperand pin with
  | none => s.raise .invalidPin
  | some p =>
    if (s.block.pin p).mode ≠ .analogOutput then s.raise .wrongMode
    else
      match s.block.encodeDuration onMs with
      | none => s.raise .outOfRange
      | some cOn =>
        match s.block.encodeDuration offMs with
        | none => s.raise .outOfRange
        | some cOff =>
          if cOn = 0 ∧ cOff = 0 then s.raise .invalidParameter
          else
            match ({ s.block.pin p with wave := .blink, ton := cOn, toff := cOff, trise := 0, tfall := 0 }
                : Pin).enterPhase .on with
            | none => .fault .ledStuck
            | some q => s.finish (s.block.setPin p q) []

/-- BREATHE (43_led_driver.md R146): a duration over the codec's range is InvalidParameter
(90_conflicts.md C2). -/
def execBreathe (pin : Byte) (onMs offMs riseMs fallMs : Half) (s : State) : Result :=
  match pinOperand pin with
  | none => s.raise .invalidPin
  | some p =>
    if (s.block.pin p).mode ≠ .analogOutput then s.raise .wrongMode
    else if riseMs = 0 ∨ fallMs = 0 then s.raise .invalidParameter
    else
      match s.block.encodeDuration onMs, s.block.encodeDuration offMs,
          s.block.encodeDuration riseMs, s.block.encodeDuration fallMs with
      | some cOn, some cOff, some cRise, some cFall =>
        s.finish (s.block.setPin p { s.block.pin p with
          wave := .breathe, ton := cOn, toff := cOff, trise := cRise, tfall := cFall,
          ledPhase := .rise, ledCnt := 0 }) []
      | _, _, _, _ => s.raise .invalidParameter

/-- STOP (43_led_driver.md R147): INTENSITY is kept. -/
def execStop (pin : Byte) (s : State) : Result :=
  match pinOperand pin with
  | none => s.raise .invalidPin
  | some p =>
    if (s.block.pin p).mode ≠ .analogOutput then s.raise .wrongMode
    else s.finish (s.block.setPin p (s.block.pin p).clearWave) []

end Sys2Proof.Machine
end

