-- ==== Sys2Proof/Machine/System.lean ====
section
/-! DEFINITION. System commands and the register view (46_system.md, 10_state.md R24, R44 to R47). -/

namespace Sys2Proof.Machine

/-! ### The derived pad-control bits (10_state.md R24) -/

/-- `DIR`: 1 = input. -/
def Mode.dir : Mode → Bool
  | .input => true
  | .inputPullUp => true
  | .output => false
  | .analogOutput => false

/-- `INDIS`: 1 = input buffer disabled. -/
def Mode.indis : Mode → Bool
  | .input => false
  | .inputPullUp => false
  | .output => false
  | .analogOutput => true

/-- `PULLUP`. -/
def Mode.pullup : Mode → Bool
  | .input => false
  | .inputPullUp => true
  | .output => false
  | .analogOutput => false

/-- `OD`: 1 = open-drain. -/
def Mode.od : Mode → Bool
  | .input => false
  | .inputPullUp => false
  | .output => false
  | .analogOutput => true

/-! ### The register view (46_system.md R232) -/

/-- Pin number n of the block, for n in 0..15. -/
def Block.pinAt (b : Block) (n : Nat) : Pin := b.pin (Fin.ofNat 16 n)

/-- `pack1(F, hi)`: bit i is `F[8·hi + i]`. -/
def Block.pack1 (b : Block) (f : Pin → Bool) (hi : Nat) : Byte := packBits 8 fun i => f (b.pinAt (8 * hi + i))

/-- `pack2(F, k)`: bits [2j+1:2j] are `F[4k + j]`. -/
def Block.pack2 (b : Block) (f : Pin → BitVec 2) (k : Nat) : Byte :=
  f (b.pinAt (4 * k + 3)) ++ f (b.pinAt (4 * k + 2)) ++ f (b.pinAt (4 * k + 1)) ++ f (b.pinAt (4 * k))

/-- `KPCTL`: `{KP_EN, KP_ROWS_M1, 0, KP_COLS_M1}` (10_state.md R31). -/
def Keypad.ctl (k : Keypad) : Byte := BitVec.ofBool k.en ++ k.rowsM1 ++ 0#1 ++ k.colsM1

/-- Cell k of a pin's LED block (10_state.md R47). -/
def Pin.ledCell (q : Pin) (k : Nat) : Byte :=
  if k = 0 then q.intensity
  else if k = 1 then 0#4 ++ q.ledPhase.toBits ++ q.wave.toBits
  else if k = 2 then q.ton.setWidth 8
  else if k = 3 then q.toff.setWidth 8
  else if k = 4 then q.trise.setWidth 8
  else if k = 5 then q.tfall.setWidth 8
  else 0

/-- `view(a)` for a readable address (46_system.md R232). -/
def Block.view (b : Block) (a : Nat) : Byte :=
  if a ≤ 0x03 then b.pack2 (fun q => q.mode.toBits) a
  else if a = 0x04 then b.pack1 Pin.outlvl 1
  else if a = 0x05 then b.pack1 Pin.outlvl 0
  else if a = 0x06 then b.pack1 (fun q => q.mode.dir) 1
  else if a = 0x07 then b.pack1 (fun q => q.mode.dir) 0
  else if a = 0x08 then b.pack1 (fun q => q.mode.indis) 1
  else if a = 0x09 then b.pack1 (fun q => q.mode.indis) 0
  else if a = 0x0A then b.pack1 (fun q => q.mode.pullup) 1
  else if a = 0x0B then b.pack1 (fun q => q.mode.pullup) 0
  else if a = 0x0C then b.pack1 (fun q => q.mode.od) 1
  else if a = 0x0D then b.pack1 (fun q => q.mode.od) 0
  else if a = 0x0E then b.clkdiv.setWidth 8
  else if a = 0x0F then b.dbtime.setWidth 8
  else if a ≤ 0x13 then b.pack2 (fun q => q.sense.toBits) (a - 0x10)
  else if a = 0x14 then b.pack1 Pin.mask 1
  else if a = 0x15 then b.pack1 Pin.mask 0
  else if a = 0x16 then b.pack1 Pin.dben 1
  else if a = 0x17 then b.pack1 Pin.dben 0
  else if a = 0x18 then b.pack1 Pin.source 1
  else if a = 0x19 then b.pack1 Pin.source 0
  else if a = 0x1A then b.kp.ctl
  else if a = 0x1B then b.kp.sleepCode.setWidth 8
  else if a = 0x1C then b.kp.scanCode.setWidth 8
  else if a = 0x1D then b.kp.debCode.setWidth 8
  else if a = 0x1E then b.kp.keyData.extractLsb' 8 8
  else if a = 0x1F then b.kp.keyData.extractLsb' 0 8
  else (b.pinAt ((a - 0x20) / 8)).ledCell ((a - 0x20) % 8)

/-- `reserved(a)` (46_system.md R230, 10_state.md R46). -/
def reservedAddr (a : Nat) : Bool := decide (0xA0 ≤ a) || (decide (0x20 ≤ a) && decide (6 ≤ (a - 0x20) % 8))

/-! ### The commands -/

/-- READ_REG (46_system.md R230): a peek, without side effect. -/
def execReadReg (addr : Byte) (s : State) : Result :=
  if reservedAddr addr.toNat then s.raise .invalidParameter
  else s.finish s.block [s.block.view addr.toNat]

/-- RESET (46_system.md R231): every field at its reset value. -/
def execReset (s : State) : Result := s.finish Block.reset []

end Sys2Proof.Machine
end

