-- ==== Sys2Proof/Machine/TimingCodec.lean ====
section
/-! DEFINITION. The codec commands (41_timing_codec.md R108 to R110). -/

namespace Sys2Proof.Machine

/-- CODEC_ENCODE (41_timing_codec.md R108). -/
def execCodecEncode (ms : Half) (dv : Byte) (s : State) : Result :=
  match dvOperand dv with
  | none => s.raise .invalidParameter
  | some d =>
    match encodeMs ms d.toNat with
    | none => s.raise .outOfRange
    | some c => s.finish s.block [c.setWidth 8]

/-- CODEC_DECODE (41_timing_codec.md R109). -/
def execCodecDecode (code dv : Byte) (s : State) : Result :=
  match codeOperand code with
  | none => s.raise .invalidParameter
  | some c =>
    match dvOperand dv with
    | none => s.raise .invalidParameter
    | some d => s.finish s.block (bytes32 (BitVec.ofNat 32 (decodeUnits c.toNat d.toNat)))

/-- SET_DIVIDER (41_timing_codec.md R110): no stored code is re-encoded and no counter changes. -/
def execSetDivider (dv : Byte) (s : State) : Result :=
  match dvOperand dv with
  | none => s.raise .invalidParameter
  | some d => s.finish { s.block with clkdiv := d } []

end Sys2Proof.Machine
end

