-- ==== Sys2Proof/Machine/Dispatch.lean ====
section
/-! DEFINITION. One arm a command (30_encoding.md R84). -/

namespace Sys2Proof.Machine

def exec (i : Instr) (s : State) : Host.Outcome State Fault Refusal :=
  match i with
  | .setMode pin mode => Sys2Proof.Machine.execSetMode pin mode s
  | .writeDigital pin level => Sys2Proof.Machine.execWriteDigital pin level s
  | .readDigital pin => Sys2Proof.Machine.execReadDigital pin s
  | .setIntensity pin value => Sys2Proof.Machine.execSetIntensity pin value s
  | .blink pin onMs offMs => Sys2Proof.Machine.execBlink pin onMs offMs s
  | .breathe pin onMs offMs riseMs fallMs => Sys2Proof.Machine.execBreathe pin onMs offMs riseMs fallMs s
  | .stop pin => Sys2Proof.Machine.execStop pin s
  | .configureKeypad rows cols sleepMs scanMs debMs => Sys2Proof.Machine.execConfigureKeypad rows cols sleepMs scanMs debMs s
  | .readKeyData => Sys2Proof.Machine.execReadKeyData s
  | .decodeRow raw => Sys2Proof.Machine.execDecodeRow raw s
  | .decodeCol raw => Sys2Proof.Machine.execDecodeCol raw s
  | .setEdgeSense pin edge => Sys2Proof.Machine.execSetEdgeSense pin edge s
  | .setMask pin enabled => Sys2Proof.Machine.execSetMask pin enabled s
  | .setGlobalDebounce ms => Sys2Proof.Machine.execSetGlobalDebounce ms s
  | .enableDebounce pin enabled => Sys2Proof.Machine.execEnableDebounce pin enabled s
  | .readSource => Sys2Proof.Machine.execReadSource s
  | .codecEncode ms dv => Sys2Proof.Machine.execCodecEncode ms dv s
  | .codecDecode code dv => Sys2Proof.Machine.execCodecDecode code dv s
  | .setDivider dv => Sys2Proof.Machine.execSetDivider dv s
  | .readReg addr => Sys2Proof.Machine.execReadReg addr s
  | .reset => Sys2Proof.Machine.execReset s

end Sys2Proof.Machine
end

