-- ==== Sys2Proof/Machine/Tick.lean ====
section
/-! DEFINITION. The tick step (20_memory.md R71): the LED engines, the keypad engine and the edge detectors
advance by one tick together, each from its own state, the configuration and the sample vector. -/

namespace Sys2Proof.Machine

/-- Some LED engine has no next phase (log entry 6). -/
def Block.ledStuck (b : Block) : Bool := (List.finRange 16).any fun p => (b.pin p).ledTick.isNone

/-- Pin p after a tick: the LED engine and the detector write different fields, so their order does not
matter (20_memory.md R71). -/
def Block.pinTick (b : Block) (d : Draws) (p : PinNo) (q : Pin) : Pin :=
  (q.ledTick.getD q).detTick b.dbtime (d.pinIn.getLsbD p.val) (d.latchChoice.getLsbD p.val)

/-- The block after a tick (20_memory.md R71). -/
def Block.tick (b : Block) (d : Draws) : Block := { b.mapPins (b.pinTick d) with kp := b.kp.tick d }

/-- One tick step with the draws the state holds. It stops only where an LED engine is stuck (log entry 6). -/
def State.tick (s : State) : Result :=
  if s.block.ledStuck then .fault .ledStuck else .next { s with block := s.block.tick s.draws }

end Sys2Proof.Machine
end

