-- ==== Sys2Proof/Machine/Step.lean ====
section
/-! DEFINITION. One step of the machine: a tick, or a host frame executed as one atomic command
(20_memory.md R65, R70 to R72). -/

namespace Sys2Proof.Machine

/-- The next scheduled step: a tick, or a frame. A frame that decodes runs its command; one that does not is
answered IllegalCommand and changes no state (30_encoding.md R85). -/
def step (s : State) : Host.Outcome State Fault Refusal :=
  match s.fetch with
  | (.tick _, s') => s'.tick
  | (.frame op args _, s') =>
    match decode (op :: args) with
    | .ok i => exec i s'
    | .error _ => s'.raise .illegalCommand

/-- `s` with the frame of a table word as its very next step (log entries 2 and 13). -/
def State.withFetchWord (s : State) (nbits w : Nat) : State := s.schedule (tableFrame nbits w)

end Sys2Proof.Machine
end

