-- ==== Sys2Proof/Machine/Assembler.lean ====
section
/-! DEFINITION. The command-stream lines of 30_encoding.md R88 as abstract terms, with the pseudo-instructions
of R89: the steps a line stands for. Text, number bases and comments are host software (00_scope.md R4). -/

namespace Sys2Proof.Machine

/-- A pseudo-instruction, by the other name the source uses (30_encoding.md R89). -/
inductive Pseudo where
  | keypad (r c : Byte) (sleepMs scanMs debMs : Half)
  | configure (r c : Byte) (sleepMs scanMs debMs : Half)
  | pwm (p v : Byte)
  | debounceTime (ms : Half)
  | debounceEnable (p : Byte)
  | enableInterrupt (p e : Byte)
  | interruptSource
deriving DecidableEq, Repr

/-- The commands a pseudo-instruction stands for, in order (30_encoding.md R89). -/
def Pseudo.expand : Pseudo → List Instr
  | .keypad r c sl sc d => [.configureKeypad r c sl sc d]
  | .configure r c sl sc d => [.configureKeypad r c sl sc d]
  | .pwm p v => [.setIntensity p v]
  | .debounceTime ms => [.setGlobalDebounce ms]
  | .debounceEnable p => [.enableDebounce p 1]
  | .enableInterrupt p e => [.setEdgeSense p e, .setMask p 1]
  | .interruptSource => [.readSource]

/-- The symbolic mode operands `INPUT` .. `ANALOG_OUTPUT` (30_encoding.md R88). -/
def Mode.symbol (m : Mode) : Byte := m.toBits.setWidth 8

/-- The symbolic edge operands `NONE` .. `BOTH` (30_encoding.md R88). -/
def Sense.symbol (e : Sense) : Byte := e.toBits.setWidth 8

/-- A line: a command, a pseudo-instruction, or `TICK n`, with the environment's draws beside it
(30_encoding.md R88). A line states one set of draws: DESIGN CHOICE, log entry 15. -/
inductive AsmLine where
  | command (i : Instr) (d : Draws)
  | pseudo (i : Pseudo) (d : Draws)
  | ticks (n : Nat) (d : Draws)
deriving DecidableEq, Repr

/-- The step of a command: its frame. -/
def frameEvent (d : Draws) (i : Instr) : Event := .frame (opcodeOf i.mnemonic) (operandBytes i) d

/-- The steps a line stands for (30_encoding.md R88, R89). Every step of a line has the line's one set of draws: n
ticks with a sample each are n lines of one tick. DESIGN CHOICE, log entry 15. -/
def AsmLine.events : AsmLine → List Event
  | .command i d => [frameEvent d i]
  | .pseudo i d => i.expand.map (frameEvent d)
  | .ticks n d => List.replicate n (.tick d)

end Sys2Proof.Machine
end

