-- ==== Sys2Proof/Machine/Pads.lean ====
section
/-! DEFINITION. The block's observable drive on each pad (42_pin_config.md R125). It is a function of the
state; no command returns it. -/

namespace Sys2Proof.Machine

/-- What the block does to a pad (42_pin_config.md R125). -/
inductive Pad where
  /-- not driven, no pull -/
  | highImpedance
  /-- not driven, pulled up -/
  | pulledUp
  /-- driven to a level, push-pull -/
  | driven (level : Bool)
  /-- open-drain PWM at a level, with the duty P_TAPER gives it -/
  | pwm (level duty : Byte)
deriving DecidableEq, Repr

/-- `pad(p)` (42_pin_config.md R125, 43_led_driver.md R150). -/
def Block.pad (b : Block) (p : PinNo) : Pad :=
  match (b.pin p).mode with
  | .input => .highImpedance
  | .inputPullUp => .pulledUp
  | .output => .driven (if b.owned p then b.kp.drive p else (b.pin p).outlvl)
  | .analogOutput => .pwm (b.pin p).level (Config.pTaper (b.pin p).level)

/-- The OPEN electrical drive of a pad in its mode (42_pin_config.md R125, `P_PAD`). -/
def Block.padElectrical (b : Block) (p : PinNo) : Config.PadElectrical := Config.pPad (b.pin p).mode.toBits

end Sys2Proof.Machine
end

