-- ==== Sys2Proof/WellFormed.lean ====
section
/-! DEFINITION. The operand ranges of 30_encoding.md R82, as one check of a command as syntax. The decoder
does not apply it (R82): an ill-formed command is a legal frame, and the block answers it with an error
status. Every term of `Instr` has an encoding. -/

namespace Sys2Proof

/-- A pin operand: 0..15 (30_encoding.md R82). -/
def pinInRange (p : Byte) : Bool := p.toNat ≤ 15

/-- A mode or an edge operand: 0..3 (30_encoding.md R82). -/
def enumInRange (x : Byte) : Bool := x.toNat ≤ 3

/-- A level or an enabled flag: 0 or 1 (30_encoding.md R82). -/
def bitInRange (x : Byte) : Bool := x.toNat ≤ 1

/-- A row or a column count: 1..8 (30_encoding.md R82). -/
def lineCountInRange (n : Byte) : Bool := 1 ≤ n.toNat && n.toNat ≤ Config.maxLines

/-- A divider exponent: 0..7 (30_encoding.md R82). -/
def dvInRange (dv : Byte) : Bool := dv.toNat ≤ 7

/-- A TimeCode operand: 0..29 (30_encoding.md R82). -/
def codeInRange (c : Byte) : Bool := c.toNat ≤ Config.maxCode

/-- A readable address of 10_state.md R47: below 0xA0, and in the LED blocks not one of the two spare cells. -/
def addrInRange (a : Byte) : Bool :=
  a.toNat < 0xA0 && !(0x20 ≤ a.toNat && 6 ≤ (a.toNat - 0x20) % 8)

/-- Every single operand is in the range 30_encoding.md R82 gives its kind. -/
def Instr.wellFormed : Instr → Bool
  | .setMode pin mode => pinInRange pin && enumInRange mode
  | .writeDigital pin level => pinInRange pin && bitInRange level
  | .readDigital pin => pinInRange pin
  | .setIntensity pin _ => pinInRange pin
  | .blink pin _ _ => pinInRange pin
  | .breathe pin _ _ _ _ => pinInRange pin
  | .stop pin => pinInRange pin
  | .configureKeypad rows cols _ _ _ => lineCountInRange rows && lineCountInRange cols
  | .readKeyData => true
  | .decodeRow _ => true
  | .decodeCol _ => true
  | .setEdgeSense pin edge => pinInRange pin && enumInRange edge
  | .setMask pin enabled => pinInRange pin && bitInRange enabled
  | .setGlobalDebounce _ => true
  | .enableDebounce pin enabled => pinInRange pin && bitInRange enabled
  | .readSource => true
  | .codecEncode _ dv => dvInRange dv
  | .codecDecode code dv => codeInRange code && dvInRange dv
  | .setDivider dv => dvInRange dv
  | .readReg addr => addrInRange addr
  | .reset => true

end Sys2Proof
end

