-- ==== Sys2Proof/Safety.lean ====
section
/-! DEFINITION. The terms claims are made in: the invariant of 10_state.md R48 with the counter bounds of its
R41 to R43, how a command is answered, what a command leaves alone, and runs of one engine. -/

namespace Sys2Proof.Machine

/-! ### The invariant (10_state.md R48) -/

/-- R48 item 1. -/
abbrev Pin.WaveNeedsAnalog (q : Pin) : Prop := q.wave ≠ .none → q.mode = .analogOutput

/-- R48 item 2. -/
abbrev Pin.ProfileNeedsAnalog (q : Pin) : Prop :=
  q.mode ≠ .analogOutput →
    q.intensity = 0 ∧ q.wave = .none ∧ q.ton = 0 ∧ q.toff = 0 ∧ q.trise = 0 ∧ q.tfall = 0

/-- R48 item 3. -/
abbrev Pin.LevelNeedsOutput (q : Pin) : Prop := q.mode ≠ .output → q.outlvl = false

/-- R48 item 4. -/
abbrev Pin.CodesMatchWave (q : Pin) : Prop :=
  (q.wave = .none → q.ton = 0 ∧ q.toff = 0 ∧ q.trise = 0 ∧ q.tfall = 0) ∧
  (q.wave = .blink → q.trise = 0 ∧ q.tfall = 0 ∧ ¬(q.ton = 0 ∧ q.toff = 0)) ∧
  (q.wave = .breathe → q.trise ≠ 0 ∧ q.tfall ≠ 0)

/-- A legal TimeCode, 0..29 (41_timing_codec.md R100). -/
abbrev LegalCode (c : TimeCode) : Prop := c.toNat ≤ 29

/-- R48 item 5, for a pin. -/
abbrev Pin.CodesLegal (q : Pin) : Prop :=
  LegalCode q.ton ∧ LegalCode q.toff ∧ LegalCode q.trise ∧ LegalCode q.tfall

/-- R48 item 6. -/
abbrev Pin.SourceNeedsEnable (q : Pin) : Prop := q.source = true → q.mask = true ∧ q.sense ≠ .none

/-- R48 item 10. -/
abbrev Pin.EngineInPhase (q : Pin) : Prop :=
  (q.wave = .none → q.ledPhase = .rise ∧ q.ledCnt = 0) ∧
  (q.wave ≠ .none → q.ledCnt.toNat < q.len q.ledPhase)

/-- The debounce count is below the largest debounce length (45_interrupt_debounce.md R207). -/
abbrev Pin.DebounceBounded (q : Pin) : Prop := q.dbCnt.toNat < 32768

/-- The part of the invariant that speaks of one pin. -/
abbrev Pin.Inv (q : Pin) : Prop :=
  q.WaveNeedsAnalog ∧ q.ProfileNeedsAnalog ∧ q.LevelNeedsOutput ∧ q.CodesMatchWave ∧ q.CodesLegal ∧
  q.SourceNeedsEnable ∧ q.EngineInPhase ∧ q.DebounceBounded

/-- R48 items 5, 8 and 9, for the keypad. -/
abbrev Keypad.ConfigOk (k : Keypad) : Prop :=
  LegalCode k.sleepCode ∧ LegalCode k.scanCode ∧ LegalCode k.debCode ∧
  (k.en = false → k = Keypad.reset) ∧
  (k.en = true → k.debCode.toNat < k.scanCode.toNat)

/-- The bounds of the keypad engine's counters (10_state.md R42, 44_keypad.md R173, R175). -/
abbrev Keypad.EngineBounded (k : Keypad) : Prop :=
  k.en = true →
    k.row.toNat ≤ k.rowsM1.toNat ∧
    (k.state = .scan → k.cnt.toNat < base k.scanCode ∧ ∀ c : Fin 8, (k.run.get c).toNat ≤ k.cnt.toNat) ∧
    (k.state = .sleep → k.cnt.toNat < base k.sleepCode ∧ ∀ c : Fin 8, k.run.get c = 0)

/-- R48 item 7. -/
abbrev Block.OwnedPinsReady (b : Block) : Prop :=
  ∀ p : PinNo,
    (b.kp.ownsRow p = true → (b.pin p).mode = .output ∧ (b.pin p).outlvl = false) ∧
    (b.kp.ownsCol p = true → (b.pin p).mode = .inputPullUp)

/-- The invariant of every reachable state: 10_state.md R48, items 1 to 10, and the counter bounds. -/
abbrev Block.Inv (b : Block) : Prop :=
  (∀ p : PinNo, (b.pin p).Inv) ∧ LegalCode b.dbtime ∧ b.kp.ConfigOk ∧ b.kp.EngineBounded ∧ b.OwnedPinsReady

/-! ### How a command is answered -/

/-- From s to t one response was given, and nothing else outside the block changed. -/
def Answered (s t : State) (response : List Byte) : Prop :=
  t.outbox = s.outbox ++ [response] ∧ t.inbox = s.inbox ∧ t.draws = s.draws ∧ t.drawCount = s.drawCount

/-- The command goes to a next state in which its response is the single status byte and the block is as
before (60_exceptions.md R244). -/
def AnswersError (i : Instr) (s : State) (status : Byte) : Prop :=
  ∃ t, exec i s = .next t ∧ Answered s t [status] ∧ t.block = s.block

/-- The command goes to a next state in which its response is OK with the given result bytes and the block
is as `post` says (30_encoding.md R83). -/
def AnswersOk (i : Instr) (s : State) (results : List Byte) (post : Block → Prop) : Prop :=
  ∃ t, exec i s = .next t ∧ Answered s t (0x00 :: results) ∧ post t.block

/-- The frame of a command on one pin: every other pin, the keypad, CLKDIV and DBTIME are as before. -/
def OnlyPinChanged (b b' : Block) (p : PinNo) : Prop :=
  (∀ r, r ≠ p → b'.pin r = b.pin r) ∧ b'.kp = b.kp ∧ b'.clkdiv = b.clkdiv ∧ b'.dbtime = b.dbtime

/-- Two pins agree in everything but the LED profile and its engine (10_state.md R25 to R27, R41). -/
def SameOutsideLed (q q' : Pin) : Prop :=
  q'.mode = q.mode ∧ q'.outlvl = q.outlvl ∧ q'.sense = q.sense ∧ q'.mask = q.mask ∧ q'.dben = q.dben ∧
  q'.source = q.source ∧ q'.detValid = q.detValid ∧ q'.detLvl = q.detLvl ∧ q'.dbCnt = q.dbCnt ∧
  q'.cfgwin = q.cfgwin

/-- Two pins agree in the LED profile and its engine. -/
def SameLed (q q' : Pin) : Prop :=
  q'.intensity = q.intensity ∧ q'.wave = q.wave ∧ q'.ton = q.ton ∧ q'.toff = q.toff ∧ q'.trise = q.trise ∧
  q'.tfall = q.tfall ∧ q'.ledPhase = q.ledPhase ∧ q'.ledCnt = q.ledCnt

/-- Two pins agree in the interrupt configuration and the latched bit (10_state.md R35 to R37, R39). -/
def SameInterrupt (q q' : Pin) : Prop :=
  q'.sense = q.sense ∧ q'.mask = q.mask ∧ q'.dben = q.dben ∧ q'.source = q.source

/-- The pin has no waveform: WAVE NONE, codes and engine cleared. -/
def NoWave (q : Pin) : Prop :=
  q.wave = .none ∧ q.ton = 0 ∧ q.toff = 0 ∧ q.trise = 0 ∧ q.tfall = 0 ∧ q.ledPhase = .rise ∧ q.ledCnt = 0

/-- What a mode transition makes of a pin (42_pin_config.md R122). -/
def ModeTransition (q q' : Pin) (m : Mode) : Prop :=
  q'.mode = m ∧ q'.outlvl = false ∧ q'.detValid = false ∧ q'.dbCnt = 0 ∧ q'.cfgwin = false ∧
  SameInterrupt q q' ∧ q'.detLvl = q.detLvl ∧
  (q.mode = .analogOutput → q'.intensity = 0 ∧ NoWave q') ∧
  (q.mode ≠ .analogOutput → SameLed q q')

/-- The reserved opcodes, as 30_encoding.md R85 lists them. -/
def ReservedOpcode (n : Nat) : Prop :=
  n = 0x00 ∨ (0x04 ≤ n ∧ n ≤ 0x0F) ∨ (0x14 ≤ n ∧ n ≤ 0x1F) ∨ (0x24 ≤ n ∧ n ≤ 0x2F) ∨
  (0x35 ≤ n ∧ n ≤ 0x3F) ∨ (0x43 ≤ n ∧ n ≤ 0x4F) ∨ (0x51 ≤ n ∧ n ≤ 0x7E) ∨ (0x80 ≤ n ∧ n ≤ 0xFF)

/-- `8192 >> dv`: the largest encodable duration in ms at the divider in force (41_timing_codec.md R104). -/
def Block.maxMs (b : Block) : Nat := 8192 >>> b.clkdiv.toNat

/-- Whether a sense wants the edge to a new level (45_interrupt_debounce.md R208). -/
def EdgeWanted (e : Sense) (new : Bool) : Bool :=
  e == .both || (e == .rising && new) || (e == .falling && !new)

/-- The low samples in a row of column c, this tick's included (44_keypad.md R175). -/
def Keypad.lowRun (k : Keypad) (d : Draws) (c : Fin 8) : Nat :=
  if d.pinIn.getLsbD (8 + c.val) then 0 else (k.run.get c).toNat + 1

/-- The columns detected if this tick ends a window, ascending (44_keypad.md R176). -/
def Keypad.detected (k : Keypad) (d : Draws) : List (Fin 8) :=
  (List.finRange 8).filter fun c =>
    decide (c.val ≤ k.colsM1.toNat) && decide (max (base k.debCode) 1 ≤ k.lowRun d c)

/-- The detections of a cycle after the columns `det` were detected in row `row` (44_keypad.md R175,
`record_hit`): the first detection is kept, and two or more are told apart from one. -/
def HitsRecorded (hits : KpHits) (hitR hitC row : BitVec 3) (det : List (Fin 8))
    (hits' : KpHits) (hitR' hitC' : BitVec 3) : Prop :=
  match hits, det with
  | _, [] => hits' = hits ∧ hitR' = hitR ∧ hitC' = hitC
  | .zero, [c] => hits' = .one ∧ hitR' = row ∧ hitC' = BitVec.ofNat 3 c.val
  | .zero, c :: _ :: _ => hits' = .many ∧ hitR' = row ∧ hitC' = BitVec.ofNat 3 c.val
  | _, _ :: _ => hits' = .many ∧ hitR' = hitR ∧ hitC' = hitC

/-- Two keypads have the same configuration (10_state.md R31, R32). -/
def SameKeypadConfig (k k' : Keypad) : Prop :=
  k'.en = k.en ∧ k'.rowsM1 = k.rowsM1 ∧ k'.colsM1 = k.colsM1 ∧
  k'.sleepCode = k.sleepCode ∧ k'.scanCode = k.scanCode ∧ k'.debCode = k.debCode

/-! ### Runs of one engine -/

/-- n LED ticks of one pin. -/
def Pin.ledRun : Nat → Pin → Option Pin
  | 0, q => some q
  | n + 1, q =>
    match Pin.ledRun n q with
    | none => none
    | some q' => q'.ledTick

/-- The keypad engine over a list of draws, the first tick's first. -/
def Keypad.ticks (k : Keypad) (ds : List Draws) : Keypad := ds.foldl Keypad.tick k

/-- The detector of one pin over a list of (sample, latch choice), the first tick's first. -/
def Pin.detRun (q : Pin) (dbtime : TimeCode) (samples : List (Bool × Bool)) : Pin :=
  samples.foldl (fun a rc => a.detTick dbtime rc.1 rc.2) q

end Sys2Proof.Machine
end

