-- ==== Sys2Proof/Certificates/Slice0/Obligations.lean ====
section
/-! DEFINITION. The statements for the provers, in the order of OBLIGATIONS.json. Each says which rule of spec/
it formalises; a statement about a command starts with its frame. Responses are read in the outbox and draws
in the state (log entries 1 to 3). -/

open Sys2Proof Sys2Proof.Machine

/-! ### Encoding and the step -/

/-- Every command decodes back from its frame with every operand, and the frame has its format's length
(30_encoding.md R81, R84). -/
def Obligations.DecodeEncodeRoundTrip : Prop :=
  ∀ i : Instr, decode (encode i) = .ok i ∧ (encode i).length = (formatOf i.mnemonic).length

/-- A frame that decodes is the frame of its command: no two frames mean one command (30_encoding.md R84). -/
def Obligations.EncodeDecodeRoundTrip : Prop :=
  ∀ (f : List Byte) (i : Instr), decode f = .ok i → encode i = f

/-- A frame with a reserved opcode or of a wrong length is answered IllegalCommand and changes no state; every
other frame runs a command (30_encoding.md R85). -/
def Obligations.IllegalFramesAnswerIllegalCommand : Prop :=
  ∀ (s : State) (op : Byte) (args : List Byte) (d : Draws) (rest : List Event),
    s.inbox = .frame op args d :: rest →
    ((ReservedOpcode op.toNat ∨ ∃ m, opcodeOf m = op ∧ args.length + 1 ≠ (formatOf m).length) →
      ∃ t, step s = .next t ∧ t.block = s.block ∧ t.outbox = s.outbox ++ [[0x06]] ∧ t.inbox = rest) ∧
    (¬(ReservedOpcode op.toNat ∨ ∃ m, opcodeOf m = op ∧ args.length + 1 ≠ (formatOf m).length) →
      ∃ i, encode i = op :: args ∧ step s = exec i { s with inbox := rest, draws := d })

/-- Frames the spec writes out stand for the commands it gives them (30_encoding.md R88 and the examples of the
command rules). -/
def Obligations.SpecFramesDecode : Prop :=
  decode [0x01, 0x05, 0x03] = .ok (.setMode 5 3) ∧
  decode [0x12, 0x05, 0x01, 0xF4, 0x02, 0x58, 0x01, 0xF4, 0x00, 0xFA] = .ok (.breathe 5 500 600 500 250) ∧
  decode [0x11, 0x05, 0x01, 0xF4, 0x01, 0xF4] = .ok (.blink 5 500 500) ∧
  decode [0x20, 0x04, 0x03, 0x01, 0x00, 0x00, 0x02, 0x00, 0x01] = .ok (.configureKeypad 4 3 256 2 1) ∧
  decode [0x32, 0x00, 0x01] = .ok (.setGlobalDebounce 1) ∧
  decode [0x40, 0x01, 0xF4, 0x00] = .ok (.codecEncode 500 0) ∧
  decode [0x50, 0x06] = .ok (.readReg 6) ∧
  decode [0x7F] = .ok .reset

/-- A step whose next scheduled event is a frame that decodes runs that command, on the state with the frame
taken off the schedule and the frame's draws supplied (20_memory.md R70, R72; log entries 1 and 2). -/
def Obligations.StepRunsDecodedCommand : Prop :=
  ∀ (s : State) (op : Byte) (args : List Byte) (d : Draws) (rest : List Event) (i : Instr),
    s.inbox = .frame op args d :: rest → decode (op :: args) = .ok i →
    step s = exec i { s with inbox := rest, draws := d }

/-- Under the invariant a tick step completes: a scheduled tick with its draws, and, with nothing scheduled, a
tick with free draws (20_memory.md R70 to R73; log entries 1 and 2). -/
def Obligations.TickStepCompletes : Prop :=
  ∀ s : State, s.block.Inv →
    (∀ d rest, s.inbox = .tick d :: rest →
      step s = .next { s with block := s.block.tick d, inbox := rest, draws := d }) ∧
    (s.inbox = [] →
      step s = .next { s with block := s.block.tick (freeDraws s.drawCount), draws := freeDraws s.drawCount,
                              drawCount := s.drawCount + 1 })

/-- In a tick the three engine groups advance together, each from the state before the tick: the keypad writes
only the keypad, the LED engine only led_phase and led_cnt, the detector only its state, cfgwin and SOURCE
(20_memory.md R71). -/
def Obligations.TickGroupsAreIndependent : Prop :=
  ∀ (b : Block) (d : Draws), b.Inv →
    (b.tick d).clkdiv = b.clkdiv ∧ (b.tick d).dbtime = b.dbtime ∧ (b.tick d).kp = b.kp.tick d ∧
    ∀ p : PinNo,
      (∃ q, (b.pin p).ledTick = some q ∧ SameOutsideLed (b.pin p) q ∧ SameLed q ((b.tick d).pin p) ∧
        q.intensity = (b.pin p).intensity ∧ q.wave = (b.pin p).wave ∧ q.ton = (b.pin p).ton ∧
        q.toff = (b.pin p).toff ∧ q.trise = (b.pin p).trise ∧ q.tfall = (b.pin p).tfall) ∧
      (∃ r, r = (b.pin p).detTick b.dbtime (d.pinIn.getLsbD p.val) (d.latchChoice.getLsbD p.val) ∧
        SameLed (b.pin p) r ∧ SameOutsideLed r ((b.tick d).pin p) ∧
        r.mode = (b.pin p).mode ∧ r.outlvl = (b.pin p).outlvl ∧ r.sense = (b.pin p).sense ∧
        r.mask = (b.pin p).mask ∧ r.dben = (b.pin p).dben)

/-! ### Timing codec -/

/-- ENC_T gives the code nearest to t, the larger on a tie (41_timing_codec.md R103). -/
def Obligations.EncodePicksNearestTieToLarger : Prop :=
  ∀ t : Nat, t ≤ 32768 →
    encTicks t ≤ 29 ∧
    ∀ k ≤ 29,
      Nat.dist (baseOf (encTicks t)) t ≤ Nat.dist (baseOf k) t ∧
      (Nat.dist (baseOf k) t = Nat.dist (baseOf (encTicks t)) t → k ≤ encTicks t)

/-- encode fails exactly where ms > 8192 >> dv, and otherwise gives the legal code ENC_T of ms · 4 · 2^dv
(41_timing_codec.md R104). -/
def Obligations.EncodeFailsExactlyOverRange : Prop :=
  ∀ (ms : Half) (dv : Nat), dv ≤ 7 →
    (encodeMs ms dv = none ↔ 8192 >>> dv < ms.toNat) ∧
    (∀ c, encodeMs ms dv = some c → LegalCode c ∧ c.toNat = encTicks (ms.toNat * 4 * 2 ^ dv))

/-- The values of BASE, fixed by BASE(0) = 0, BASE(1) = 2 and the steps 3/2 and 4/3, and strictly increasing
(41_timing_codec.md section 1); and the codec laws: ENC_T inverts BASE, a nonzero duration never gets a code
below 3, the error is at most half the step around the duration, and encode is monotone (section 2). -/
def Obligations.CodecLawsHold : Prop :=
  (baseOf 0 = 0 ∧ baseOf 1 = 2) ∧
  (∀ m n : Nat, m < n → n ≤ 29 → baseOf m < baseOf n) ∧
  (∀ n : Nat, 1 ≤ n → n < 29 →
    (n % 2 = 1 → 2 * baseOf (n + 1) = 3 * baseOf n) ∧ (n % 2 = 0 → 3 * baseOf (n + 1) = 4 * baseOf n)) ∧
  (∀ n ≤ 29, encTicks (baseOf n) = n) ∧
  (∀ (ms : Half) (dv : Nat) (c : TimeCode), dv ≤ 7 → encodeMs ms dv = some c → 1 ≤ ms.toNat → 3 ≤ c.toNat) ∧
  (∀ (ms : Half) (dv n : Nat) (c : TimeCode), dv ≤ 7 → encodeMs ms dv = some c → n < 29 →
    baseOf n ≤ ms.toNat * 4 * 2 ^ dv → ms.toNat * 4 * 2 ^ dv ≤ baseOf (n + 1) →
    2 * Nat.dist (base c) (ms.toNat * 4 * 2 ^ dv) ≤ baseOf (n + 1) - baseOf n) ∧
  (∀ (ms ms' : Half) (dv : Nat) (c c' : TimeCode), dv ≤ 7 → encodeMs ms dv = some c →
    encodeMs ms' dv = some c' → ms.toNat ≤ ms'.toNat → c.toNat ≤ c'.toNat)

/-- CODEC_ENCODE: its errors in order, else the code of the duration, and no state written
(41_timing_codec.md R108). -/
def Obligations.CodecEncodeAnswersCode : Prop :=
  ∀ (ms : Half) (dv : Byte) (s : State),
    encode (.codecEncode ms dv) = [0x40, ms.extractLsb' 8 8, ms.extractLsb' 0 8, dv] ∧
    (7 < dv.toNat → AnswersError (.codecEncode ms dv) s 0x03) ∧
    (dv.toNat ≤ 7 → 32768 < ms.toNat * 4 * 2 ^ dv.toNat → AnswersError (.codecEncode ms dv) s 0x04) ∧
    (dv.toNat ≤ 7 → ms.toNat * 4 * 2 ^ dv.toNat ≤ 32768 →
      AnswersOk (.codecEncode ms dv) s [BitVec.ofNat 8 (encTicks (ms.toNat * 4 * 2 ^ dv.toNat))]
        fun b' => b' = s.block)

/-- CODEC_DECODE: its errors, else the exact duration in units of 1/1024 ms as four bytes, most significant
first, and no state written (41_timing_codec.md R109). -/
def Obligations.CodecDecodeAnswersExactDuration : Prop :=
  ∀ (code dv : Byte) (s : State),
    encode (.codecDecode code dv) = [0x41, code, dv] ∧
    (29 < code.toNat ∨ 7 < dv.toNat → AnswersError (.codecDecode code dv) s 0x03) ∧
    (code.toNat ≤ 29 → dv.toNat ≤ 7 →
      ∃ v : Nat, v * 2 ^ dv.toNat = baseOf code.toNat * 256 ∧ v ≤ 8388608 ∧
        AnswersOk (.codecDecode code dv) s
          [BitVec.ofNat 8 (v / 2 ^ 24), BitVec.ofNat 8 (v / 2 ^ 16), BitVec.ofNat 8 (v / 2 ^ 8), BitVec.ofNat 8 v]
          fun b' => b' = s.block)

/-- SET_DIVIDER writes CLKDIV and nothing else; no stored code and no counter changes (41_timing_codec.md
R110). -/
def Obligations.SetDividerWritesClkdivOnly : Prop :=
  ∀ (dv : Byte) (s : State),
    encode (.setDivider dv) = [0x42, dv] ∧
    (7 < dv.toNat → AnswersError (.setDivider dv) s 0x03) ∧
    (dv.toNat ≤ 7 → AnswersOk (.setDivider dv) s [] fun b' =>
      b'.clkdiv.toNat = dv.toNat ∧ b'.dbtime = s.block.dbtime ∧ b'.kp = s.block.kp ∧
      ∀ p, b'.pin p = s.block.pin p)

/-! ### Pin configuration -/

/-- SET_MODE: its errors in order; the current mode again changes nothing; a transition makes of the pin what
apply_mode says (42_pin_config.md R121, R122). -/
def Obligations.SetModeAppliesTransition : Prop :=
  ∀ (pin mode : Byte) (s : State),
    encode (.setMode pin mode) = [0x01, pin, mode] ∧
    (15 < pin.toNat → AnswersError (.setMode pin mode) s 0x01) ∧
    ∀ p : PinNo, pin.toNat = p.val →
      (s.block.owned p = true → AnswersError (.setMode pin mode) s 0x02) ∧
      (s.block.owned p = false → 3 < mode.toNat → AnswersError (.setMode pin mode) s 0x03) ∧
      (∀ m : Mode, s.block.owned p = false → mode.toNat = m.toBits.toNat →
        AnswersOk (.setMode pin mode) s [] fun b' =>
          OnlyPinChanged s.block b' p ∧
          ((s.block.pin p).mode = m → b'.pin p = s.block.pin p) ∧
          ((s.block.pin p).mode ≠ m → ModeTransition (s.block.pin p) (b'.pin p) m))

/-- WRITE_DIGITAL: its errors in order, else OUTLVL of the pin and nothing else (42_pin_config.md R123). -/
def Obligations.WriteDigitalWritesOutlvl : Prop :=
  ∀ (pin level : Byte) (s : State),
    encode (.writeDigital pin level) = [0x02, pin, level] ∧
    (15 < pin.toNat → AnswersError (.writeDigital pin level) s 0x01) ∧
    ∀ p : PinNo, pin.toNat = p.val →
      ((s.block.pin p).mode ≠ .output ∨ s.block.owned p = true → AnswersError (.writeDigital pin level) s 0x02) ∧
      ((s.block.pin p).mode = .output → s.block.owned p = false → 1 < level.toNat →
        AnswersError (.writeDigital pin level) s 0x03) ∧
      (∀ v : Bool, (s.block.pin p).mode = .output → s.block.owned p = false → level.toNat = v.toNat →
        AnswersOk (.writeDigital pin level) s [] fun b' =>
          OnlyPinChanged s.block b' p ∧ b'.pin p = { s.block.pin p with outlvl := v })

/-- READ_DIGITAL: its errors; an input pin answers the pad level drawn in this step, a keypad row the level the
scan drives, any other Output pin OUTLVL; no state written (42_pin_config.md R124). -/
def Obligations.ReadDigitalAnswersLevel : Prop :=
  ∀ (pin : Byte) (s : State),
    encode (.readDigital pin) = [0x03, pin] ∧
    (15 < pin.toNat → AnswersError (.readDigital pin) s 0x01) ∧
    ∀ p : PinNo, pin.toNat = p.val →
      ((s.block.pin p).mode = .analogOutput → AnswersError (.readDigital pin) s 0x02) ∧
      ((s.block.pin p).mode = .input ∨ (s.block.pin p).mode = .inputPullUp →
        AnswersOk (.readDigital pin) s [if s.draws.pinIn.getLsbD p.val then 1 else 0] fun b' => b' = s.block) ∧
      ((s.block.pin p).mode = .output → s.block.owned p = true →
        AnswersOk (.readDigital pin) s
          [if s.block.kp.state = .scan ∧ s.block.kp.row.toNat = p.val then 0 else 1] fun b' => b' = s.block) ∧
      ((s.block.pin p).mode = .output → s.block.owned p = false →
        AnswersOk (.readDigital pin) s [if (s.block.pin p).outlvl then 1 else 0] fun b' => b' = s.block)

/-- pad(p): input pins are not driven, an owned Output pin is driven as the scan drives it, another Output pin
to OUTLVL, and an AnalogOutput pin by PWM at L[p] with the duty the taper gives, whatever the taper
(42_pin_config.md R125). -/
def Obligations.PadFollowsMode : Prop :=
  ∀ (b : Block) (p : PinNo),
    ((b.pin p).mode = .input → b.pad p = .highImpedance) ∧
    ((b.pin p).mode = .inputPullUp → b.pad p = .pulledUp) ∧
    ((b.pin p).mode = .output → b.owned p = true →
      b.pad p = .driven (decide ¬(b.kp.state = .scan ∧ b.kp.row.toNat = p.val))) ∧
    ((b.pin p).mode = .output → b.owned p = false → b.pad p = .driven (b.pin p).outlvl) ∧
    ((b.pin p).mode = .analogOutput → b.pad p = .pwm (b.pin p).level (Config.pTaper (b.pin p).level))

/-! ### PWM LED driver -/

/-- SET_INTENSITY: its errors in order, else INTENSITY is the value and no waveform is left; nothing else
changes (43_led_driver.md R144). -/
def Obligations.SetIntensityStopsWaveform : Prop :=
  ∀ (pin value : Byte) (s : State),
    encode (.setIntensity pin value) = [0x10, pin, value] ∧
    (15 < pin.toNat → AnswersError (.setIntensity pin value) s 0x01) ∧
    ∀ p : PinNo, pin.toNat = p.val →
      ((s.block.pin p).mode ≠ .analogOutput → AnswersError (.setIntensity pin value) s 0x02) ∧
      ((s.block.pin p).mode = .analogOutput →
        AnswersOk (.setIntensity pin value) s [] fun b' =>
          OnlyPinChanged s.block b' p ∧ SameOutsideLed (s.block.pin p) (b'.pin p) ∧
          (b'.pin p).intensity = value ∧ NoWave (b'.pin p) ∧ (b'.pin p).level = value)

/-- BLINK: its errors in order, else the pin blinks with the two encoded durations from its first phase that
has a length; INTENSITY and the rest are kept (43_led_driver.md R145). -/
def Obligations.BlinkArmsWaveform : Prop :=
  ∀ (pin : Byte) (onMs offMs : Half) (s : State),
    encode (.blink pin onMs offMs) = [0x11, pin, onMs.extractLsb' 8 8, onMs.extractLsb' 0 8,
      offMs.extractLsb' 8 8, offMs.extractLsb' 0 8] ∧
    (15 < pin.toNat → AnswersError (.blink pin onMs offMs) s 0x01) ∧
    ∀ p : PinNo, pin.toNat = p.val →
      ((s.block.pin p).mode ≠ .analogOutput → AnswersError (.blink pin onMs offMs) s 0x02) ∧
      ((s.block.pin p).mode = .analogOutput → s.block.maxMs < onMs.toNat ∨ s.block.maxMs < offMs.toNat →
        AnswersError (.blink pin onMs offMs) s 0x04) ∧
      ((s.block.pin p).mode = .analogOutput → onMs = 0 → offMs = 0 → AnswersError (.blink pin onMs offMs) s 0x03) ∧
      ((s.block.pin p).mode = .analogOutput → onMs.toNat ≤ s.block.maxMs → offMs.toNat ≤ s.block.maxMs →
        ¬(onMs = 0 ∧ offMs = 0) →
        AnswersOk (.blink pin onMs offMs) s [] fun b' =>
          OnlyPinChanged s.block b' p ∧ SameOutsideLed (s.block.pin p) (b'.pin p) ∧
          (b'.pin p).intensity = (s.block.pin p).intensity ∧ (b'.pin p).wave = .blink ∧
          some (b'.pin p).ton = encodeMs onMs s.block.clkdiv.toNat ∧
          some (b'.pin p).toff = encodeMs offMs s.block.clkdiv.toNat ∧
          (b'.pin p).trise = 0 ∧ (b'.pin p).tfall = 0 ∧ (b'.pin p).ledCnt = 0 ∧
          (b'.pin p).ledPhase = (if onMs = 0 then .off else .on))

/-- BREATHE: its errors in order, a duration over the range being InvalidParameter, else the pin breathes with
the four encoded durations from RISE; INTENSITY and the rest are kept (43_led_driver.md R146). -/
def Obligations.BreatheArmsWaveform : Prop :=
  ∀ (pin : Byte) (onMs offMs riseMs fallMs : Half) (s : State),
    encode (.breathe pin onMs offMs riseMs fallMs) = 
      [0x12, pin, onMs.extractLsb' 8 8, onMs.extractLsb' 0 8, offMs.extractLsb' 8 8, offMs.extractLsb' 0 8,
       riseMs.extractLsb' 8 8, riseMs.extractLsb' 0 8, fallMs.extractLsb' 8 8, fallMs.extractLsb' 0 8] ∧
    (15 < pin.toNat → AnswersError (.breathe pin onMs offMs riseMs fallMs) s 0x01) ∧
    ∀ p : PinNo, pin.toNat = p.val →
      ((s.block.pin p).mode ≠ .analogOutput → AnswersError (.breathe pin onMs offMs riseMs fallMs) s 0x02) ∧
      ((s.block.pin p).mode = .analogOutput → riseMs = 0 ∨ fallMs = 0 →
        AnswersError (.breathe pin onMs offMs riseMs fallMs) s 0x03) ∧
      ((s.block.pin p).mode = .analogOutput →
        s.block.maxMs < onMs.toNat ∨ s.block.maxMs < offMs.toNat ∨ s.block.maxMs < riseMs.toNat ∨
          s.block.maxMs < fallMs.toNat →
        AnswersError (.breathe pin onMs offMs riseMs fallMs) s 0x03) ∧
      ((s.block.pin p).mode = .analogOutput → riseMs ≠ 0 → fallMs ≠ 0 →
        onMs.toNat ≤ s.block.maxMs → offMs.toNat ≤ s.block.maxMs →
        riseMs.toNat ≤ s.block.maxMs → fallMs.toNat ≤ s.block.maxMs →
        AnswersOk (.breathe pin onMs offMs riseMs fallMs) s [] fun b' =>
          OnlyPinChanged s.block b' p ∧ SameOutsideLed (s.block.pin p) (b'.pin p) ∧
          (b'.pin p).intensity = (s.block.pin p).intensity ∧ (b'.pin p).wave = .breathe ∧
          some (b'.pin p).ton = encodeMs onMs s.block.clkdiv.toNat ∧
          some (b'.pin p).toff = encodeMs offMs s.block.clkdiv.toNat ∧
          some (b'.pin p).trise = encodeMs riseMs s.block.clkdiv.toNat ∧
          some (b'.pin p).tfall = encodeMs fallMs s.block.clkdiv.toNat ∧
          (b'.pin p).ledCnt = 0 ∧ (b'.pin p).ledPhase = .rise)

/-- STOP: its errors in order, else no waveform is left and INTENSITY is kept, so the level is INTENSITY;
nothing else changes (43_led_driver.md R147). -/
def Obligations.StopRestoresIntensity : Prop :=
  ∀ (pin : Byte) (s : State),
    encode (.stop pin) = [0x13, pin] ∧
    (15 < pin.toNat → AnswersError (.stop pin) s 0x01) ∧
    ∀ p : PinNo, pin.toNat = p.val →
      ((s.block.pin p).mode ≠ .analogOutput → AnswersError (.stop pin) s 0x02) ∧
      ((s.block.pin p).mode = .analogOutput →
        AnswersOk (.stop pin) s [] fun b' =>
          OnlyPinChanged s.block b' p ∧ SameOutsideLed (s.block.pin p) (b'.pin p) ∧
          (b'.pin p).intensity = (s.block.pin p).intensity ∧ NoWave (b'.pin p) ∧
          (b'.pin p).level = (s.block.pin p).intensity)

/-- Under the invariant no LED command, SET_MODE or WRITE_DIGITAL touches a keypad-owned pin: each fails with
WrongMode (43_led_driver.md R140, 70_reset_and_hazards.md R267). -/
def Obligations.OwnedPinsRejectPinCommands : Prop :=
  ∀ (s : State) (p : PinNo) (pin x : Byte) (a c e f : Half),
    s.block.Inv → s.block.owned p = true → pin.toNat = p.val →
    AnswersError (.setMode pin x) s 0x02 ∧ AnswersError (.writeDigital pin x) s 0x02 ∧
    AnswersError (.setIntensity pin x) s 0x02 ∧ AnswersError (.blink pin a c) s 0x02 ∧
    AnswersError (.breathe pin a c e f) s 0x02 ∧ AnswersError (.stop pin) s 0x02

/-- The LED tick: a pin without a waveform rests; within a phase the count goes up by one; at its end the count
is 0 and the next phase of nonzero length is entered; and the count stays below the phase's length
(43_led_driver.md R148). -/
def Obligations.LedTickAdvancesPhase : Prop :=
  ∀ q : Pin, q.Inv →
    (q.mode ≠ .analogOutput ∨ q.wave = .none → q.ledTick = some q) ∧
    (∀ q', q.ledTick = some q' → q'.wave ≠ .none →
      q'.ledCnt.toNat < q'.len q'.ledPhase ∧ q'.len q'.ledPhase ≤ 32768) ∧
    (q.wave ≠ .none → q.ledCnt.toNat + 1 < q.len q.ledPhase → q.ledTick = some { q with ledCnt := q.ledCnt + 1 }) ∧
    (q.wave ≠ .none → q.ledCnt.toNat + 1 = q.len q.ledPhase →
      ∃ ph, q.ledTick = some { q with ledPhase := ph, ledCnt := 0 } ∧
        (q.wave = .blink → q.ledPhase = .on → ph = if q.toff = 0 then .on else .off) ∧
        (q.wave = .blink → q.ledPhase = .off → ph = if q.ton = 0 then .off else .on) ∧
        (q.wave = .breathe → q.ledPhase = .rise → ph = if q.ton = 0 then .fall else .on) ∧
        (q.wave = .breathe → q.ledPhase = .on → ph = .fall) ∧
        (q.wave = .breathe → q.ledPhase = .fall → ph = if q.toff = 0 then .rise else .off) ∧
        (q.wave = .breathe → q.ledPhase = .off → ph = .rise))

/-- The level of an AnalogOutput pin under the invariant: INTENSITY; full or 0 for a blink; for a breathe a ramp
from 0 that stays below 255, full, a ramp from 255 that stays above 0, and 0; and the ramps are monotone in
the count (43_led_driver.md R142). -/
def Obligations.LevelFollowsWaveform : Prop :=
  ∀ q : Pin, q.Inv → q.mode = .analogOutput →
    (q.wave = .none → q.level = q.intensity) ∧
    (q.wave = .blink → q.level.toNat = if q.ledPhase = .on then 255 else 0) ∧
    (q.wave = .breathe → q.ledPhase = .rise →
      q.level.toNat = 255 * q.ledCnt.toNat / base q.trise ∧ q.level.toNat < 255 ∧
      ∀ c : BitVec 16, c.toNat ≤ q.ledCnt.toNat →
        Pin.level { q with ledCnt := c } ≤ q.level ∧ Pin.level { q with ledCnt := 0 } = 0) ∧
    (q.wave = .breathe → q.ledPhase = .on → q.level.toNat = 255) ∧
    (q.wave = .breathe → q.ledPhase = .fall →
      q.level.toNat + 255 * q.ledCnt.toNat / base q.tfall = 255 ∧ 0 < q.level.toNat ∧
      ∀ c : BitVec 16, c.toNat ≤ q.ledCnt.toNat →
        q.level ≤ Pin.level { q with ledCnt := c } ∧ Pin.level { q with ledCnt := 0 } = 255) ∧
    (q.wave = .breathe → q.ledPhase = .off → q.level.toNat = 0)

/-- Closed form of a blink: t ticks after arming, the position in the cycle is t mod the cycle length, ON for
the first BASE(TON) ticks and OFF for the rest (43_led_driver.md section 2). -/
def Obligations.BlinkIsPeriodic : Prop :=
  ∀ (q : Pin) (t : Nat), q.mode = .analogOutput → q.wave = .blink → LegalCode q.ton → LegalCode q.toff →
    ¬(q.ton = 0 ∧ q.toff = 0) → q.ledCnt = 0 → q.ledPhase = (if q.ton = 0 then .off else .on) →
    Pin.ledRun t q = some (
      let k := t % (base q.ton + base q.toff)
      if k < base q.ton then { q with ledPhase := .on, ledCnt := BitVec.ofNat 16 k }
      else { q with ledPhase := .off, ledCnt := BitVec.ofNat 16 (k - base q.ton) })

/-- Closed form of a breathe: t ticks after arming, the position in the cycle is t mod the cycle length, in the
spans RISE, ON, FALL, OFF in that order (43_led_driver.md section 2). -/
def Obligations.BreatheIsPeriodic : Prop :=
  ∀ (q : Pin) (t : Nat), q.mode = .analogOutput → q.wave = .breathe →
    LegalCode q.ton → LegalCode q.toff → LegalCode q.trise → LegalCode q.tfall →
    q.trise ≠ 0 → q.tfall ≠ 0 → q.ledCnt = 0 → q.ledPhase = .rise →
    Pin.ledRun t q = some (
      let k := t % (base q.trise + base q.ton + base q.tfall + base q.toff)
      if k < base q.trise then { q with ledPhase := .rise, ledCnt := BitVec.ofNat 16 k }
      else if k < base q.trise + base q.ton then
        { q with ledPhase := .on, ledCnt := BitVec.ofNat 16 (k - base q.trise) }
      else if k < base q.trise + base q.ton + base q.tfall then
        { q with ledPhase := .fall, ledCnt := BitVec.ofNat 16 (k - (base q.trise + base q.ton)) }
      else
        { q with ledPhase := .off, ledCnt := BitVec.ofNat 16 (k - (base q.trise + base q.ton + base q.tfall)) })

/-! ### Keypad -/

/-- CONFIGURE_KEYPAD: its errors in order, else the whole configuration is replaced, the scan restarts, KEYDATA
is 0, rows become Output, columns InputPullUp and released pins Input, and every other pin is as before
(44_keypad.md R171). For OUTLVL of a pin already in its role's mode see the next statement. -/
def Obligations.ConfigureKeypadReplacesConfiguration : Prop :=
  ∀ (rows cols : Byte) (sleepMs scanMs debMs : Half) (s : State),
    encode (.configureKeypad rows cols sleepMs scanMs debMs) = 
      [0x20, rows, cols, sleepMs.extractLsb' 8 8, sleepMs.extractLsb' 0 8, scanMs.extractLsb' 8 8, scanMs.extractLsb' 0 8,
       debMs.extractLsb' 8 8, debMs.extractLsb' 0 8] ∧
    (¬(1 ≤ rows.toNat ∧ rows.toNat ≤ 8 ∧ 1 ≤ cols.toNat ∧ cols.toNat ≤ 8) →
      AnswersError (.configureKeypad rows cols sleepMs scanMs debMs) s 0x03) ∧
    (1 ≤ rows.toNat → rows.toNat ≤ 8 → 1 ≤ cols.toNat → cols.toNat ≤ 8 →
      (s.block.maxMs < sleepMs.toNat ∨ s.block.maxMs < scanMs.toNat ∨ s.block.maxMs < debMs.toNat →
        AnswersError (.configureKeypad rows cols sleepMs scanMs debMs) s 0x04) ∧
      ∀ cSleep cScan cDeb : TimeCode,
        encodeMs sleepMs s.block.clkdiv.toNat = some cSleep → encodeMs scanMs s.block.clkdiv.toNat = some cScan →
        encodeMs debMs s.block.clkdiv.toNat = some cDeb →
        (cScan.toNat ≤ cDeb.toNat → AnswersError (.configureKeypad rows cols sleepMs scanMs debMs) s 0x03) ∧
        (cDeb.toNat < cScan.toNat →
          AnswersOk (.configureKeypad rows cols sleepMs scanMs debMs) s [] fun b' =>
            b'.clkdiv = s.block.clkdiv ∧ b'.dbtime = s.block.dbtime ∧
            b'.kp.en = true ∧ b'.kp.rowsM1.toNat + 1 = rows.toNat ∧ b'.kp.colsM1.toNat + 1 = cols.toNat ∧
            b'.kp.sleepCode = cSleep ∧ b'.kp.scanCode = cScan ∧ b'.kp.debCode = cDeb ∧ b'.kp.keyData = 0 ∧
            b'.kp.state = .scan ∧ b'.kp.row = 0 ∧ b'.kp.cnt = 0 ∧ (∀ c : Fin 8, b'.kp.run.get c = 0) ∧
            b'.kp.hits = .zero ∧ b'.kp.hitR = 0 ∧ b'.kp.hitC = 0 ∧
            ∀ (p : PinNo) (m : Mode),
              ((p.val < rows.toNat ∧ p.val < 8 ∧ m = .output) ∨
               (8 ≤ p.val ∧ p.val - 8 < cols.toNat ∧ m = .inputPullUp) ∨
               ((p.val < 8 → rows.toNat ≤ p.val) ∧ (8 ≤ p.val → cols.toNat ≤ p.val - 8) ∧
                 s.block.owned p = true ∧ m = .input) →
                ((s.block.pin p).mode ≠ m → ModeTransition (s.block.pin p) (b'.pin p) m) ∧
                ((s.block.pin p).mode = m →
                  { b'.pin p with outlvl := (s.block.pin p).outlvl } = s.block.pin p) ∧
                ((s.block.pin p).mode = m → s.block.owned p = true → b'.pin p = s.block.pin p)) ∧
              ((p.val < 8 → rows.toNat ≤ p.val) → (8 ≤ p.val → cols.toNat ≤ p.val - 8) →
                s.block.owned p = false → b'.pin p = s.block.pin p)))

/-- Owned pins after a CONFIGURE_KEYPAD that succeeds from a state with the invariant: each is in its role's mode
with OUTLVL 0, also one that was an Output at level 1 before, and a pin owned before is as before (10_state.md
R23 and R48 item 7; that R23's clearing comes beside R172's apply_mode is the model's reading, log entry 5). -/
def Obligations.ConfigureKeypadSettlesOwnedLevels : Prop :=
  ∀ (rows cols : Byte) (sleepMs scanMs debMs : Half) (s t : State),
    s.block.Inv → exec (.configureKeypad rows cols sleepMs scanMs debMs) s = .next t →
    t.outbox = s.outbox ++ [[0x00]] →
    ∀ (p : PinNo) (m : Mode), t.block.owned p = true → m = (if p.val < 8 then .output else .inputPullUp) →
      (t.block.pin p).mode = m ∧ (t.block.pin p).outlvl = false ∧
      (s.block.owned p = true → t.block.pin p = s.block.pin p)

/-- READ_KEY_DATA answers KEYDATA, high byte first, and writes nothing; with the keypad disabled that is 0
(44_keypad.md R182). -/
def Obligations.ReadKeyDataAnswersWord : Prop :=
  encode .readKeyData = [0x21] ∧
  ∀ s : State,
    (AnswersOk .readKeyData s
      [BitVec.ofNat 8 (s.block.kp.keyData.toNat / 256), BitVec.ofNat 8 (s.block.kp.keyData.toNat % 256)]
      fun b' => b' = s.block) ∧
    (s.block.Inv → s.block.kp.en = false → AnswersOk .readKeyData s [0x00, 0x00] fun b' => b' = s.block)

/-- DECODE_ROW and DECODE_COL answer the position of the lowest set bit of the high and of the low byte,
NoKeyPressed on a zero byte, and write nothing (44_keypad.md R183, R184). -/
def Obligations.KeyDecodersAnswerLowestBit : Prop :=
  ∀ (raw : Half) (s : State),
    encode (.decodeRow raw) = [0x22, raw.extractLsb' 8 8, raw.extractLsb' 0 8] ∧
    encode (.decodeCol raw) = [0x23, raw.extractLsb' 8 8, raw.extractLsb' 0 8] ∧
    (raw.toNat / 256 = 0 → AnswersError (.decodeRow raw) s 0x05) ∧
    (raw.toNat % 256 = 0 → AnswersError (.decodeCol raw) s 0x05) ∧
    (∀ i < 8, raw.getLsbD (8 + i) = true → (∀ j < i, raw.getLsbD (8 + j) = false) →
      AnswersOk (.decodeRow raw) s [BitVec.ofNat 8 i] fun b' => b' = s.block) ∧
    (∀ i < 8, raw.getLsbD i = true → (∀ j < i, raw.getLsbD j = false) →
      AnswersOk (.decodeCol raw) s [BitVec.ofNat 8 i] fun b' => b' = s.block)

/-- The keypad tick: disabled it rests; within a row's window it samples the columns in use and counts; at the
end of a window it records the detections and goes to the next row, or, after the last row, back to row 0,
after a sleep if KPSLEEP is not 0 (what it publishes then is the next statement's); asleep it counts, and its
last tick starts the scan (44_keypad.md R175). -/
def Obligations.KeypadTickScansRows : Prop :=
  ∀ (k : Keypad) (d : Draws), k.ConfigOk → k.EngineBounded →
    (k.en = false → k.tick d = k) ∧
    (k.en = true → k.state = .scan →
      (k.cnt.toNat + 1 < base k.scanCode →
        ∃ v : Vector (BitVec 16) 8, k.tick d = { k with cnt := k.cnt + 1, run := v } ∧
          ∀ c : Fin 8, (c.val ≤ k.colsM1.toNat → (v.get c).toNat = k.lowRun d c) ∧
            (k.colsM1.toNat < c.val → v.get c = k.run.get c)) ∧
      (k.cnt.toNat + 1 = base k.scanCode → k.row.toNat < k.rowsM1.toNat →
        ∃ k', k.tick d = k' ∧ SameKeypadConfig k k' ∧ k'.keyData = k.keyData ∧ k'.state = .scan ∧
          k'.row.toNat = k.row.toNat + 1 ∧ k'.cnt = 0 ∧ (∀ c : Fin 8, k'.run.get c = 0) ∧
          HitsRecorded k.hits k.hitR k.hitC k.row (k.detected d) k'.hits k'.hitR k'.hitC) ∧
      (k.cnt.toNat + 1 = base k.scanCode → k.row = k.rowsM1 →
        ∃ w, k.tick d = { k with
          run := .replicate 8 0, cnt := 0, row := 0, hits := .zero, hitR := 0, hitC := 0, keyData := w,
          state := if k.sleepCode = 0 then .scan else .sleep })) ∧
    (k.en = true → k.state = .sleep →
      k.tick d = if k.cnt.toNat + 1 < base k.sleepCode then { k with cnt := k.cnt + 1 }
        else { k with cnt := 0, state := .scan })

/-- Publication: KEYDATA changes only at the end of a cycle; there it becomes 0 for no detection, the one-hot
pair of the single detection, or the drawn word for two or more (44_keypad.md R177). -/
def Obligations.KeypadCyclePublishesKeyData : Prop :=
  ∀ (k : Keypad) (d : Draws), k.ConfigOk → k.EngineBounded →
    (¬(k.en = true ∧ k.state = .scan ∧ k.cnt.toNat + 1 = base k.scanCode ∧ k.row = k.rowsM1) →
      (k.tick d).keyData = k.keyData) ∧
    (k.en = true → k.state = .scan → k.cnt.toNat + 1 = base k.scanCode → k.row = k.rowsM1 →
      ∀ (hits : KpHits) (hitR hitC : BitVec 3),
        HitsRecorded k.hits k.hitR k.hitC k.row (k.detected d) hits hitR hitC →
        (hits = .zero → (k.tick d).keyData = 0) ∧
        (hits = .one → ∀ i < 16,
          (k.tick d).keyData.getLsbD i = (decide (i = 8 + hitR.toNat) || decide (i = hitC.toNat))) ∧
        (hits = .many → (k.tick d).keyData = d.ghost))

/-- Sleep: for the BASE(KPSLEEP) ticks after a cycle nothing but the count changes, whatever the samples, and
every row is high; the last of them starts the scan. A row is low exactly while it is the current row in SCAN
(44_keypad.md R178, R174). -/
def Obligations.KeypadSleepsThroughSamples : Prop :=
  (∀ (k : Keypad) (ds : List Draws), k.ConfigOk → k.en = true → k.state = .sleep → k.cnt = 0 →
    (∀ p : PinNo, k.drive p = true) ∧
    (ds.length < base k.sleepCode → k.ticks ds = { k with cnt := BitVec.ofNat 16 ds.length }) ∧
    (k.sleepCode ≠ 0 → ds.length = base k.sleepCode → k.ticks ds = { k with cnt := 0, state := .scan })) ∧
  (∀ (k : Keypad) (p : PinNo), k.drive p = false ↔ k.state = .scan ∧ p.val = k.row.toNat)

/-- The scan's position: n ticks after CONFIGURE_KEYPAD, for every n and whatever the samples, the engine is at
position n mod P of its cycle, P = rows · BASE(KPSCAN) + BASE(KPSLEEP): in the scan, at row k / BASE(KPSCAN) and
count k mod BASE(KPSCAN) for position k, then asleep, at the count since the scan's end. Before the first
rows · BASE(KPSCAN) ticks nothing is published (44_keypad.md section 2). -/
def Obligations.KeypadScanPosition : Prop :=
  ∀ (r c : BitVec 3) (cSleep cScan cDeb : TimeCode) (ds : List Draws) (scan k : Nat) (kp : Keypad),
    LegalCode cSleep → LegalCode cScan → LegalCode cDeb → cDeb.toNat < cScan.toNat →
    scan = (r.toNat + 1) * base cScan → k = ds.length % (scan + base cSleep) →
    kp = (Keypad.configured r c cSleep cScan cDeb).ticks ds →
    (k < scan → kp.state = .scan ∧ kp.row.toNat = k / base cScan ∧ kp.cnt.toNat = k % base cScan) ∧
    (scan ≤ k → kp.state = .sleep ∧ kp.row = 0 ∧ kp.cnt.toNat = k - scan) ∧
    (ds.length < scan → kp.keyData = 0)

/-- A key held for its row's whole window is detected: at the window's end it is the cycle's one detection so far,
or there are several; in the last row it is published alone as the one-hot pair, or the drawn word is. Where
the cycle already had a detection there are several; and where it had none and every other column is high on
the last sample, the held key is the one detection (44_keypad.md section 2). -/
def Obligations.HeldKeyIsDetected : Prop :=
  ∀ (k k' : Keypad) (ds : List Draws) (last : Draws) (c : Fin 8) (word : Half),
    k.ConfigOk → k.en = true → k.state = .scan → k.cnt = 0 → (∀ x : Fin 8, k.run.get x = 0) →
    k.row.toNat ≤ k.rowsM1.toNat → c.val ≤ k.colsM1.toNat →
    ds.length + 1 = base k.scanCode → (∀ d ∈ ds ++ [last], d.pinIn.getLsbD (8 + c.val) = false) →
    k' = k.ticks (ds ++ [last]) → word = (1#16 <<< (8 + k.row.toNat)) ||| (1#16 <<< c.val) →
    (k.row.toNat < k.rowsM1.toNat →
      (k'.hits = .many ∨ (k.hits = .zero ∧ k'.hits = .one ∧ k'.hitR = k.row ∧ k'.hitC.toNat = c.val)) ∧
      (k.hits ≠ .zero → k'.hits = .many)) ∧
    (k.row = k.rowsM1 →
      (k'.keyData = last.ghost ∨ (k.hits = .zero ∧ k'.keyData = word)) ∧
      (k.hits ≠ .zero → k'.keyData = last.ghost)) ∧
    (k.hits = .zero → (∀ x : Fin 8, x ≠ c → x.val ≤ k.colsM1.toNat → last.pinIn.getLsbD (8 + x.val) = true) →
      (k.row.toNat < k.rowsM1.toNat → k'.hits = .one ∧ k'.hitR = k.row ∧ k'.hitC.toNat = c.val) ∧
      (k.row = k.rowsM1 → k'.keyData = word))

/-! ### Interrupts and debounce -/

/-- SET_EDGE_SENSE: its errors in order, else SENSE of the pin; None clears its SOURCE bit, and DBEN = 1 opens
its reconfiguration window; nothing else changes, in every mode and on owned pins too
(45_interrupt_debounce.md R200). -/
def Obligations.SetEdgeSenseWritesSense : Prop :=
  ∀ (pin edge : Byte) (s : State),
    encode (.setEdgeSense pin edge) = [0x30, pin, edge] ∧
    (15 < pin.toNat → AnswersError (.setEdgeSense pin edge) s 0x01) ∧
    ∀ p : PinNo, pin.toNat = p.val →
      (3 < edge.toNat → AnswersError (.setEdgeSense pin edge) s 0x03) ∧
      (∀ e : Sense, edge.toNat = e.toBits.toNat →
        AnswersOk (.setEdgeSense pin edge) s [] fun b' =>
          OnlyPinChanged s.block b' p ∧
          b'.pin p = { s.block.pin p with
            sense := e, source := decide (e ≠ .none) && (s.block.pin p).source,
            cfgwin := (s.block.pin p).dben || (s.block.pin p).cfgwin })

/-- SET_MASK: its errors in order, else MASK of the pin; masking clears its SOURCE bit, unmasking creates none,
and DBEN = 1 opens its reconfiguration window; nothing else changes (45_interrupt_debounce.md R201). -/
def Obligations.SetMaskWritesMask : Prop :=
  ∀ (pin enabled : Byte) (s : State),
    encode (.setMask pin enabled) = [0x31, pin, enabled] ∧
    (15 < pin.toNat → AnswersError (.setMask pin enabled) s 0x01) ∧
    ∀ p : PinNo, pin.toNat = p.val →
      (1 < enabled.toNat → AnswersError (.setMask pin enabled) s 0x03) ∧
      (∀ v : Bool, enabled.toNat = v.toNat →
        AnswersOk (.setMask pin enabled) s [] fun b' =>
          OnlyPinChanged s.block b' p ∧
          b'.pin p = { s.block.pin p with
            mask := v, source := v && (s.block.pin p).source,
            cfgwin := (s.block.pin p).dben || (s.block.pin p).cfgwin })

/-- SET_GLOBAL_DEBOUNCE: OutOfRange over the range, else DBTIME is the encoded duration and nothing else
changes, no count either (45_interrupt_debounce.md R202). -/
def Obligations.SetGlobalDebounceWritesDbtime : Prop :=
  ∀ (ms : Half) (s : State),
    encode (.setGlobalDebounce ms) = [0x32, ms.extractLsb' 8 8, ms.extractLsb' 0 8] ∧
    (s.block.maxMs < ms.toNat → AnswersError (.setGlobalDebounce ms) s 0x04) ∧
    (ms.toNat ≤ s.block.maxMs → AnswersOk (.setGlobalDebounce ms) s [] fun b' =>
      some b'.dbtime = encodeMs ms s.block.clkdiv.toNat ∧ b'.clkdiv = s.block.clkdiv ∧ b'.kp = s.block.kp ∧
      ∀ p, b'.pin p = s.block.pin p)

/-- ENABLE_DEBOUNCE: its errors in order, else DBEN of the pin; a changed value restarts the count, and the
level is kept; nothing else changes (45_interrupt_debounce.md R203). -/
def Obligations.EnableDebounceRestartsCount : Prop :=
  ∀ (pin enabled : Byte) (s : State),
    encode (.enableDebounce pin enabled) = [0x33, pin, enabled] ∧
    (15 < pin.toNat → AnswersError (.enableDebounce pin enabled) s 0x01) ∧
    ∀ p : PinNo, pin.toNat = p.val →
      (1 < enabled.toNat → AnswersError (.enableDebounce pin enabled) s 0x03) ∧
      (∀ v : Bool, enabled.toNat = v.toNat →
        AnswersOk (.enableDebounce pin enabled) s [] fun b' =>
          OnlyPinChanged s.block b' p ∧
          ((s.block.pin p).dben = v → b'.pin p = s.block.pin p) ∧
          ((s.block.pin p).dben ≠ v → b'.pin p = { s.block.pin p with dben := v, dbCnt := 0 }))

/-- READ_SOURCE answers the bit mask of the latched pins, high byte first, and clears exactly SOURCE; so a
second one answers 0 (45_interrupt_debounce.md R204). -/
def Obligations.ReadSourceReturnsAndClears : Prop :=
  encode .readSource = [0x34] ∧
  ∀ s : State, ∃ hi lo : Byte,
    (∀ i < 8, hi.getLsbD i = (s.block.pin (Fin.ofNat 16 (8 + i))).source) ∧
    (∀ i < 8, lo.getLsbD i = (s.block.pin (Fin.ofNat 16 i)).source) ∧
    (AnswersOk .readSource s [hi, lo] fun b' =>
      b'.clkdiv = s.block.clkdiv ∧ b'.dbtime = s.block.dbtime ∧ b'.kp = s.block.kp ∧
      ∀ p, b'.pin p = { s.block.pin p with source := false }) ∧
    ∀ t, exec .readSource s = .next t → AnswersOk .readSource t [0x00, 0x00] fun b' => b' = t.block

/-- The detector samples only input-mode pins: elsewhere its state is cleared and SOURCE kept. After reset and
after every mode transition it has not started, and the first sample of an input pin sets the level without an
edge (45_interrupt_debounce.md R206). -/
def Obligations.DetectorStartsWithoutEdge : Prop :=
  (∀ p, (State.reset.block.pin p).detValid = false) ∧
  ∀ (q : Pin) (dbtime : TimeCode) (raw choice : Bool),
    (∀ m, q.mode ≠ m → (q.applyMode m).detValid = false) ∧
    (q.mode = .output ∨ q.mode = .analogOutput →
      q.detTick dbtime raw choice = { q with detValid := false, dbCnt := 0, cfgwin := false }) ∧
    (q.mode = .input ∨ q.mode = .inputPullUp → q.detValid = false →
      q.detTick dbtime raw choice = { q with detLvl := raw, detValid := true, dbCnt := 0, cfgwin := false })

/-- The started detector of an input pin, on any sample. An accepted edge (any change without debounce, or the last
of T differing samples with it) moves the level and latches SOURCE if the pin is masked in, its sense wants the
edge, and no window is open or the draw allows it; an earlier differing sample only counts; a sample equal to
the level starts over; and the window closes (45_interrupt_debounce.md R208, R209). -/
def Obligations.AcceptedEdgeLatches : Prop :=
  ∀ (q : Pin) (dbtime : TimeCode) (raw choice : Bool),
    q.mode = .input ∨ q.mode = .inputPullUp → q.detValid = true →
    (raw ≠ q.detLvl → q.dben = false ∨ max (base dbtime) 1 ≤ q.dbCnt.toNat + 1 →
      q.detTick dbtime raw choice = { q with
        detLvl := raw, dbCnt := 0, cfgwin := false,
        source := q.source || (q.mask && EdgeWanted q.sense raw && (!q.cfgwin || choice)) }) ∧
    (raw ≠ q.detLvl → q.dben = true → q.dbCnt.toNat + 1 < max (base dbtime) 1 →
      q.detTick dbtime raw choice = { q with dbCnt := q.dbCnt + 1, cfgwin := false }) ∧
    (raw = q.detLvl → q.detTick dbtime raw choice = { q with dbCnt := 0, cfgwin := false })

/-- The debounce filter: fewer than T differing samples in a row only count, the T-th moves the level and
latches a wanted edge, and a sample equal to the level starts over, T = max(BASE(DBTIME), 1)
(45_interrupt_debounce.md R207). -/
def Obligations.DebounceNeedsConsecutiveSamples : Prop :=
  ∀ (q : Pin) (dbtime : TimeCode) (samples : List (Bool × Bool)),
    q.mode = .input ∨ q.mode = .inputPullUp → q.detValid = true → q.dben = true → q.cfgwin = false →
    q.dbCnt = 0 → LegalCode dbtime → (∀ x ∈ samples, x.1 = !q.detLvl) →
    (samples.length < max (base dbtime) 1 →
      q.detRun dbtime samples = { q with dbCnt := BitVec.ofNat 16 samples.length } ∧
      ∀ choice, (q.detRun dbtime samples).detTick dbtime q.detLvl choice = q) ∧
    (samples.length = max (base dbtime) 1 →
      q.detRun dbtime samples = { q with
        detLvl := !q.detLvl, source := q.source || (q.mask && EdgeWanted q.sense (!q.detLvl)) })

/-- Whole machine: a tick sets a SOURCE bit only for a started input-mode pin whose sample differs from its
level, that is masked in and wants the edge, and, in a reconfiguration window, only if the draw allows it
(45_interrupt_debounce.md R205 to R210). -/
def Obligations.TickLatchesOnlyWantedEdges : Prop :=
  ∀ (b : Block) (d : Draws) (p : PinNo),
    (b.pin p).source = false → ((b.tick d).pin p).source = true →
    ((b.pin p).mode = .input ∨ (b.pin p).mode = .inputPullUp) ∧ (b.pin p).detValid = true ∧
    d.pinIn.getLsbD p.val ≠ (b.pin p).detLvl ∧ (b.pin p).mask = true ∧
    EdgeWanted (b.pin p).sense (d.pinIn.getLsbD p.val) = true ∧
    ((b.pin p).dben = true → max (base b.dbtime) 1 ≤ (b.pin p).dbCnt.toNat + 1) ∧
    ((b.pin p).cfgwin = true → d.latchChoice.getLsbD p.val = true)

/-- Whole machine: no command sets a SOURCE bit; only the detector's latch does (10_state.md R39). -/
def Obligations.CommandsNeverLatchSource : Prop :=
  ∀ (i : Instr) (s t : State) (p : PinNo),
    exec i s = .next t → (t.block.pin p).source = true → (s.block.pin p).source = true

/-- irq is high exactly while a SOURCE bit is set, and falls with the last one: by READ_SOURCE, by masking its
pin, or by its sense None (45_interrupt_debounce.md R211). -/
def Obligations.IrqIsPendingSource : Prop :=
  (∀ b : Block, b.irq = true ↔ ∃ p, (b.pin p).source = true) ∧
  (∀ s : State, AnswersOk .readSource s
    [BitVec.ofNat 8 (s.block.sourceWord.toNat / 256), BitVec.ofNat 8 (s.block.sourceWord.toNat % 256)]
    fun b' => b'.irq = false) ∧
  (∀ (s : State) (p : PinNo) (pin : Byte), pin.toNat = p.val → (∀ r, r ≠ p → (s.block.pin r).source = false) →
    (AnswersOk (.setMask pin 0) s [] fun b' => b'.irq = false) ∧
    (AnswersOk (.setEdgeSense pin 0) s [] fun b' => b'.irq = false))

/-! ### System -/

/-- READ_REG: InvalidParameter for a reserved address, else the cell's value, and nothing is written
(46_system.md R230). -/
def Obligations.ReadRegPeeksView : Prop :=
  ∀ (addr : Byte) (s : State),
    encode (.readReg addr) = [0x50, addr] ∧
    (0xA0 ≤ addr.toNat ∨ (0x20 ≤ addr.toNat ∧ 6 ≤ (addr.toNat - 0x20) % 8) →
      AnswersError (.readReg addr) s 0x03) ∧
    (addr.toNat < 0xA0 → (0x20 ≤ addr.toNat → (addr.toNat - 0x20) % 8 < 6) →
      AnswersOk (.readReg addr) s [s.block.view addr.toNat] fun b' => b' = s.block)

/-- The register view's one-bit fields: bit i of the high cell is pin 8 + i, of the low cell pin i; the four
pad-control bits are those of the mode (10_state.md R45, R24). -/
def Obligations.ViewShowsOneBitFields : Prop :=
  ∀ (b : Block) (p : PinNo),
    (b.view (0x05 - p.val / 8)).getLsbD (p.val % 8) = (b.pin p).outlvl ∧
    (b.view (0x07 - p.val / 8)).getLsbD (p.val % 8)
      = decide ((b.pin p).mode = .input ∨ (b.pin p).mode = .inputPullUp) ∧
    (b.view (0x09 - p.val / 8)).getLsbD (p.val % 8) = decide ((b.pin p).mode = .analogOutput) ∧
    (b.view (0x0B - p.val / 8)).getLsbD (p.val % 8) = decide ((b.pin p).mode = .inputPullUp) ∧
    (b.view (0x0D - p.val / 8)).getLsbD (p.val % 8) = decide ((b.pin p).mode = .analogOutput) ∧
    (b.view (0x15 - p.val / 8)).getLsbD (p.val % 8) = (b.pin p).mask ∧
    (b.view (0x17 - p.val / 8)).getLsbD (p.val % 8) = (b.pin p).dben ∧
    (b.view (0x19 - p.val / 8)).getLsbD (p.val % 8) = (b.pin p).source

/-- The register view's other cells: two-bit fields, the block-wide registers and the LED block of every pin
(10_state.md R47, R45). -/
def Obligations.ViewShowsOtherFields : Prop :=
  ∀ b : Block,
    (b.view 0x0E).toNat = b.clkdiv.toNat ∧ (b.view 0x0F).toNat = b.dbtime.toNat ∧
    (b.view 0x1A).toNat = 128 * b.kp.en.toNat + 16 * b.kp.rowsM1.toNat + b.kp.colsM1.toNat ∧
    (b.view 0x1B).toNat = b.kp.sleepCode.toNat ∧ (b.view 0x1C).toNat = b.kp.scanCode.toNat ∧
    (b.view 0x1D).toNat = b.kp.debCode.toNat ∧
    256 * (b.view 0x1E).toNat + (b.view 0x1F).toNat = b.kp.keyData.toNat ∧
    ∀ p : PinNo,
      (b.view (p.val / 4)).toNat / 4 ^ (p.val % 4) % 4 = (b.pin p).mode.toBits.toNat ∧
      (b.view (0x10 + p.val / 4)).toNat / 4 ^ (p.val % 4) % 4 = (b.pin p).sense.toBits.toNat ∧
      b.view (0x20 + 8 * p.val) = (b.pin p).intensity ∧
      (b.view (0x20 + 8 * p.val + 1)).toNat
        = 4 * (b.pin p).ledPhase.toBits.toNat + (b.pin p).wave.toBits.toNat ∧
      (b.view (0x20 + 8 * p.val + 2)).toNat = (b.pin p).ton.toNat ∧
      (b.view (0x20 + 8 * p.val + 3)).toNat = (b.pin p).toff.toNat ∧
      (b.view (0x20 + 8 * p.val + 4)).toNat = (b.pin p).trise.toNat ∧
      (b.view (0x20 + 8 * p.val + 5)).toNat = (b.pin p).tfall.toNat

/-- RESET cannot fail and leaves every field at its reset value, the same from any state: that of power-on
(46_system.md R231, R233). -/
def Obligations.ResetRestoresEveryField : Prop :=
  encode .reset = [0x7F] ∧
  ∀ s : State, AnswersOk .reset s [] fun b' =>
    b' = State.reset.block ∧ b'.clkdiv = 0 ∧ b'.dbtime = 0 ∧
    (∀ p, (b'.pin p).mode = .input ∧ (b'.pin p).outlvl = false ∧ (b'.pin p).intensity = 0 ∧ NoWave (b'.pin p) ∧
      (b'.pin p).sense = .none ∧ (b'.pin p).mask = false ∧ (b'.pin p).dben = false ∧ (b'.pin p).source = false ∧
      (b'.pin p).detValid = false ∧ (b'.pin p).detLvl = false ∧ (b'.pin p).dbCnt = 0 ∧ (b'.pin p).cfgwin = false) ∧
    b'.kp.en = false ∧ b'.kp.rowsM1 = 0 ∧ b'.kp.colsM1 = 0 ∧ b'.kp.sleepCode = 0 ∧ b'.kp.scanCode = 0 ∧
    b'.kp.debCode = 0 ∧ b'.kp.keyData = 0 ∧ b'.kp.state = .scan ∧ b'.kp.row = 0 ∧ b'.kp.cnt = 0 ∧
    (∀ c : Fin 8, b'.kp.run.get c = 0) ∧ b'.kp.hits = .zero ∧ b'.kp.hitR = 0 ∧ b'.kp.hitC = 0

/-! ### Whole machine -/

/-- The invariant of 10_state.md R48 holds after reset. -/
def Obligations.InvHoldsAtReset : Prop := State.reset.block.Inv

/-- From every state with the invariant a step completes, and the invariant holds after it (10_state.md
section 9). -/
def Obligations.StepKeepsInv : Prop :=
  ∀ s : State, s.block.Inv → ∃ t, step s = .next t ∧ t.block.Inv

/-- Every command is answered with exactly one response, and a command that fails, whose response is then its
single status byte, changes no state (60_exceptions.md R244). -/
def Obligations.FailedCommandChangesNothing : Prop :=
  ∀ (i : Instr) (s : State), ∃ t status results,
    exec i s = .next t ∧ Answered s t (status :: results) ∧ status.toNat ≤ 5 ∧
    (status ≠ 0x00 → results = [] ∧ t.block = s.block)

/-- Issued twice in a row with no tick between, every command leaves the block as once (20_memory.md section
4): RESET, the configuration commands, the re-arming BLINK and BREATHE, READ_SOURCE and the pure commands. -/
def Obligations.CommandsAreIdempotent : Prop :=
  ∀ (i : Instr) (s t u : State), exec i s = .next t → exec i t = .next u → u.block = t.block

/-- No command reads the responses given or the steps scheduled: its response and the block it leaves depend on
the block, and, for READ_DIGITAL alone, on the draws of the step (10_state.md R49). -/
def Obligations.EarlierResponsesAreNotRead : Prop :=
  ∀ (i : Instr) (s s' : State), s.block = s'.block → (i.mnemonic = .readDigital → s.draws = s'.draws) →
    ∃ t t' r, exec i s = .next t ∧ exec i s' = .next t' ∧ t.block = t'.block ∧
      Answered s t r ∧ Answered s' t' r

/-- Which commands may write a field: every field of the block, the hidden engine state included, has no writers
among the commands but those the rules name (10_state.md sections 2 to 7). -/
def Obligations.FieldsHaveOnlyTheirWriters : Prop :=
  ∀ (i : Instr) (s t : State), exec i s = .next t →
    (i.mnemonic ∉ [.setDivider, .reset] → t.block.clkdiv = s.block.clkdiv) ∧
    (i.mnemonic ∉ [.setGlobalDebounce, .reset] → t.block.dbtime = s.block.dbtime) ∧
    (i.mnemonic ∉ [.configureKeypad, .reset] → t.block.kp = s.block.kp) ∧
    ∀ p,
      (i.mnemonic ∉ [.setMode, .configureKeypad, .reset] → (t.block.pin p).mode = (s.block.pin p).mode) ∧
      (i.mnemonic ∉ [.writeDigital, .setMode, .configureKeypad, .reset] →
        (t.block.pin p).outlvl = (s.block.pin p).outlvl) ∧
      (i.mnemonic ∉ [.setIntensity, .blink, .breathe, .stop, .setMode, .configureKeypad, .reset] →
        SameLed (s.block.pin p) (t.block.pin p)) ∧
      (i.mnemonic ∉ [.setEdgeSense, .reset] → (t.block.pin p).sense = (s.block.pin p).sense) ∧
      (i.mnemonic ∉ [.setMask, .reset] → (t.block.pin p).mask = (s.block.pin p).mask) ∧
      (i.mnemonic ∉ [.enableDebounce, .reset] → (t.block.pin p).dben = (s.block.pin p).dben) ∧
      (i.mnemonic ∉ [.readSource, .setMask, .setEdgeSense, .reset] →
        (t.block.pin p).source = (s.block.pin p).source) ∧
      (i.mnemonic ∉ [.setMode, .configureKeypad, .reset] → (t.block.pin p).detValid = (s.block.pin p).detValid) ∧
      (i.mnemonic ∉ [.setMode, .configureKeypad, .enableDebounce, .reset] →
        (t.block.pin p).dbCnt = (s.block.pin p).dbCnt) ∧
      (i.mnemonic ∉ [.setMode, .configureKeypad, .setEdgeSense, .setMask, .reset] →
        (t.block.pin p).cfgwin = (s.block.pin p).cfgwin) ∧
      (i.mnemonic ∉ [.reset] → (t.block.pin p).detLvl = (s.block.pin p).detLvl)

/-- A command with an operand outside the range 30_encoding.md R82 gives its kind fails, with InvalidPin,
WrongMode or InvalidParameter. -/
def Obligations.OperandsOutOfRangeFail : Prop :=
  ∀ (i : Instr) (s : State), i.wellFormed = false →
    AnswersError i s 0x01 ∨ AnswersError i s 0x02 ∨ AnswersError i s 0x03
end

