-- ==== Sys2Proof/Laws/Codec.lean ====
section
/-! SUPPORT. The codec's small facts (41_timing_codec.md): BASE on the legal codes, the floor code, and what
encode can answer. -/

namespace Sys2Proof.Machine

theorem baseOf_lt_succ : ∀ n < 29, baseOf n < baseOf (n + 1) := by decide

/-- BASE is strictly increasing on the legal codes (41_timing_codec.md R102). -/
theorem baseOf_lt_baseOf {m n : Nat} (h : m < n) (hn : n ≤ 29) : baseOf m < baseOf n := by
  induction n with
  | zero => omega
  | succ n ih =>
    have hs := baseOf_lt_succ n (by omega)
    rcases Nat.lt_or_ge m n with hlt | hge
    · exact (ih hlt (by omega)).trans hs
    · exact (show m = n by omega) ▸ hs

theorem baseOf_le_baseOf {m n : Nat} (h : m ≤ n) (hn : n ≤ 29) : baseOf m ≤ baseOf n := by
  rcases Nat.eq_or_lt_of_le h with rfl | hlt
  · exact le_rfl
  · exact (baseOf_lt_baseOf hlt hn).le

@[simp] theorem baseOf_zero : baseOf 0 = 0 := by decide
@[simp] theorem baseOf_max : baseOf 29 = 32768 := by decide
@[simp] theorem base_zero : base 0#5 = 0 := by decide

/-- No legal code is longer than TICKS_MAX (00_scope.md R6). -/
theorem base_le_ticksMax {c : TimeCode} (h : c.toNat ≤ 29) : base c ≤ 32768 :=
  baseOf_max ▸ baseOf_le_baseOf h le_rfl

/-- A nonzero code lasts at least two ticks (41_timing_codec.md R101). -/
theorem two_le_base {c : TimeCode} (h : c ≠ 0) : 2 ≤ base c := by
  revert h
  revert c
  decide

/-- A code lasts no tick only if it is 0. -/
theorem base_eq_zero_iff {c : TimeCode} : base c = 0 ↔ c = 0 := by
  constructor
  · intro h
    by_contra hc
    have := two_le_base hc
    omega
  · rintro rfl
    exact base_zero

theorem base_lt_base {c d : TimeCode} (h : c.toNat < d.toNat) (hd : d.toNat ≤ 29) : base c < base d :=
  baseOf_lt_baseOf h hd

/-- What the floor code is: the largest k up to m with BASE(k) at most t (41_timing_codec.md R103). -/
theorem floorCode_spec (m t : Nat) :
    floorCode m t ≤ m ∧ baseOf (floorCode m t) ≤ t ∧ ∀ k, floorCode m t < k → k ≤ m → t < baseOf k := by
  induction m with
  | zero => exact ⟨le_rfl, by simp [floorCode], fun k h1 h2 => by simp only [floorCode] at h1; omega⟩
  | succ m ih =>
    obtain ⟨hle, hbase, hgt⟩ := ih
    unfold floorCode
    split
    · next h => exact ⟨le_rfl, h, fun k h1 h2 => absurd (h1.trans_le h2) (lt_irrefl _)⟩
    · next h =>
      refine ⟨by omega, hbase, fun k h1 h2 => ?_⟩
      rcases Nat.eq_or_lt_of_le h2 with rfl | hlt
      · omega
      · exact hgt k h1 (by omega)

/-- ENC_T in terms of the floor code (41_timing_codec.md R103). -/
theorem encTicks_eq (t : Nat) :
    encTicks t = if floorCode 29 t = 29 then 29
      else if baseOf (floorCode 29 t) + baseOf (floorCode 29 t + 1) ≤ 2 * t then floorCode 29 t + 1
      else floorCode 29 t := rfl

/-- ENC_T gives a legal code. -/
theorem encTicks_le (t : Nat) : encTicks t ≤ 29 := by
  have h := (floorCode_spec 29 t).1
  rw [encTicks_eq]
  split
  · omega
  · split <;> omega

theorem durationTicks_eq (ms : Half) (dv : Nat) : durationTicks ms dv = ms.toNat * 4 * 2 ^ dv := by
  simp [durationTicks, Nat.shiftLeft_eq, Nat.pow_add]
  ring

/-- Everything encode can answer (41_timing_codec.md R104). -/
theorem encodeMs_eq_some_iff {ms : Half} {dv : Nat} {c : TimeCode} :
    encodeMs ms dv = some c ↔
      ms.toNat * 4 * 2 ^ dv ≤ 32768 ∧ c.toNat = encTicks (ms.toNat * 4 * 2 ^ dv) := by
  have he := encTicks_le (ms.toNat * 4 * 2 ^ dv)
  have hc := c.isLt
  unfold encodeMs
  rw [durationTicks_eq, Config.ticksMax]
  split
  · simp only [reduceCtorEq, false_iff]
    omega
  · simp only [Option.some.injEq, BitVec.toNat_eq, BitVec.toNat_ofNat]
    omega

theorem encodeMs_eq_none_iff {ms : Half} {dv : Nat} :
    encodeMs ms dv = none ↔ 32768 < ms.toNat * 4 * 2 ^ dv := by
  unfold encodeMs
  rw [durationTicks_eq, Config.ticksMax]
  split <;> simp_all

/-- A code encode gives is legal. -/
theorem encodeMs_legal {ms : Half} {dv : Nat} {c : TimeCode} (h : encodeMs ms dv = some c) : c.toNat ≤ 29 :=
  (encodeMs_eq_some_iff.mp h).2 ▸ encTicks_le _

/-- No duration of 0 ms is out of range, and its code is 0. -/
@[simp] theorem encodeMs_zero (dv : Nat) : encodeMs 0#16 dv = some 0#5 := by
  rw [encodeMs_eq_some_iff]
  simp only [BitVec.toNat_ofNat, Nat.zero_mod, Nat.zero_mul]
  decide

/-- ENC_T gives 0 for no tick only: one tick already rounds to code 1. -/
theorem encTicks_eq_zero_iff {t : Nat} : encTicks t = 0 ↔ t = 0 := by
  constructor
  · intro h
    obtain ⟨-, -, hgt⟩ := floorCode_spec 29 t
    rw [encTicks_eq] at h
    split at h
    · omega
    · split at h
      · omega
      · next h2 =>
        rw [h] at hgt h2
        have h1 := hgt 1 (by omega) (by omega)
        have hb : baseOf 1 = 2 := by decide
        simp only [baseOf_zero, Nat.zero_add, hb] at h1 h2
        omega
  · rintro rfl
    decide

/-- A duration that encodes has code 0 only if it is 0 ms. -/
theorem encodeMs_eq_zero_iff {ms : Half} {dv : Nat} {c : TimeCode} (h : encodeMs ms dv = some c) :
    c = 0#5 ↔ ms = 0#16 := by
  obtain ⟨-, hc⟩ := encodeMs_eq_some_iff.mp h
  rw [BitVec.toNat_eq, BitVec.toNat_eq, hc]
  have hp : 0 < 2 ^ dv := Nat.pow_pos (by decide)
  rw [show BitVec.toNat 0#5 = 0 from rfl, show BitVec.toNat 0#16 = 0 from rfl, encTicks_eq_zero_iff]
  simp only [Nat.mul_eq_zero, OfNat.ofNat_ne_zero, or_false, hp.ne']

end Sys2Proof.Machine
end

