-- ==== Sys2Proof/Laws/State.lean ====
section
/-! SUPPORT. The small lemmas of the state: one per field and update, and what reading a pin gives after each
update of the block. -/

namespace Sys2Proof.Machine

/-! ### Pins of an updated block -/

@[simp] theorem Block.pin_setPin_same (b : Block) (p : PinNo) (q : Pin) : (b.setPin p q).pin p = q := by
  simp [Block.pin, Block.setPin, Vector.get_eq_getElem]

theorem Block.pin_setPin_ne (b : Block) {p r : PinNo} (q : Pin) (h : r ≠ p) : (b.setPin p q).pin r = b.pin r := by
  have : p.val ≠ r.val := fun e => h (Fin.ext e.symm)
  simp [Block.pin, Block.setPin, Vector.get_eq_getElem, this]

theorem Block.pin_setPin (b : Block) (p r : PinNo) (q : Pin) :
    (b.setPin p q).pin r = if r = p then q else b.pin r := by
  split
  · next h => rw [h, Block.pin_setPin_same]
  · next h => exact b.pin_setPin_ne q h

@[simp] theorem Block.setPin_clkdiv (b : Block) (p : PinNo) (q : Pin) : (b.setPin p q).clkdiv = b.clkdiv := rfl
@[simp] theorem Block.setPin_dbtime (b : Block) (p : PinNo) (q : Pin) : (b.setPin p q).dbtime = b.dbtime := rfl
@[simp] theorem Block.setPin_kp (b : Block) (p : PinNo) (q : Pin) : (b.setPin p q).kp = b.kp := rfl
@[simp] theorem Block.owned_setPin (b : Block) (p r : PinNo) (q : Pin) : (b.setPin p q).owned r = b.owned r := rfl

@[simp] theorem Block.pin_mapPins (b : Block) (f : PinNo → Pin → Pin) (p : PinNo) :
    (b.mapPins f).pin p = f p (b.pin p) := by
  simp [Block.pin, Block.mapPins, Vector.get_eq_getElem]

@[simp] theorem Block.mapPins_clkdiv (b : Block) (f : PinNo → Pin → Pin) : (b.mapPins f).clkdiv = b.clkdiv := by
  simp only [Block.mapPins]
@[simp] theorem Block.mapPins_dbtime (b : Block) (f : PinNo → Pin → Pin) : (b.mapPins f).dbtime = b.dbtime := by
  simp only [Block.mapPins]
@[simp] theorem Block.mapPins_kp (b : Block) (f : PinNo → Pin → Pin) : (b.mapPins f).kp = b.kp := by
  simp only [Block.mapPins]

@[simp] theorem Block.pin_withClkdiv (b : Block) (d : BitVec 3) (p : PinNo) :
    ({ b with clkdiv := d } : Block).pin p = b.pin p := rfl
@[simp] theorem Block.pin_withDbtime (b : Block) (c : TimeCode) (p : PinNo) :
    ({ b with dbtime := c } : Block).pin p = b.pin p := rfl
@[simp] theorem Block.pin_withKp (b : Block) (k : Keypad) (p : PinNo) :
    ({ b with kp := k } : Block).pin p = b.pin p := rfl

/-- Two blocks are equal when their registers, their keypad and all their pins are. -/
theorem Block.ext_pins {b b' : Block} (hc : b.clkdiv = b'.clkdiv) (hd : b.dbtime = b'.dbtime) (hk : b.kp = b'.kp)
    (hp : ∀ p, b.pin p = b'.pin p) : b = b' := by
  obtain ⟨c, d, v, k⟩ := b
  obtain ⟨c', d', v', k'⟩ := b'
  simp only at hc hd hk
  subst hc hd hk
  congr 1
  ext1 i hi
  simpa [Block.pin, Vector.get_eq_getElem] using hp ⟨i, hi⟩

/-! ### The reset state -/

@[simp] theorem Block.pin_reset (p : PinNo) : Block.reset.pin p = Pin.reset := by
  simp [Block.pin, Block.reset, Vector.get_eq_getElem]

@[simp] theorem Block.reset_kp : Block.reset.kp = Keypad.reset := rfl
@[simp] theorem Block.reset_clkdiv : Block.reset.clkdiv = 0 := rfl
@[simp] theorem Block.reset_dbtime : Block.reset.dbtime = 0 := rfl
@[simp] theorem State.reset_block : State.reset.block = Block.reset := rfl

@[simp] theorem Keypad.run_reset (c : Fin 8) : Keypad.reset.run.get c = 0 := by
  simp [Keypad.reset, Vector.get_eq_getElem]

/-- The cleared run counters of 44_keypad.md R175 read 0. -/
@[simp] theorem get_replicate_zero (c : Fin 8) : (Vector.replicate 8 (0 : BitVec 16)).get c = 0 := by
  simp [Vector.get_eq_getElem]

/-! ### The shared answers -/

/-- Everything `finish` can do. -/
theorem State.finish_eq_next_iff {s t : State} {b : Block} {rs : List Byte} :
    s.finish b rs = .next t ↔ t = { s with block := b, outbox := s.outbox ++ [0x00 :: rs] } := by
  simp only [State.finish, Host.Outcome.next.injEq, Status.code]
  exact eq_comm

/-- Everything `raise` can do. -/
theorem State.raise_eq_next_iff {s t : State} {st : Status} :
    s.raise st = .next t ↔ t = { s with outbox := s.outbox ++ [[st.code]] } := by
  simp only [State.raise, Host.Outcome.next.injEq]
  exact eq_comm

/-! ### Taking the next step -/

theorem State.fetch_of_empty {s : State} (h : s.inbox = []) :
    s.fetch = (.tick (freeDraws s.drawCount),
      { s with draws := freeDraws s.drawCount, drawCount := s.drawCount + 1 }) := by
  simp [State.fetch, h]

theorem State.fetch_of_cons {s : State} {e : Event} {rest : List Event} (h : s.inbox = e :: rest) :
    s.fetch = (e, { s with inbox := rest, draws := e.draws }) := by
  simp [State.fetch, h]

/-- Fetching leaves the block alone. -/
@[simp] theorem State.fetch_block (s : State) : s.fetch.2.block = s.block := by
  unfold State.fetch
  split <;> rfl

/-! ### Packed bits -/

theorem getLsbD_packBits (n : Nat) (f : Nat → Bool) (i : Nat) :
    (packBits n f).getLsbD i = (decide (i < n) && f i) := by
  induction n with
  | zero => simp [packBits]
  | succ n ih =>
    simp only [packBits, BitVec.getLsbD_cons, ih]
    by_cases h : i = n
    · simp [h]
    · simp only [h, if_false]
      congr 1
      exact decide_eq_decide.mpr (by omega)

end Sys2Proof.Machine
end

