-- ==== Sys2Proof/Laws/Operands.lean ====
section
/-! SUPPORT. What each operand form reads from its byte: when it succeeds, with which value, and when it is out
of range (30_encoding.md R82). -/

namespace Sys2Proof.Machine

theorem pinOperand_eq_none_iff {x : Byte} : pinOperand x = none ↔ 15 < x.toNat := by
  unfold pinOperand
  split <;> simp <;> omega

theorem pinOperand_eq_some_iff {x : Byte} {p : PinNo} : pinOperand x = some p ↔ x.toNat = p.val := by
  unfold pinOperand
  split
  · simp [Fin.ext_iff]
  · simp
    omega

theorem modeOperand_eq_none_iff {x : Byte} : modeOperand x = none ↔ 3 < x.toNat := by
  unfold modeOperand
  split_ifs <;> simp_all [BitVec.toNat_eq]
  omega

theorem modeOperand_eq_some_iff {x : Byte} {m : Mode} : modeOperand x = some m ↔ x.toNat = m.toBits.toNat := by
  cases m <;> unfold modeOperand <;> split_ifs <;> simp_all [BitVec.toNat_eq, Mode.toBits]

theorem edgeOperand_eq_none_iff {x : Byte} : edgeOperand x = none ↔ 3 < x.toNat := by
  unfold edgeOperand
  split_ifs <;> simp_all [BitVec.toNat_eq]
  omega

theorem edgeOperand_eq_some_iff {x : Byte} {e : Sense} : edgeOperand x = some e ↔ x.toNat = e.toBits.toNat := by
  cases e <;> unfold edgeOperand <;> split_ifs <;> simp_all [BitVec.toNat_eq, Sense.toBits]

theorem bitOperand_eq_none_iff {x : Byte} : bitOperand x = none ↔ 1 < x.toNat := by
  unfold bitOperand
  split_ifs <;> simp_all [BitVec.toNat_eq]
  omega

theorem bitOperand_eq_some_iff {x : Byte} {v : Bool} : bitOperand x = some v ↔ x.toNat = v.toNat := by
  cases v <;> unfold bitOperand <;> split_ifs <;> simp_all [BitVec.toNat_eq]

theorem lineOperand_eq_none_iff {x : Byte} : lineOperand x = none ↔ ¬(1 ≤ x.toNat ∧ x.toNat ≤ 8) := by
  unfold lineOperand
  split <;> simp_all [Config.maxLines]

theorem lineOperand_eq_some_iff {x : Byte} {n : BitVec 3} : lineOperand x = some n ↔ n.toNat + 1 = x.toNat := by
  unfold lineOperand
  have hn := n.isLt
  split
  · next h =>
    simp only [Option.some.injEq, BitVec.toNat_eq, BitVec.toNat_ofNat, Config.maxLines] at h ⊢
    omega
  · next h =>
    simp only [reduceCtorEq, false_iff, Config.maxLines] at h ⊢
    omega

theorem dvOperand_eq_none_iff {x : Byte} : dvOperand x = none ↔ 7 < x.toNat := by
  unfold dvOperand
  split <;> simp_all

theorem dvOperand_eq_some_iff {x : Byte} {d : BitVec 3} : dvOperand x = some d ↔ d.toNat = x.toNat := by
  unfold dvOperand
  have hd := d.isLt
  split
  · simp only [Option.some.injEq, BitVec.toNat_eq, BitVec.toNat_ofNat]
    omega
  · simp only [reduceCtorEq, false_iff]
    omega

theorem codeOperand_eq_none_iff {x : Byte} : codeOperand x = none ↔ 29 < x.toNat := by
  unfold codeOperand
  split <;> simp_all [Config.maxCode]

theorem codeOperand_eq_some_iff {x : Byte} {c : TimeCode} :
    codeOperand x = some c ↔ c.toNat = x.toNat ∧ x.toNat ≤ 29 := by
  unfold codeOperand
  have hc := c.isLt
  split
  · next h =>
    simp only [Option.some.injEq, BitVec.toNat_eq, BitVec.toNat_ofNat, Config.maxCode] at h ⊢
    omega
  · next h =>
    simp only [reduceCtorEq, false_iff, Config.maxCode] at h ⊢
    omega

end Sys2Proof.Machine
end

