-- ==== Sys2Proof/Laws/Answers.lean ====
section
/-! SUPPORT. From what a meaning computes to how the command is answered: one lemma for each of the two shared
answers, and the duration check of the commands that encode (41_timing_codec.md R107). -/

namespace Sys2Proof.Machine

/-- A meaning that raises answers the status and leaves the block. -/
theorem answersError_of_raise {i : Instr} {s : State} {st : Status} (h : exec i s = s.raise st) :
    AnswersError i s st.code :=
  ⟨_, h, ⟨rfl, rfl, rfl, rfl⟩, rfl⟩

/-- A meaning that finishes answers OK with its results, on the block it computed. -/
theorem answersOk_of_finish {i : Instr} {s : State} {b : Block} {rs : List Byte} {post : Block → Prop}
    (h : exec i s = s.finish b rs) (hp : post b) : AnswersOk i s rs post :=
  ⟨_, h, ⟨rfl, rfl, rfl, rfl⟩, hp⟩

/-- Writing one pin is a change of that pin alone. -/
theorem onlyPinChanged_setPin (b : Block) (p : PinNo) (q : Pin) : OnlyPinChanged b (b.setPin p q) p :=
  ⟨fun _ h => b.pin_setPin_ne q h, rfl, rfl, rfl⟩

/-- A duration is in range exactly up to `8192 >> CLKDIV` ms (41_timing_codec.md R104). -/
theorem le_maxMs_iff {b : Block} {ms : Half} :
    ms.toNat ≤ b.maxMs ↔ ms.toNat * 4 * 2 ^ b.clkdiv.toNat ≤ 32768 := by
  rw [Block.maxMs, Nat.shiftRight_eq_div_pow, Nat.le_div_iff_mul_le (Nat.pow_pos (by decide))]
  rw [show ms.toNat * 4 * 2 ^ b.clkdiv.toNat = 4 * (ms.toNat * 2 ^ b.clkdiv.toNat) by ring]
  omega

theorem encodeDuration_eq_none_iff {b : Block} {ms : Half} :
    b.encodeDuration ms = none ↔ b.maxMs < ms.toNat := by
  rw [Block.encodeDuration, encodeMs_eq_none_iff, ← not_le, ← le_maxMs_iff, not_le]

/-- A duration in range has a code, and the code is legal. -/
theorem encodeDuration_of_le {b : Block} {ms : Half} (h : ms.toNat ≤ b.maxMs) :
    ∃ c, b.encodeDuration ms = some c ∧ c.toNat ≤ 29 := by
  cases hc : b.encodeDuration ms with
  | none => exact absurd (encodeDuration_eq_none_iff.mp hc) (by omega)
  | some c => exact ⟨c, rfl, encodeMs_legal hc⟩

end Sys2Proof.Machine
end

