-- ==== Sys2Proof/Laws/Assign.lean ====
section
/-! SUPPORT. What a mode transition (42_pin_config.md R122) and the keypad's pin assignment (44_keypad.md R172)
make of a pin. -/

namespace Sys2Proof.Machine

/-- The current mode again changes nothing. -/
theorem Pin.applyMode_same {q : Pin} {m : Mode} (h : q.mode = m) : q.applyMode m = q := if_pos h.symm

/-- The pin is in the mode applied. -/
@[simp] theorem Pin.applyMode_mode (q : Pin) (m : Mode) : (q.applyMode m).mode = m := by
  unfold Pin.applyMode
  split
  · next h => exact h.symm
  · rfl

/-- A transition from a mode that is not AnalogOutput keeps the LED profile. -/
theorem Pin.applyMode_of_ne {q : Pin} {m : Mode} (h : q.mode ≠ m) (ha : q.mode ≠ .analogOutput) :
    q.applyMode m = { q with outlvl := false, detValid := false, dbCnt := 0, cfgwin := false, mode := m } := by
  rw [Pin.applyMode, if_neg h.symm, if_neg ha]

/-- A transition out of AnalogOutput clears the LED profile. -/
theorem Pin.applyMode_of_analog {q : Pin} {m : Mode} (h : q.mode ≠ m) (ha : q.mode = .analogOutput) :
    q.applyMode m = { q.clearProfile with
      outlvl := false, detValid := false, dbCnt := 0, cfgwin := false, mode := m } := by
  rw [Pin.applyMode, if_neg h.symm, if_pos ha]

/-- No transition touches the interrupt configuration, the latched bit or the detector level. -/
theorem Pin.applyMode_kept (q : Pin) (m : Mode) :
    (q.applyMode m).sense = q.sense ∧ (q.applyMode m).mask = q.mask ∧ (q.applyMode m).dben = q.dben ∧
    (q.applyMode m).source = q.source ∧ (q.applyMode m).detLvl = q.detLvl := by
  unfold Pin.applyMode
  split
  · exact ⟨rfl, rfl, rfl, rfl, rfl⟩
  · split <;> exact ⟨rfl, rfl, rfl, rfl, rfl⟩

/-- A transition applied twice is applied once. -/
theorem Pin.applyMode_twice (q : Pin) (m : Mode) : (q.applyMode m).applyMode m = q.applyMode m :=
  Pin.applyMode_same (q.applyMode_mode m)

/-- A pin after CONFIGURE_KEYPAD. -/
theorem Block.pin_assignKeypad (b : Block) (new : Keypad) (p : PinNo) :
    (b.assignKeypad new).pin p = b.kp.clearTaken new p (b.kp.assignPin new p (b.pin p)) := by
  show (b.mapPins fun p q => b.kp.clearTaken new p (b.kp.assignPin new p q)).pin p = _
  simp

@[simp] theorem Block.assignKeypad_kp (b : Block) (new : Keypad) : (b.assignKeypad new).kp = new := by
  simp only [Block.assignKeypad]
@[simp] theorem Block.assignKeypad_clkdiv (b : Block) (new : Keypad) : (b.assignKeypad new).clkdiv = b.clkdiv := by
  simp only [Block.assignKeypad, Block.mapPins_clkdiv]
@[simp] theorem Block.assignKeypad_dbtime (b : Block) (new : Keypad) : (b.assignKeypad new).dbtime = b.dbtime := by
  simp only [Block.assignKeypad, Block.mapPins_dbtime]

/-- Everything CONFIGURE_KEYPAD can do to a pin: a role's mode is applied, with OUTLVL cleared where the keypad takes
the pin; or the pin is as before. -/
theorem Keypad.clearTaken_assignPin_cases (old new : Keypad) (p : PinNo) (q : Pin) :
    (new.ownsRow p = true ∧ old.owns p = true ∧
      old.clearTaken new p (old.assignPin new p q) = q.applyMode .output) ∨
    (new.ownsRow p = true ∧ old.owns p = false ∧
      old.clearTaken new p (old.assignPin new p q) = { q.applyMode .output with outlvl := false }) ∨
    (new.ownsRow p = false ∧ new.ownsCol p = true ∧ old.owns p = true ∧
      old.clearTaken new p (old.assignPin new p q) = q.applyMode .inputPullUp) ∨
    (new.ownsRow p = false ∧ new.ownsCol p = true ∧ old.owns p = false ∧
      old.clearTaken new p (old.assignPin new p q) = { q.applyMode .inputPullUp with outlvl := false }) ∨
    (new.ownsRow p = false ∧ new.ownsCol p = false ∧ old.owns p = true ∧
      old.clearTaken new p (old.assignPin new p q) = q.applyMode .input) ∨
    (new.ownsRow p = false ∧ new.ownsCol p = false ∧ old.owns p = false ∧
      old.clearTaken new p (old.assignPin new p q) = q) := by
  unfold Keypad.assignPin Keypad.clearTaken
  have hn : new.owns p = (new.ownsRow p || new.ownsCol p) := rfl
  rw [hn]
  cases new.ownsRow p <;> cases new.ownsCol p <;> cases old.owns p <;> simp

/-- CONFIGURE_KEYPAD touches neither the interrupt configuration nor the latched bit nor the detector level. -/
theorem Keypad.clearTaken_assignPin_kept (old new : Keypad) (p : PinNo) (q : Pin) :
    let q' := old.clearTaken new p (old.assignPin new p q)
    q'.sense = q.sense ∧ q'.mask = q.mask ∧ q'.dben = q.dben ∧ q'.source = q.source ∧ q'.detLvl = q.detLvl := by
  rcases old.clearTaken_assignPin_cases new p q with ⟨_, _, h⟩ | ⟨_, _, h⟩ | ⟨_, _, _, h⟩ | ⟨_, _, _, h⟩ | ⟨_, _, _, h⟩ | ⟨_, _, _, h⟩
  all_goals rw [h]
  all_goals first | exact q.applyMode_kept _ | exact ⟨rfl, rfl, rfl, rfl, rfl⟩

end Sys2Proof.Machine
end

