-- ==== Sys2Proof/Laws/Decode.lean ====
section
/-! SUPPORT. The small facts of the encoding tables (30_encoding.md R81, R84). -/

namespace Sys2Proof

/-- The opcode map has no two rows with one opcode. -/
theorem opcodes_distinct : allMnemonics.Pairwise fun m n => opcodeOf m ≠ opcodeOf n := by decide

/-- The rows are all the mnemonics. -/
theorem mem_allMnemonics (m : Mnemonic) : m ∈ allMnemonics := by cases m <;> decide

/-- An opcode selects the row it is written in. -/
@[simp] theorem mnemonicOf_opcodeOf (m : Mnemonic) : mnemonicOf (opcodeOf m) = some m := by cases m <;> decide

/-- A row that an opcode selects has that opcode. -/
theorem opcodeOf_of_mnemonicOf {op : Byte} {m : Mnemonic} (h : mnemonicOf op = some m) : opcodeOf m = op := by
  simpa using List.find?_some h

/-- The value of an assembled u16 (30_encoding.md R82). -/
theorem toNat_be16 (hi lo : Byte) : (be16 hi lo).toNat = hi.toNat * 256 + lo.toNat := by
  have h : (be16 hi lo).toNat = hi.toNat <<< 8 ||| lo.toNat := BitVec.toNat_append hi lo
  have hl : lo.toNat < 2 ^ 8 := lo.isLt
  rw [h, ← Nat.shiftLeft_add_eq_or_of_lt hl, Nat.shiftLeft_eq]

/-- The two bytes of a u16 as numbers. -/
theorem bytes16_eq (w : Half) : bytes16 w = [BitVec.ofNat 8 (w.toNat / 256), BitVec.ofNat 8 (w.toNat % 256)] := by
  simp only [bytes16, List.cons.injEq, and_true]
  constructor <;> apply BitVec.eq_of_toNat_eq <;> simp [BitVec.extractLsb'_toNat, Nat.shiftRight_eq_div_pow]

/-- A u16 is what its two bytes assemble to (20_memory.md R61). -/
@[simp] theorem be16_of_bytes16 (w : Half) : be16 (w.extractLsb' 8 8) (w.extractLsb' 0 8) = w := by
  apply BitVec.eq_of_toNat_eq
  have hw := w.isLt
  simp only [toNat_be16, BitVec.extractLsb'_toNat, Nat.shiftRight_eq_div_pow]
  omega

/-- The two bytes of an assembled u16 are the bytes it was made of. -/
@[simp] theorem bytes16_be16 (hi lo : Byte) : bytes16 (be16 hi lo) = [hi, lo] := by
  have hh := hi.isLt
  have hl := lo.isLt
  rw [bytes16_eq, toNat_be16]
  simp only [List.cons.injEq, and_true]
  constructor <;> apply BitVec.eq_of_toNat_eq <;> simp only [BitVec.toNat_ofNat] <;> omega

/-- The decoder on a frame whose opcode selects a row. -/
theorem decode_of_row {op : Byte} {m : Mnemonic} (h : mnemonicOf op = some m) (args : List Byte) :
    decode (op :: args) =
      match readOperands m args with
      | none => .error (.wrongLength m (args.length + 1))
      | some i => .ok i := by
  simp only [decode, h] <;> rfl

/-- The decoder on a frame with a reserved opcode. -/
theorem decode_of_reserved {op : Byte} (h : mnemonicOf op = none) (args : List Byte) :
    decode (op :: args) = .error (.reservedOpcode op) := by
  simp only [decode, h]

end Sys2Proof
end

