-- ==== Sys2Proof/Laws/Detector.lean ====
section
/-! SUPPORT. What the edge detector can do (45_interrupt_debounce.md R205 to R210): which fields a detector tick
writes, when it latches, and the bound of its count. -/

namespace Sys2Proof.Machine

/-- An edge is admitted as the sense says (45_interrupt_debounce.md R208). -/
theorem latches_classify {q : Pin} {new choice : Bool} :
    q.latches (classify q.detLvl new) choice =
      (decide (new ≠ q.detLvl) && q.mask && EdgeWanted q.sense new && (!q.cfgwin || choice)) := by
  have hs : ∀ (s : Sense) (old new : Bool),
      (match classify old new with | none => false | some e => s.admits e) =
        (decide (new ≠ old) && EdgeWanted s new) := by
    intro s old new
    cases s <;> cases old <;> cases new <;> rfl
  have hq := hs q.sense q.detLvl new
  unfold Pin.latches
  cases hc : classify q.detLvl new with
  | none =>
    rw [hc] at hq
    simp only [Bool.false_eq, Bool.and_eq_false_iff] at hq
    rcases hq with h | h <;> simp [h]
  | some e =>
    rw [hc] at hq
    simp only [hq]
    cases decide (new ≠ q.detLvl) <;> cases q.mask <;> simp

/-- What the detector computes on a sample: a level, a count, and the edge of the two levels, if any. -/
theorem Pin.detect_cases (q : Pin) (dbtime : TimeCode) (raw : Bool) :
    ∃ cnt e, q.detect dbtime raw = (cnt, e) ∧
      (∃ lvl n, cnt = { q with detLvl := lvl, detValid := true, dbCnt := n }) ∧
      (e = none ∨ (e = classify q.detLvl raw ∧ q.detValid = true ∧
        (q.dben = true → debounceLength dbtime ≤ q.dbCnt.toNat + 1))) ∧
      (LegalCode dbtime → cnt.dbCnt.toNat < 32768) := by
  unfold Pin.detect
  split
  · exact ⟨_, _, rfl, ⟨_, _, rfl⟩, .inl rfl, fun _ => by simp⟩
  · next hv =>
    rw [Bool.not_eq_false] at hv
    split
    · next hd => exact ⟨_, _, rfl, ⟨raw, 0, by rw [← hv]⟩, .inr ⟨rfl, hv, by simp [hd]⟩, fun _ => by simp⟩
    · split
      · exact ⟨_, _, rfl, ⟨q.detLvl, 0, by rw [← hv]⟩, .inl rfl, fun _ => by simp⟩
      · split
        · next hT => exact ⟨_, _, rfl, ⟨raw, 0, by rw [← hv]⟩, .inr ⟨rfl, hv, fun _ => hT⟩, fun _ => by simp⟩
        · next hT =>
          refine ⟨_, _, rfl, ⟨q.detLvl, _, by rw [← hv]⟩, .inl rfl, fun hl => ?_⟩
          have hb := base_le_ticksMax hl
          simp only [debounceLength, not_le] at hT
          simp only [BitVec.toNat_ofNat]
          omega

/-- Everything a detector tick can do to a pin: it writes the detector state, SOURCE and cfgwin; it never clears
SOURCE; and what it latches is a wanted edge of a started, masked-in input pin. -/
theorem Pin.detTick_cases (q : Pin) (dbtime : TimeCode) (raw choice : Bool) :
    ∃ v l n src, q.detTick dbtime raw choice =
        { q with detValid := v, detLvl := l, dbCnt := n, source := src, cfgwin := false } ∧
      (LegalCode dbtime → n.toNat < 32768) ∧ (q.source = true → src = true) ∧
      (q.source = false → src = true →
        q.mode.isInput = true ∧ q.detValid = true ∧ raw ≠ q.detLvl ∧ q.mask = true ∧
        EdgeWanted q.sense raw = true ∧ (q.dben = true → debounceLength dbtime ≤ q.dbCnt.toNat + 1) ∧
        (q.cfgwin = true → choice = true)) := by
  unfold Pin.detTick
  split
  · next hi =>
    obtain ⟨c, e, heq, ⟨l, n, rfl⟩, hedge, hb⟩ := q.detect_cases dbtime raw
    rw [heq]
    refine ⟨true, l, n, q.source || q.latches e choice, rfl, hb, fun h => by simp [h], fun h hs => ?_⟩
    rw [h, Bool.false_or] at hs
    rcases hedge with rfl | ⟨rfl, hv, hd⟩
    · simp [Pin.latches] at hs
    · rw [latches_classify] at hs
      simp only [Bool.and_eq_true, Bool.or_eq_true, decide_eq_true_eq, Bool.not_eq_true'] at hs
      obtain ⟨⟨⟨h1, h2⟩, h3⟩, h4⟩ := hs
      exact ⟨hi, hv, h1, h2, h3, hd, fun h => h4.resolve_left (by simp [h])⟩
  · exact ⟨false, q.detLvl, 0, q.source, rfl, fun _ => by simp, id, fun h h' => by rw [h] at h'; cases h'⟩

end Sys2Proof.Machine
end

