-- ==== Sys2Proof/Laws/Led.lean ====
section
/-! SUPPORT. What the LED engine can do (43_led_driver.md R141, R143, R148): which fields it writes, the phase it
enters, and, under the invariant, that it always has a next phase. -/

namespace Sys2Proof.Machine

theorem Pin.len_eq_zero_iff {q : Pin} {ph : Phase} : q.len ph = 0 ↔ q.phaseCode ph = 0 := base_eq_zero_iff

/-- Settling moves the phase and nothing else, and ends in a phase that has a length. -/
theorem Pin.settle_eq_some {n : Nat} {q q' : Pin} (h : q.settle n = some q') :
    (∃ ph, q' = { q with ledPhase := ph }) ∧ 0 < q'.len q'.ledPhase := by
  induction n generalizing q with
  | zero =>
    unfold Pin.settle at h
    split at h
    · cases h
    · next hl =>
      cases h
      exact ⟨⟨q'.ledPhase, rfl⟩, by omega⟩
  | succ n ih =>
    unfold Pin.settle at h
    split at h
    · split at h
      · cases h
      · obtain ⟨⟨ph, rfl⟩, hl⟩ := ih h
        exact ⟨⟨ph, rfl⟩, hl⟩
    · next hl =>
      cases h
      exact ⟨⟨q'.ledPhase, rfl⟩, by omega⟩

/-- Everything an LED tick can do to a pin: it moves the phase and the count. -/
theorem Pin.ledTick_eq_some {q q' : Pin} (h : q.ledTick = some q') :
    ∃ ph cnt, q' = { q with ledPhase := ph, ledCnt := cnt } := by
  unfold Pin.ledTick at h
  split at h
  · cases h
    exact ⟨q.ledPhase, q.ledCnt, rfl⟩
  · split at h
    · split at h
      · cases h
      · obtain ⟨⟨ph, rfl⟩, -⟩ := Pin.settle_eq_some h
        exact ⟨ph, 0, rfl⟩
    · cases h
      exact ⟨q.ledPhase, _, rfl⟩

/-- A blink that has some length, entered at a phase of its own (43_led_driver.md R143). -/
theorem Pin.enterPhase_blink {q : Pin} (hw : q.wave = .blink) (hc : ¬(q.ton = 0 ∧ q.toff = 0)) :
    q.enterPhase .on = some { q with ledPhase := if q.ton = 0 then .off else .on, ledCnt := 0 } ∧
    q.enterPhase .off = some { q with ledPhase := if q.toff = 0 then .on else .off, ledCnt := 0 } := by
  by_cases hn : q.ton = 0 <;> by_cases hf : q.toff = 0 <;>
    simp_all [Pin.enterPhase, Pin.settle, Pin.len, Pin.phaseCode, base_eq_zero_iff, nextPhase]

/-- A breathe, entered at any phase (43_led_driver.md R143). -/
theorem Pin.enterPhase_breathe {q : Pin} (hw : q.wave = .breathe) (hr : q.trise ≠ 0) (hf : q.tfall ≠ 0) :
    q.enterPhase .rise = some { q with ledPhase := .rise, ledCnt := 0 } ∧
    q.enterPhase .on = some { q with ledPhase := if q.ton = 0 then .fall else .on, ledCnt := 0 } ∧
    q.enterPhase .fall = some { q with ledPhase := .fall, ledCnt := 0 } ∧
    q.enterPhase .off = some { q with ledPhase := if q.toff = 0 then .rise else .off, ledCnt := 0 } := by
  by_cases hn : q.ton = 0 <;> by_cases ho : q.toff = 0 <;>
    simp_all [Pin.enterPhase, Pin.settle, Pin.len, Pin.phaseCode, base_eq_zero_iff, nextPhase]

/-- A phase that has a length is one of the waveform's own. -/
theorem Pin.phase_of_inv {q : Pin} (h : q.Inv) :
    (q.wave = .blink → q.ledPhase = .on ∨ q.ledPhase = .off) := by
  intro hw
  obtain ⟨-, -, -, ⟨-, hb, -⟩, -, -, ⟨-, he⟩, -⟩ := h
  obtain ⟨hr, hf, -⟩ := hb hw
  have hl := he (by simp [hw])
  cases hp : q.ledPhase <;> simp_all [Pin.len, Pin.phaseCode]

/-- Within a phase the count goes up by one (43_led_driver.md R148). -/
theorem Pin.ledTick_within {q : Pin} (hm : q.mode = .analogOutput) (hw : q.wave ≠ .none)
    (hl : q.ledCnt.toNat + 1 < q.len q.ledPhase) :
    q.ledTick = some { q with ledCnt := BitVec.ofNat 16 (q.ledCnt.toNat + 1) } := by
  simp [Pin.ledTick, hm, hw, hl]

/-- At the end of a phase the next one is entered (43_led_driver.md R148). -/
theorem Pin.ledTick_end {q : Pin} {ph : Phase} (hm : q.mode = .analogOutput) (hw : q.wave ≠ .none)
    (hl : q.len q.ledPhase ≤ q.ledCnt.toNat + 1) (hn : nextPhase q.wave q.ledPhase = some ph) :
    q.ledTick = q.enterPhase ph := by
  simp [Pin.ledTick, hm, hw, hl, hn]

/-- A phase entered has a length, so the engine is inside it. -/
theorem Pin.enterPhase_inPhase {q q' : Pin} {ph : Phase} (hw : q.wave ≠ .none) (h : q.enterPhase ph = some q') :
    q'.EngineInPhase := by
  obtain ⟨⟨ph', rfl⟩, hl⟩ := Pin.settle_eq_some h
  exact ⟨fun h' => absurd h' hw, fun _ => hl⟩

/-- Under the invariant an LED tick completes, and leaves the engine inside a phase (10_state.md R48 item
10). -/
theorem Pin.ledTick_of_inv {q : Pin} (h : q.Inv) : ∃ q', q.ledTick = some q' ∧ q'.EngineInPhase := by
  have hph := Pin.phase_of_inv h
  obtain ⟨hwm, -, -, ⟨-, hb, hbr⟩, hcl, -, ⟨he0, he⟩, -⟩ := h
  by_cases hr : q.mode ≠ .analogOutput ∨ q.wave = .none
  · exact ⟨q, by simp [Pin.ledTick, hr], he0, he⟩
  · obtain ⟨hm, hw⟩ := not_or.mp hr
    rw [not_not] at hm
    have hin := he hw
    rcases Nat.lt_or_ge (q.ledCnt.toNat + 1) (q.len q.ledPhase) with hl | hl
    · have hcnt : (q.ledCnt.toNat + 1) % 65536 ≤ q.ledCnt.toNat + 1 := Nat.mod_le _ _
      refine ⟨_, Pin.ledTick_within hm hw hl, fun h' => absurd h' hw, fun _ => ?_⟩
      simpa [Pin.len, Pin.phaseCode] using lt_of_le_of_lt hcnt hl
    · cases hwv : q.wave with
      | none => exact absurd hwv hw
      | blink =>
        obtain ⟨-, -, hne⟩ := hb hwv
        obtain ⟨e1, e2⟩ := Pin.enterPhase_blink hwv hne
        rcases hph hwv with hp | hp
        · rw [Pin.ledTick_end hm hw hl (ph := .off) (by simp [hwv, hp, nextPhase]), e2]
          exact ⟨_, rfl, Pin.enterPhase_inPhase hw e2⟩
        · rw [Pin.ledTick_end hm hw hl (ph := .on) (by simp [hwv, hp, nextPhase]), e1]
          exact ⟨_, rfl, Pin.enterPhase_inPhase hw e1⟩
      | breathe =>
        obtain ⟨h1, h2⟩ := hbr hwv
        obtain ⟨e1, e2, e3, e4⟩ := Pin.enterPhase_breathe hwv h1 h2
        cases hp : q.ledPhase with
        | rise =>
          rw [Pin.ledTick_end hm hw hl (ph := .on) (by simp [hwv, hp, nextPhase]), e2]
          exact ⟨_, rfl, Pin.enterPhase_inPhase hw e2⟩
        | on =>
          rw [Pin.ledTick_end hm hw hl (ph := .fall) (by simp [hwv, hp, nextPhase]), e3]
          exact ⟨_, rfl, Pin.enterPhase_inPhase hw e3⟩
        | fall =>
          rw [Pin.ledTick_end hm hw hl (ph := .off) (by simp [hwv, hp, nextPhase]), e4]
          exact ⟨_, rfl, Pin.enterPhase_inPhase hw e4⟩
        | off =>
          rw [Pin.ledTick_end hm hw hl (ph := .rise) (by simp [hwv, hp, nextPhase]), e1]
          exact ⟨_, rfl, Pin.enterPhase_inPhase hw e1⟩

end Sys2Proof.Machine
end

