-- ==== Sys2Proof/Laws/Exec.lean ====
section
/-! SUPPORT. Everything a command can do, said once: it raises a status other than OK and IllegalCommand, or it
finishes with a block that `Instr.Effect` describes. Whole-machine claims go through this lemma and need not
unfold a meaning. -/

namespace Sys2Proof.Machine

/-- The block a command that does not fail makes of a block, with the operands it read. -/
def Effect (i : Instr) (b b' : Block) : Prop :=
  match i with
  | .setMode pin mode => ∃ p m, pinOperand pin = some p ∧ b.owned p = false ∧ modeOperand mode = some m ∧
      b' = b.setPin p ((b.pin p).applyMode m)
  | .writeDigital pin level => ∃ p v, pinOperand pin = some p ∧ (b.pin p).mode = .output ∧ b.owned p = false ∧
      bitOperand level = some v ∧ b' = b.setPin p { b.pin p with outlvl := v }
  | .readDigital pin => ∃ p, pinOperand pin = some p ∧ (b.pin p).mode ≠ .analogOutput ∧ b' = b
  | .setIntensity pin value => ∃ p, pinOperand pin = some p ∧ (b.pin p).mode = .analogOutput ∧
      b' = b.setPin p { (b.pin p).clearWave with intensity := value }
  | .blink pin onMs offMs => ∃ p cOn cOff, pinOperand pin = some p ∧ (b.pin p).mode = .analogOutput ∧
      b.encodeDuration onMs = some cOn ∧ b.encodeDuration offMs = some cOff ∧ ¬(cOn = 0 ∧ cOff = 0) ∧
      b' = b.setPin p { b.pin p with
        wave := .blink, ton := cOn, toff := cOff, trise := 0, tfall := 0,
        ledPhase := if cOn = 0 then .off else .on, ledCnt := 0 }
  | .breathe pin onMs offMs riseMs fallMs => ∃ p cOn cOff cRise cFall,
      pinOperand pin = some p ∧ (b.pin p).mode = .analogOutput ∧ ¬(riseMs = 0 ∨ fallMs = 0) ∧
      b.encodeDuration onMs = some cOn ∧ b.encodeDuration offMs = some cOff ∧
      b.encodeDuration riseMs = some cRise ∧ b.encodeDuration fallMs = some cFall ∧
      b' = b.setPin p { b.pin p with
        wave := .breathe, ton := cOn, toff := cOff, trise := cRise, tfall := cFall, ledPhase := .rise, ledCnt := 0 }
  | .stop pin => ∃ p, pinOperand pin = some p ∧ (b.pin p).mode = .analogOutput ∧
      b' = b.setPin p (b.pin p).clearWave
  | .configureKeypad rows cols sleepMs scanMs debMs => ∃ r c cSleep cScan cDeb,
      lineOperand rows = some r ∧ lineOperand cols = some c ∧ b.encodeDuration sleepMs = some cSleep ∧
      b.encodeDuration scanMs = some cScan ∧ b.encodeDuration debMs = some cDeb ∧ cDeb.toNat < cScan.toNat ∧
      b' = b.assignKeypad (Keypad.configured r c cSleep cScan cDeb)
  | .readKeyData => b' = b
  | .decodeRow _ => b' = b
  | .decodeCol _ => b' = b
  | .setEdgeSense pin edge => ∃ p e, pinOperand pin = some p ∧ edgeOperand edge = some e ∧
      b' = b.setPin p { (b.pin p).openWindow with
        sense := e, source := if e = .none then false else (b.pin p).source }
  | .setMask pin enabled => ∃ p v, pinOperand pin = some p ∧ bitOperand enabled = some v ∧
      b' = b.setPin p { (b.pin p).openWindow with mask := v, source := if v then (b.pin p).source else false }
  | .setGlobalDebounce ms => ∃ c, b.encodeDuration ms = some c ∧ b' = { b with dbtime := c }
  | .enableDebounce pin enabled => ∃ p v, pinOperand pin = some p ∧ bitOperand enabled = some v ∧
      b' = b.setPin p (if (b.pin p).dben = v then b.pin p else { b.pin p with dben := v, dbCnt := 0 })
  | .readSource => b' = b.mapPins fun _ q => { q with source := false }
  | .codecEncode _ _ => b' = b
  | .codecDecode _ _ => b' = b
  | .setDivider dv => ∃ d, dvOperand dv = some d ∧ b' = { b with clkdiv := d }
  | .readReg addr => reservedAddr addr.toNat = false ∧ b' = b
  | .reset => b' = Block.reset

/-- The two ways in which a meaning answers. -/
inductive Answer (i : Instr) (s : State) : Result → Prop where
  | raised (st : Status) (h : st ≠ .ok ∧ st ≠ .illegalCommand) : Answer i s (s.raise st)
  | finished (b : Block) (rs : List Byte) (h : Effect i s.block b) : Answer i s (s.finish b rs)

/-- Everything a command can do. -/
theorem exec_answer (i : Instr) (s : State) : Answer i s (exec i s) := by
  have bad : ∀ {st : Status}, st ≠ .ok → st ≠ .illegalCommand → Answer i s (s.raise st) :=
    fun h1 h2 => .raised _ ⟨h1, h2⟩
  cases i with
  | setMode pin mode =>
    simp only [exec, execSetMode]
    split
    · exact bad (by decide) (by decide)
    · next p hp =>
      split
      · exact bad (by decide) (by decide)
      · next ho =>
        split
        · exact bad (by decide) (by decide)
        · next m hm => exact .finished _ _ ⟨p, m, hp, by simpa using ho, hm, rfl⟩
  | writeDigital pin level =>
    simp only [exec, execWriteDigital]
    split
    · exact bad (by decide) (by decide)
    · next p hp =>
      split
      · exact bad (by decide) (by decide)
      · next ho =>
        split
        · exact bad (by decide) (by decide)
        · next v hv =>
          rw [not_or, not_not] at ho
          exact .finished _ _ ⟨p, v, hp, ho.1, by simpa using ho.2, hv, rfl⟩
  | readDigital pin =>
    simp only [exec, execReadDigital]
    split
    · exact bad (by decide) (by decide)
    · next p hp =>
      split
      · exact bad (by decide) (by decide)
      · next v hv =>
        refine .finished _ _ ⟨p, hp, fun hm => ?_, rfl⟩
        simp [State.digitalLevel, hm] at hv
  | setIntensity pin value =>
    simp only [exec, execSetIntensity]
    split
    · exact bad (by decide) (by decide)
    · next p hp =>
      split
      · exact bad (by decide) (by decide)
      · next hm => exact .finished _ _ ⟨p, hp, not_not.mp hm, rfl⟩
  | blink pin onMs offMs =>
    simp only [exec, execBlink]
    split
    · exact bad (by decide) (by decide)
    · next p hp =>
      split
      · exact bad (by decide) (by decide)
      · next hm =>
        split
        · exact bad (by decide) (by decide)
        · next cOn h1 =>
          split
          · exact bad (by decide) (by decide)
          · next cOff h2 =>
            split
            · exact bad (by decide) (by decide)
            · next hc =>
              rw [(Pin.enterPhase_blink rfl hc).1]
              exact .finished _ _ ⟨p, cOn, cOff, hp, not_not.mp hm, h1, h2, hc, rfl⟩
  | breathe pin onMs offMs riseMs fallMs =>
    simp only [exec, execBreathe]
    split
    · exact bad (by decide) (by decide)
    · next p hp =>
      split
      · exact bad (by decide) (by decide)
      · next hm =>
        split
        · exact bad (by decide) (by decide)
        · next hz =>
          split
          · next c1 c2 c3 c4 h1 h2 h3 h4 =>
            exact .finished _ _ ⟨p, c1, c2, c3, c4, hp, not_not.mp hm, hz, h1, h2, h3, h4, rfl⟩
          · exact bad (by decide) (by decide)
  | stop pin =>
    simp only [exec, execStop]
    split
    · exact bad (by decide) (by decide)
    · next p hp =>
      split
      · exact bad (by decide) (by decide)
      · next hm => exact .finished _ _ ⟨p, hp, not_not.mp hm, rfl⟩
  | configureKeypad rows cols sleepMs scanMs debMs =>
    simp only [exec, execConfigureKeypad]
    split
    · next r c hr hc =>
      split
      · next c1 c2 c3 h1 h2 h3 =>
        split
        · exact bad (by decide) (by decide)
        · next hlt => exact .finished _ _ ⟨r, c, c1, c2, c3, hr, hc, h1, h2, h3, not_le.mp hlt, rfl⟩
      · exact bad (by decide) (by decide)
    · exact bad (by decide) (by decide)
  | readKeyData => exact .finished _ _ rfl
  | decodeRow raw =>
    simp only [exec, execDecodeRow, State.decodeLine]
    split
    · exact bad (by decide) (by decide)
    · exact .finished _ _ rfl
  | decodeCol raw =>
    simp only [exec, execDecodeCol, State.decodeLine]
    split
    · exact bad (by decide) (by decide)
    · exact .finished _ _ rfl
  | setEdgeSense pin edge =>
    simp only [exec, execSetEdgeSense]
    split
    · exact bad (by decide) (by decide)
    · next p hp =>
      split
      · exact bad (by decide) (by decide)
      · next e he => exact .finished _ _ ⟨p, e, hp, he, rfl⟩
  | setMask pin enabled =>
    simp only [exec, execSetMask]
    split
    · exact bad (by decide) (by decide)
    · next p hp =>
      split
      · exact bad (by decide) (by decide)
      · next v hv => exact .finished _ _ ⟨p, v, hp, hv, rfl⟩
  | setGlobalDebounce ms =>
    simp only [exec, execSetGlobalDebounce]
    split
    · exact bad (by decide) (by decide)
    · next c hc => exact .finished _ _ ⟨c, hc, rfl⟩
  | enableDebounce pin enabled =>
    simp only [exec, execEnableDebounce]
    split
    · exact bad (by decide) (by decide)
    · next p hp =>
      split
      · exact bad (by decide) (by decide)
      · next v hv => exact .finished _ _ ⟨p, v, hp, hv, rfl⟩
  | readSource => exact .finished _ _ rfl
  | codecEncode ms dv =>
    simp only [exec, execCodecEncode]
    split
    · exact bad (by decide) (by decide)
    · split
      · exact bad (by decide) (by decide)
      · exact .finished _ _ rfl
  | codecDecode code dv =>
    simp only [exec, execCodecDecode]
    split
    · exact bad (by decide) (by decide)
    · split
      · exact bad (by decide) (by decide)
      · exact .finished _ _ rfl
  | setDivider dv =>
    simp only [exec, execSetDivider]
    split
    · exact bad (by decide) (by decide)
    · next d hd => exact .finished _ _ ⟨d, hd, rfl⟩
  | readReg addr =>
    simp only [exec, execReadReg]
    split
    · exact bad (by decide) (by decide)
    · next h => exact .finished _ _ ⟨by simpa using h, rfl⟩
  | reset => exact .finished _ _ rfl

/-- A command always goes to a next state, whose block is as before or as `Effect` says. -/
theorem exec_block {i : Instr} {s t : State} (h : exec i s = .next t) :
    t.block = s.block ∨ Effect i s.block t.block := by
  have ha := exec_answer i s
  rw [h] at ha
  generalize hr : Host.Outcome.next t = r at ha
  cases ha with
  | raised st _ =>
    rw [eq_comm, State.raise_eq_next_iff] at hr
    exact .inl (by rw [hr])
  | finished b rs he =>
    rw [eq_comm, State.finish_eq_next_iff] at hr
    exact .inr (by rw [hr]; exact he)

end Sys2Proof.Machine
end

