-- ==== Sys2Proof/Laws/Keypad.lean ====
section
/-! SUPPORT. What the keypad engine can do (44_keypad.md R175 to R178): its cases tick by tick, what it records,
and that its counters keep their bounds. -/

namespace Sys2Proof.Machine

/-! ### Recording detections -/

/-- Recording touches the three hit fields only, and does what `record_hit` says of each detection in turn. -/
theorem Keypad.foldl_recordHit (det : List (Fin 8)) (k : Keypad) :
    ∃ h r c, det.foldl Keypad.recordHit k = { k with hits := h, hitR := r, hitC := c } ∧
      HitsRecorded k.hits k.hitR k.hitC k.row det h r c := by
  have later : ∀ (det : List (Fin 8)) (k : Keypad), k.hits ≠ .zero →
      det.foldl Keypad.recordHit k = { k with hits := if det = [] then k.hits else .many } := by
    intro det
    induction det with
    | nil => intro k _; rfl
    | cons a det ih =>
      intro k hk
      have hr : k.recordHit a = { k with hits := .many } := by
        unfold Keypad.recordHit
        split
        · next h => exact absurd h hk
        · rfl
        · rfl
      rw [List.foldl_cons, hr, ih _ (by simp)]
      cases det <;> rfl
  cases hk : k.hits with
  | zero =>
    cases det with
    | nil => exact ⟨k.hits, k.hitR, k.hitC, rfl, hk, rfl, rfl⟩
    | cons a rest =>
      have hr : k.recordHit a = { k with hitR := k.row, hitC := BitVec.ofNat 3 a.val, hits := .one } := by
        unfold Keypad.recordHit
        rw [hk]
      rw [List.foldl_cons, hr, later rest _ (by simp)]
      cases rest with
      | nil => exact ⟨.one, k.row, BitVec.ofNat 3 a.val, rfl, rfl, rfl, rfl⟩
      | cons b rest => exact ⟨.many, k.row, BitVec.ofNat 3 a.val, rfl, rfl, rfl, rfl⟩
  | one =>
    rw [later det k (by simp [hk])]
    cases det with
    | nil => exact ⟨k.hits, k.hitR, k.hitC, rfl, hk, rfl, rfl⟩
    | cons a rest => exact ⟨.many, k.hitR, k.hitC, rfl, by cases rest <;> exact ⟨rfl, rfl, rfl⟩⟩
  | many =>
    rw [later det k (by simp [hk])]
    cases det with
    | nil => exact ⟨k.hits, k.hitR, k.hitC, rfl, hk, rfl, rfl⟩
    | cons a rest => exact ⟨.many, k.hitR, k.hitC, rfl, by cases rest <;> exact ⟨rfl, rfl, rfl⟩⟩

/-- The detections of a window are the columns that pass, ascending (44_keypad.md R175). -/
theorem Keypad.recordHits_eq (k : Keypad) :
    k.recordHits = ((List.finRange 8).filter k.detects).foldl Keypad.recordHit k := by
  rw [List.foldl_filter]
  rfl

/-- What is recorded is determined by the detections. -/
theorem HitsRecorded.unique {hits : KpHits} {hitR hitC row : BitVec 3} {det : List (Fin 8)}
    {h1 h2 : KpHits} {r1 r2 c1 c2 : BitVec 3} (x : HitsRecorded hits hitR hitC row det h1 r1 c1)
    (y : HitsRecorded hits hitR hitC row det h2 r2 c2) : h1 = h2 ∧ r1 = r2 ∧ c1 = c2 := by
  unfold HitsRecorded at x y
  split at x <;> simp_all

/-! ### Sampling -/

/-- A sampled column in use holds its run of low samples, which stays within 16 bits (44_keypad.md R175). -/
theorem Keypad.get_sampleColumns_of_used {k : Keypad} {d : Draws} {c : Fin 8} (hc : c.val ≤ k.colsM1.toNat)
    (hr : (k.run.get c).toNat < 65535) : ((k.sampleColumns d.pinIn).get c).toNat = k.lowRun d c := by
  have hlt : c.val < k.cols := by
    unfold Keypad.cols
    omega
  simp only [Keypad.sampleColumns, Vector.get_ofFn, hlt, if_true, Keypad.lowRun]
  split
  · rfl
  · simp only [BitVec.toNat_ofNat]
    omega

/-- A column not in use is not sampled (44_keypad.md R175). -/
theorem Keypad.get_sampleColumns_of_unused {k : Keypad} {d : Draws} {c : Fin 8} (hc : k.colsM1.toNat < c.val) :
    (k.sampleColumns d.pinIn).get c = k.run.get c := by
  have hge : ¬c.val < k.cols := by
    unfold Keypad.cols
    omega
  simp only [Keypad.sampleColumns, Vector.get_ofFn, hge, if_false]

/-- With the engine in its bounds every run counter is below its largest value. -/
theorem Keypad.run_lt_of_bounded {k : Keypad} (hc : k.ConfigOk) (hb : k.EngineBounded) (he : k.en = true)
    (hs : k.state = .scan) (c : Fin 8) : k.cnt.toNat < 32768 ∧ (k.run.get c).toNat ≤ k.cnt.toNat := by
  obtain ⟨-, hscan, -⟩ := hb he
  obtain ⟨h1, h2⟩ := hscan hs
  have := base_le_ticksMax hc.2.1
  exact ⟨by omega, h2 c⟩

/-- The columns found at a window's end are those of `Keypad.detected`. -/
theorem Keypad.filter_detects_sampled {k : Keypad} {d : Draws} (hr : ∀ c, (k.run.get c).toNat < 65535) :
    (List.finRange 8).filter ({ k with run := k.sampleColumns d.pinIn } : Keypad).detects = k.detected d := by
  unfold Keypad.detected
  refine List.filter_congr fun c _ => ?_
  simp only [Keypad.detects, Keypad.hitLength, Keypad.cols]
  by_cases hc : c.val ≤ k.colsM1.toNat
  · have h1 : c.val < k.colsM1.toNat + 1 := by omega
    simp only [Keypad.get_sampleColumns_of_used hc (hr c), hc, h1, decide_true, Bool.true_and]
  · have h1 : ¬c.val < k.colsM1.toNat + 1 := by omega
    simp only [hc, h1, decide_false, Bool.false_and]

/-! ### The tick, case by case -/

/-- A disabled keypad rests (44_keypad.md R175). -/
theorem Keypad.tick_disabled {k : Keypad} {d : Draws} (h : k.en = false) : k.tick d = k := by
  simp [Keypad.tick, h]

/-- Within a window the engine samples and counts (44_keypad.md R175). -/
theorem Keypad.tick_within {k : Keypad} {d : Draws} (he : k.en = true) (hs : k.state = .scan)
    (hw : k.cnt.toNat + 1 < base k.scanCode) :
    k.tick d = { k with run := k.sampleColumns d.pinIn, cnt := BitVec.ofNat 16 (k.cnt.toNat + 1) } := by
  simp [Keypad.tick, he, hs, hw]

/-- The end of a window, whichever it is (44_keypad.md R175). -/
theorem Keypad.tick_windowEnd {k : Keypad} {d : Draws} (he : k.en = true) (hs : k.state = .scan)
    (hw : base k.scanCode ≤ k.cnt.toNat + 1) :
    k.tick d = ({ k with run := k.sampleColumns d.pinIn } : Keypad).endWindow d.ghost := by
  unfold Keypad.tick
  rw [if_pos he]
  split
  · exact if_neg (by omega)
  · next h =>
    rw [hs] at h
    cases h

/-- The end of a window that is not the last of its cycle (44_keypad.md R175). -/
theorem Keypad.tick_nextRow {k : Keypad} {d : Draws} (he : k.en = true) (hs : k.state = .scan)
    (hw : base k.scanCode ≤ k.cnt.toNat + 1) (hrow : k.row.toNat < k.rowsM1.toNat)
    (hr : ∀ c, (k.run.get c).toNat < 65535) :
    ∃ h r c, k.tick d = { k with
        run := .replicate 8 0, cnt := 0, row := BitVec.ofNat 3 (k.row.toNat + 1), hits := h, hitR := r, hitC := c } ∧
      HitsRecorded k.hits k.hitR k.hitC k.row (k.detected d) h r c := by
  obtain ⟨h, r, c, heq, hrec⟩ :=
    Keypad.foldl_recordHit (k.detected d) ({ k with run := k.sampleColumns d.pinIn } : Keypad)
  refine ⟨h, r, c, ?_, hrec⟩
  have hrows : k.row.toNat + 1 < ({ k with run := k.sampleColumns d.pinIn } : Keypad).rows := by
    simp only [Keypad.rows]
    omega
  rw [Keypad.tick_windowEnd he hs hw, Keypad.endWindow, if_pos hrows, Keypad.recordHits_eq,
    Keypad.filter_detects_sampled hr, heq]

/-- The end of a cycle: publication, and row 0 again, after a sleep if there is one (44_keypad.md R175,
R177). -/
theorem Keypad.tick_endCycle {k : Keypad} {d : Draws} (he : k.en = true) (hs : k.state = .scan)
    (hw : base k.scanCode ≤ k.cnt.toNat + 1) (hrow : k.rowsM1.toNat ≤ k.row.toNat)
    (hr : ∀ c, (k.run.get c).toNat < 65535) :
    ∃ h r c, k.tick d = { k with
        run := .replicate 8 0, cnt := 0, row := 0, hits := .zero, hitR := 0, hitC := 0,
        keyData := Keypad.published { k with hits := h, hitR := r, hitC := c } d.ghost,
        state := if k.sleepCode = 0 then .scan else .sleep } ∧
      HitsRecorded k.hits k.hitR k.hitC k.row (k.detected d) h r c := by
  obtain ⟨h, r, c, heq, hrec⟩ :=
    Keypad.foldl_recordHit (k.detected d) ({ k with run := k.sampleColumns d.pinIn } : Keypad)
  refine ⟨h, r, c, ?_, hrec⟩
  have hrows : ¬k.row.toNat + 1 < ({ k with run := k.sampleColumns d.pinIn } : Keypad).rows := by
    simp only [Keypad.rows]
    omega
  rw [Keypad.tick_windowEnd he hs hw, Keypad.endWindow, if_neg hrows, Keypad.recordHits_eq,
    Keypad.filter_detects_sampled hr, heq]
  rfl

/-- Asleep the engine counts, and starts the scan again at the end (44_keypad.md R175, R178). -/
theorem Keypad.tick_sleep {k : Keypad} {d : Draws} (he : k.en = true) (hs : k.state = .sleep) :
    k.tick d = if k.cnt.toNat + 1 < base k.sleepCode then { k with cnt := BitVec.ofNat 16 (k.cnt.toNat + 1) }
      else { k with cnt := 0, state := .scan } := by
  simp [Keypad.tick, he, hs]

/-! ### The configuration and the bounds -/

/-- A tick keeps the configuration, and the bounds of the engine. -/
theorem Keypad.tick_bounded {k : Keypad} (d : Draws) (hc : k.ConfigOk) (hb : k.EngineBounded) :
    SameKeypadConfig k (k.tick d) ∧ (k.tick d).ConfigOk ∧ (k.tick d).EngineBounded := by
  cases he : k.en with
  | false => rw [Keypad.tick_disabled he]; exact ⟨⟨rfl, rfl, rfl, rfl, rfl, rfl⟩, hc, hb⟩
  | true =>
    obtain ⟨hrow, hscan, hsleep⟩ := hb he
    obtain ⟨c1, c2, c3, c4, c5⟩ := hc
    have hb0 : 0 < base k.scanCode := by have := c5 he; exact lt_of_le_of_lt (Nat.zero_le _) (base_lt_base this c2)
    have hb1 : k.sleepCode ≠ 0 → 0 < base k.sleepCode := fun h => by have := two_le_base h; omega
    have h1 := base_le_ticksMax c1
    have h2 := base_le_ticksMax c2
    have hlt := k.rowsM1.isLt
    cases hs : k.state with
    | scan =>
      obtain ⟨hcnt, hrun⟩ := hscan hs
      have hr : ∀ c, (k.run.get c).toNat < 65535 := fun c => by have := hrun c; omega
      rcases Nat.lt_or_ge (k.cnt.toNat + 1) (base k.scanCode) with hw | hw
      · rw [Keypad.tick_within he hs hw]
        have hm : (k.cnt.toNat + 1) % 65536 = k.cnt.toNat + 1 := Nat.mod_eq_of_lt (by omega)
        refine ⟨⟨rfl, rfl, rfl, rfl, rfl, rfl⟩, ⟨c1, c2, c3, by simp [he], fun _ => c5 he⟩,
          fun _ => ⟨hrow, fun _ => ⟨by simpa [hm] using hw, fun c => ?_⟩, fun h => by simp [hs] at h⟩⟩
        have hrc := hrun c
        simp only [BitVec.toNat_ofNat]
        rw [show (2 : ℕ) ^ 16 = 65536 from rfl, hm]
        rcases Nat.lt_or_ge k.colsM1.toNat c.val with hu | hu
        · rw [Keypad.get_sampleColumns_of_unused hu]
          omega
        · rw [Keypad.get_sampleColumns_of_used hu (hr c), Keypad.lowRun]
          split <;> omega
      · rcases Nat.lt_or_ge k.row.toNat k.rowsM1.toNat with hlast | hlast
        · obtain ⟨h, r, c, heq, -⟩ := Keypad.tick_nextRow (d := d) he hs hw hlast hr
          rw [heq]
          refine ⟨⟨rfl, rfl, rfl, rfl, rfl, rfl⟩, ⟨c1, c2, c3, by simp [he], fun _ => c5 he⟩,
            fun _ => ⟨?_, fun _ => ⟨by simpa using hb0, fun x => by simp⟩, fun h' => by simp [hs] at h'⟩⟩
          simp only [BitVec.toNat_ofNat]
          omega
        · obtain ⟨h, r, c, heq, -⟩ := Keypad.tick_endCycle (d := d) he hs hw hlast hr
          rw [heq]
          refine ⟨⟨rfl, rfl, rfl, rfl, rfl, rfl⟩, ⟨c1, c2, c3, by simp [he], fun _ => c5 he⟩,
            fun _ => ⟨by simp, fun _ => ⟨by simpa using hb0, fun x => by simp⟩, fun h' => ⟨?_, fun x => by simp⟩⟩⟩
          have hz : k.sleepCode ≠ 0 := by
            intro h0
            simp [h0] at h'
          simpa using hb1 hz
    | sleep =>
      obtain ⟨hcnt, hrun⟩ := hsleep hs
      rw [Keypad.tick_sleep he hs]
      split
      · next hw =>
        have hm : (k.cnt.toNat + 1) % 65536 = k.cnt.toNat + 1 := Nat.mod_eq_of_lt (by omega)
        exact ⟨⟨rfl, rfl, rfl, rfl, rfl, rfl⟩, ⟨c1, c2, c3, by simp [he], fun _ => c5 he⟩,
          fun _ => ⟨hrow, fun h => by simp [hs] at h, fun _ => ⟨by simpa [hm] using hw, hrun⟩⟩⟩
      · exact ⟨⟨rfl, rfl, rfl, rfl, rfl, rfl⟩, ⟨c1, c2, c3, by simp [he], fun _ => c5 he⟩,
          fun _ => ⟨hrow, fun _ => ⟨by simpa using hb0, fun x => by simp [hrun x]⟩, fun h => by cases h⟩⟩

end Sys2Proof.Machine
end

