-- ==== Sys2Proof/Laws/PerInstr.lean ====
section
/-! SUPPORT. A fact about every command as syntax: its frame's first byte selects its row of the opcode map, and
the frame is as long as that row's format (30_encoding.md R84, R87). -/

namespace Sys2Proof.Laws.OpcodeSelectsRow

/-- Byte 0 of the frame alone selects the command's row and fixes the frame's length. -/
def Statement (i : Instr) : Prop :=
  mnemonicOf ((encode i).headD 0) = some i.mnemonic ∧ frameLength ((encode i).headD 0) = (encode i).length

/-- A frame starts with the opcode of its row, so only the length is left to show. -/
theorem of_length {i : Instr} (h : (formatOf i.mnemonic).length = (encode i).length) : Statement i := by
  refine ⟨mnemonicOf_opcodeOf _, ?_⟩
  simpa only [frameLength, encode, List.headD_cons, mnemonicOf_opcodeOf] using h

theorem setMode (pin mode : Byte) : Statement (.setMode pin mode) := of_length rfl
theorem writeDigital (pin level : Byte) : Statement (.writeDigital pin level) := of_length rfl
theorem readDigital (pin : Byte) : Statement (.readDigital pin) := of_length rfl
theorem setIntensity (pin value : Byte) : Statement (.setIntensity pin value) := of_length rfl
theorem blink (pin : Byte) (onMs offMs : Half) : Statement (.blink pin onMs offMs) := of_length rfl
theorem breathe (pin : Byte) (onMs offMs riseMs fallMs : Half) :
    Statement (.breathe pin onMs offMs riseMs fallMs) := of_length rfl
theorem stop (pin : Byte) : Statement (.stop pin) := of_length rfl
theorem configureKeypad (rows cols : Byte) (sleepMs scanMs debMs : Half) :
    Statement (.configureKeypad rows cols sleepMs scanMs debMs) := of_length rfl
theorem readKeyData : Statement .readKeyData := of_length rfl
theorem decodeRow (raw : Half) : Statement (.decodeRow raw) := of_length rfl
theorem decodeCol (raw : Half) : Statement (.decodeCol raw) := of_length rfl
theorem setEdgeSense (pin edge : Byte) : Statement (.setEdgeSense pin edge) := of_length rfl
theorem setMask (pin enabled : Byte) : Statement (.setMask pin enabled) := of_length rfl
theorem setGlobalDebounce (ms : Half) : Statement (.setGlobalDebounce ms) := of_length rfl
theorem enableDebounce (pin enabled : Byte) : Statement (.enableDebounce pin enabled) := of_length rfl
theorem readSource : Statement .readSource := of_length rfl
theorem codecEncode (ms : Half) (dv : Byte) : Statement (.codecEncode ms dv) := of_length rfl
theorem codecDecode (code dv : Byte) : Statement (.codecDecode code dv) := of_length rfl
theorem setDivider (dv : Byte) : Statement (.setDivider dv) := of_length rfl
theorem readReg (addr : Byte) : Statement (.readReg addr) := of_length rfl
theorem reset : Statement .reset := of_length rfl

end Sys2Proof.Laws.OpcodeSelectsRow
end

