-- ==== Sys2Proof/Laws/Tick.lean ====
section
/-! SUPPORT. The tick step (20_memory.md R71): what it makes of one pin, and that it completes under the
invariant. -/

namespace Sys2Proof.Machine

/-- A pin after a tick. -/
theorem Block.pin_tick (b : Block) (d : Draws) (p : PinNo) : (b.tick d).pin p = b.pinTick d p (b.pin p) := by
  show (b.mapPins (b.pinTick d)).pin p = _
  simp

@[simp] theorem Block.tick_clkdiv (b : Block) (d : Draws) : (b.tick d).clkdiv = b.clkdiv := by
  simp only [Block.tick, Block.mapPins_clkdiv]
@[simp] theorem Block.tick_dbtime (b : Block) (d : Draws) : (b.tick d).dbtime = b.dbtime := by
  simp only [Block.tick, Block.mapPins_dbtime]
@[simp] theorem Block.tick_kp (b : Block) (d : Draws) : (b.tick d).kp = b.kp.tick d := by
  simp only [Block.tick]

/-- The detector neither reads nor writes the LED engine. -/
theorem Pin.detTick_withLed (q : Pin) (ph : Phase) (cnt : BitVec 16) (dbtime : TimeCode) (raw choice : Bool) :
    Pin.detTick { q with ledPhase := ph, ledCnt := cnt } dbtime raw choice =
      { q.detTick dbtime raw choice with ledPhase := ph, ledCnt := cnt } := by
  unfold Pin.detTick Pin.detect
  simp only
  split
  · split
    · rfl
    · split
      · rfl
      · split
        · rfl
        · split <;> rfl
  · rfl

/-- A pin after a tick whose LED engine completes: the detector's fields, and the LED engine's two. -/
theorem Block.pinTick_eq {b : Block} {d : Draws} {p : PinNo} {q : Pin} {ph : Phase} {cnt : BitVec 16}
    (h : q.ledTick = some { q with ledPhase := ph, ledCnt := cnt }) :
    b.pinTick d p q =
      { q.detTick b.dbtime (d.pinIn.getLsbD p.val) (d.latchChoice.getLsbD p.val) with
        ledPhase := ph, ledCnt := cnt } := by
  rw [Block.pinTick, h, Option.getD_some, Pin.detTick_withLed]

/-- Under the invariant no LED engine is stuck. -/
theorem Block.ledStuck_of_inv {b : Block} (h : b.Inv) : b.ledStuck = false := by
  unfold Block.ledStuck
  rw [List.any_eq_false]
  intro p _
  obtain ⟨q, hq, -⟩ := Pin.ledTick_of_inv (h.1 p)
  simp [hq]

/-- Under the invariant a tick step completes. -/
theorem State.tick_of_inv {s : State} (h : s.block.Inv) :
    s.tick = .next { s with block := s.block.tick s.draws } := by
  rw [State.tick, Block.ledStuck_of_inv h]
  rfl

end Sys2Proof.Machine
end

