-- ==== Sys2Proof/Tests/Slice0.lean ====
section
/-! SUPPORT. The model's own tests: ill-formed commands, the decoding of every command from a frame written out
from 30_encoding.md R81 and R84, the examples of 95_test_vectors.md, and for every statement with hypotheses a
state and operands that meet them. Expected values are the spec's. -/

namespace Sys2Proof.Tests

open Sys2Proof Sys2Proof.Machine

/-! ### Helpers -/

/-- A state with a block and the draws of its step. -/
def st (b : Block) (d : Draws := ⟨0xFFFF, 0, 0⟩) : State := { State.reset with block := b, draws := d }

/-- The last response of a step. -/
def response : Result → Option (List Byte)
  | .next t => t.outbox.getLast?
  | _ => none

/-- The block after a step. -/
def after : Result → Option Block
  | .next t => some t.block
  | _ => none

/-- Cells of the register view after a step. -/
def cells (r : Result) (addrs : List Nat) : Option (List Byte) := (after r).map fun b => addrs.map b.view

/-- The reset block with one pin rewritten. -/
def withPin (p : PinNo) (q : Pin) : Block := Block.reset.setPin p q

def outputPin : Pin := { Pin.reset with mode := .output }
def analogPin : Pin := { Pin.reset with mode := .analogOutput, intensity := 0x80 }

/-- BREATHE 5, 500, 600, 500, 250 (95_test_vectors.md S3). -/
def breathingPin : Pin := { analogPin with wave := .breathe, ton := 21, toff := 21, trise := 21, tfall := 19 }

/-- BLINK 5, 500, 500 (95_test_vectors.md LED-7). -/
def blinkingPin : Pin := { analogPin with wave := .blink, ton := 21, toff := 21, ledPhase := .on }

/-- A started input pin that senses both edges and is masked in. -/
def watchedPin : Pin := { Pin.reset with sense := .both, mask := true, detValid := true, detLvl := true }

/-- Pin 0 an Output at level 1. -/
def highOutput : Block := withPin 0 { outputPin with outlvl := true }

/-- CONFIGURE_KEYPAD 4, 3, 256, 2, 1 (95_test_vectors.md S4). -/
def kp43 : Keypad := Keypad.configured 3 2 19 5 3

def kpBlock : Block := Block.reset.assignKeypad kp43

/-- A keypad at the last tick of row r's window, column 1 low on every sample. -/
def kpLastTick (r : BitVec 3) : Keypad := { kp43 with row := r, cnt := 7, run := (.replicate 8 0 : Vector (BitVec 16) 8).set 1 7 }

/-- A keypad at the start of its sleep. -/
def kpAsleep : Keypad := { kp43 with state := .sleep }

/-- Column 1 low, every other sample high. -/
def lowCol1 : Draws := ⟨0xFDFF, 0, 0⟩

/-! ### WellFormed: an ill-formed command for each check (30_encoding.md R82) -/

theorem test_wf_pin : (Instr.setMode 16 0).wellFormed = false ∧ (Instr.stop 16).wellFormed = false := by decide
theorem test_wf_mode : (Instr.setMode 15 4).wellFormed = false := by decide
theorem test_wf_edge : (Instr.setEdgeSense 15 4).wellFormed = false := by decide
theorem test_wf_level : (Instr.writeDigital 15 2).wellFormed = false := by decide
theorem test_wf_enabled : (Instr.setMask 15 2).wellFormed = false ∧ (Instr.enableDebounce 15 2).wellFormed = false := by
  decide
theorem test_wf_rows : (Instr.configureKeypad 0 1 0 2 1).wellFormed = false ∧
    (Instr.configureKeypad 9 1 0 2 1).wellFormed = false := by decide
theorem test_wf_cols : (Instr.configureKeypad 1 0 0 2 1).wellFormed = false ∧
    (Instr.configureKeypad 1 9 0 2 1).wellFormed = false := by decide
theorem test_wf_dv : (Instr.setDivider 8).wellFormed = false ∧ (Instr.codecEncode 0 8).wellFormed = false ∧
    (Instr.codecDecode 0 8).wellFormed = false := by decide
theorem test_wf_code : (Instr.codecDecode 30 7).wellFormed = false := by decide
theorem test_wf_address : (Instr.readReg 0xA0).wellFormed = false ∧ (Instr.readReg 0x26).wellFormed = false ∧
    (Instr.readReg 0x9F).wellFormed = false := by decide
theorem test_wf_largest : (Instr.setMode 15 3).wellFormed = true ∧ (Instr.codecDecode 29 7).wellFormed = true ∧
    (Instr.configureKeypad 8 8 0 2 1).wellFormed = true ∧ (Instr.readReg 0x9D).wellFormed = true := by decide

/-! ### Decoding: every command from its frame (30_encoding.md R81, R84) -/

theorem test_decode_pin_config :
    decode [0x01, 0x05, 0x03] = .ok (.setMode 5 3) ∧
    decode [0x02, 0x07, 0x01] = .ok (.writeDigital 7 1) ∧
    decode [0x03, 0x0F] = .ok (.readDigital 15) := by decide
theorem test_decode_led :
    decode [0x10, 0x05, 0x80] = .ok (.setIntensity 5 128) ∧
    decode [0x11, 0x05, 0x01, 0xF4, 0x02, 0x58] = .ok (.blink 5 500 600) ∧
    decode [0x12, 0x05, 0x01, 0xF4, 0x02, 0x58, 0x00, 0x01, 0x00, 0xFA] = .ok (.breathe 5 500 600 1 250) ∧
    decode [0x13, 0x05] = .ok (.stop 5) := by decide
theorem test_decode_keypad :
    decode [0x20, 0x04, 0x03, 0x01, 0x00, 0x00, 0x02, 0x00, 0x01] = .ok (.configureKeypad 4 3 256 2 1) ∧
    decode [0x21] = .ok .readKeyData ∧
    decode [0x22, 0x04, 0x02] = .ok (.decodeRow 0x0402) ∧
    decode [0x23, 0x04, 0x02] = .ok (.decodeCol 0x0402) := by decide
theorem test_decode_interrupt :
    decode [0x30, 0x03, 0x02] = .ok (.setEdgeSense 3 2) ∧
    decode [0x31, 0x03, 0x01] = .ok (.setMask 3 1) ∧
    decode [0x32, 0x08, 0x01] = .ok (.setGlobalDebounce 2049) ∧
    decode [0x33, 0x03, 0x01] = .ok (.enableDebounce 3 1) ∧
    decode [0x34] = .ok .readSource := by decide
theorem test_decode_codec :
    decode [0x40, 0x20, 0x01, 0x07] = .ok (.codecEncode 8193 7) ∧
    decode [0x41, 0x1D, 0x02] = .ok (.codecDecode 29 2) ∧
    decode [0x42, 0x07] = .ok (.setDivider 7) := by decide
theorem test_decode_system :
    decode [0x50, 0x06] = .ok (.readReg 6) ∧ decode [0x7F] = .ok .reset := by decide

/-- 95_test_vectors.md SYS-5: reserved opcodes are rejected by name. -/
theorem test_decode_reserved :
    ([0x00, 0x04, 0x0F, 0x14, 0x24, 0x35, 0x43, 0x51, 0x7E, 0x80, 0xFF] : List Byte).all
      (fun op => decide (decode [op] = .error (.reservedOpcode op))) = true := by decide

/-- 95_test_vectors.md SYS-6: wrong lengths are rejected by name. -/
theorem test_decode_wrong_length :
    decode [0x01, 0x05] = .error (.wrongLength .setMode 2) ∧
    decode [0x01, 0x05, 0x03, 0x00] = .error (.wrongLength .setMode 4) ∧
    decode [0x7F, 0x00] = .error (.wrongLength .reset 2) ∧
    decode [0x12, 0x05, 0x00, 0x00] = .error (.wrongLength .breathe 4) ∧
    decode [] = .error .emptyFrame := by decide

/-- Table words: byte 0 is bits 7..0, and the bytes above the table's bits are 0. -/
theorem test_decodeTableWord :
    decodeTableWord 24 0x030501 = some (.setMode 5 3) ∧ decodeTableWord 8 0x12 = some (.breathe 0 0 0 0 0) ∧
    decodeTableWord 8 0x00 = none := by decide

/-- A fetch word runs as the very next step. -/
theorem test_withFetchWord :
    cells (step (State.reset.withFetchWord 24 0x030501)) [0x01] = some [0x0C] := by decide

/-- Pseudo-instructions (30_encoding.md R89): sense before mask. -/
theorem test_pseudo :
    (Pseudo.enableInterrupt 3 2).expand = [.setEdgeSense 3 2, .setMask 3 1] ∧
    (Pseudo.pwm 5 128).expand = [.setIntensity 5 128] := by decide

/-- `SET_MODE 5, ANALOG_OUTPUT` is `01 05 03` (30_encoding.md R88). -/
theorem test_assembler_line :
    (AsmLine.command (.setMode 5 Mode.analogOutput.symbol) ⟨0, 0, 0⟩).events = [.frame 0x01 [0x05, 0x03] ⟨0, 0, 0⟩] ∧
    (AsmLine.ticks 2 ⟨0, 0, 0⟩).events = [.tick ⟨0, 0, 0⟩, .tick ⟨0, 0, 0⟩] := by decide

/-! ### Timing codec (95_test_vectors.md V-COD) -/

/-- COD-5: a tie goes to the larger code. COD-23: one over the range. -/
theorem test_codecEncode :
    response (exec (.codecEncode 5 0) State.reset) = some [0x00, 0x08] ∧
    response (exec (.codecEncode 8193 0) State.reset) = some [0x04] := by decide
/-- COD-34: the divider is checked before the range. COD-32: no overflow. -/
theorem test_codecEncode_order :
    response (exec (.codecEncode 65535 8) State.reset) = some [0x03] ∧
    response (exec (.codecEncode 65535 7) State.reset) = some [0x04] := by decide
/-- DEC-11: exact. DEC-7: the largest value. -/
theorem test_codecDecode :
    response (exec (.codecDecode 2 7) State.reset) = some [0x00, 0x00, 0x00, 0x00, 0x06] ∧
    response (exec (.codecDecode 29 0) State.reset) = some [0x00, 0x00, 0x80, 0x00, 0x00] := by decide
/-- DEC-12: a reserved code. -/
theorem test_codecDecode_reserved : response (exec (.codecDecode 30 0) State.reset) = some [0x03] := by decide
/-- DIV-2, DIV-3. -/
theorem test_setDivider :
    cells (exec (.setDivider 7) State.reset) [0x0E] = some [0x07] ∧
    response (exec (.setDivider 8) State.reset) = some [0x03] := by decide

/-! ### Pin configuration (95_test_vectors.md V-PIN, P4) -/

/-- PIN-2: InvalidPin comes before InvalidParameter. PIN-14: the pad bits of an AnalogOutput pin. -/
theorem test_setMode :
    response (exec (.setMode 255 9) State.reset) = some [0x01] ∧
    cells (exec (.setMode 5 3) State.reset) [0x01, 0x07, 0x09, 0x0D] = some [0x0C, 0xDF, 0x20, 0x20] := by decide
/-- PIN-10: OUTLVL is cleared by a transition. -/
theorem test_setMode_clears :
    cells (exec (.setMode 7 0) (st (withPin 7 { outputPin with outlvl := true }))) [0x05] = some [0x00] := by decide
/-- PIN-5, PIN-7. -/
theorem test_writeDigital :
    cells (exec (.writeDigital 7 1) (st (withPin 7 outputPin))) [0x05] = some [0x80] ∧
    response (exec (.writeDigital 6 1) State.reset) = some [0x02] := by decide
/-- PIN-9, PIN-11: an Input pin reads the pad. -/
theorem test_readDigital_pad :
    response (exec (.readDigital 6) (st Block.reset ⟨0x0040, 0, 0⟩)) = some [0x00, 0x01] ∧
    response (exec (.readDigital 7) (st Block.reset ⟨0xFF7F, 0, 0⟩)) = some [0x00, 0x00] := by decide
/-- KP-16, KP-17: the current row is low and other rows are high. -/
theorem test_readDigital_row :
    response (exec (.readDigital 0) (st kpBlock)) = some [0x00, 0x00] ∧
    response (exec (.readDigital 1) (st kpBlock)) = some [0x00, 0x01] := by decide

/-! ### LED driver (95_test_vectors.md V-LED, S2, S3, P1) -/

/-- LED-1, LED-3. -/
theorem test_setIntensity :
    response (exec (.setIntensity 6 128) State.reset) = some [0x02] ∧
    cells (exec (.setIntensity 5 128) (st (withPin 5 breathingPin))) [0x48, 0x49, 0x4A, 0x4D]
      = some [0x80, 0x00, 0x00, 0x00] := by decide
/-- LED-7, LED-11: an ON phase of length 0 is skipped. -/
theorem test_blink :
    cells (exec (.blink 5 500 500) (st (withPin 5 analogPin))) [0x49, 0x4A, 0x4B] = some [0x05, 0x15, 0x15] ∧
    cells (exec (.blink 5 0 500) (st (withPin 5 analogPin))) [0x49, 0x4A, 0x4B] = some [0x0D, 0x00, 0x15] := by decide
/-- LED-4, LED-6. -/
theorem test_blink_errors :
    response (exec (.blink 5 0 0) (st (withPin 5 analogPin))) = some [0x03] ∧
    response (exec (.blink 5 1 8193) (st (withPin 5 analogPin))) = some [0x04] := by decide
/-- S3 step 1. -/
theorem test_breathe :
    cells (exec (.breathe 5 500 600 500 250) (st (withPin 5 analogPin))) [0x48, 0x49, 0x4A, 0x4B, 0x4C, 0x4D]
      = some [0x80, 0x02, 0x15, 0x15, 0x15, 0x13] := by decide
/-- LED-13, LED-15: over range is InvalidParameter. -/
theorem test_breathe_errors :
    response (exec (.breathe 5 500 600 0 250) (st (withPin 5 analogPin))) = some [0x03] ∧
    response (exec (.breathe 5 8193 600 500 250) (st (withPin 5 analogPin))) = some [0x03] := by decide
/-- S3 step 2. -/
theorem test_stop :
    cells (exec (.stop 5) (st (withPin 5 breathingPin))) [0x48, 0x49, 0x4A, 0x4B, 0x4C, 0x4D]
      = some [0x80, 0x00, 0x00, 0x00, 0x00, 0x00] := by decide
/-- P1: the levels at counts 1000 of RISE and 404 of FALL. -/
theorem test_level :
    ({ breathingPin with ledCnt := 1000 } : Pin).level = 124 ∧
    ({ breathingPin with ledPhase := .fall, ledCnt := 404 } : Pin).level = 155 := by decide
/-- LED-8, LED-9: the last tick of ON enters OFF. -/
theorem test_ledTick :
    ({ blinkingPin with ledCnt := 2046 } : Pin).ledTick = some { blinkingPin with ledCnt := 2047 } ∧
    ({ blinkingPin with ledCnt := 2047 } : Pin).ledTick = some { blinkingPin with ledPhase := .off } := by decide

/-! ### Keypad (95_test_vectors.md V-KP, S4, S5, P2) -/

/-- S4 step 2. -/
theorem test_configureKeypad :
    cells (exec (.configureKeypad 4 3 256 2 1) State.reset) [0x1A, 0x1B, 0x1C, 0x1D, 0x00, 0x01, 0x02]
      = some [0xB2, 0x13, 0x05, 0x03, 0xAA, 0x00, 0x15] := by decide
/-- S4 step 1, and SYS-8: the counts are checked first. -/
theorem test_configureKeypad_errors :
    response (exec (.configureKeypad 4 3 256 1 2) State.reset) = some [0x03] ∧
    response (exec (.configureKeypad 9 3 0 9000 1) State.reset) = some [0x03] := by decide
/-- P2 row 6. -/
theorem test_readKeyData :
    response (exec .readKeyData (st { Block.reset with kp := { kp43 with keyData := 0x0402 } }))
      = some [0x00, 0x04, 0x02] := by decide
/-- S5, DK-5. -/
theorem test_decodeRow :
    response (exec (.decodeRow 0x0402) State.reset) = some [0x00, 0x02] ∧
    response (exec (.decodeRow 0x0100) State.reset) = some [0x00, 0x00] := by decide
/-- S5, DK-6. -/
theorem test_decodeCol :
    response (exec (.decodeCol 0x0402) State.reset) = some [0x00, 0x01] ∧
    response (exec (.decodeCol 0x8000) State.reset) = some [0x05] := by decide
/-- P2, tick 24: the hit is recorded at the end of row 2's window. -/
theorem test_keypad_hit :
    ((kpLastTick 2).tick lowCol1).hits = .one ∧ ((kpLastTick 2).tick lowCol1).hitR = 2 ∧
    ((kpLastTick 2).tick lowCol1).hitC = 1 ∧ ((kpLastTick 2).tick lowCol1).row = 3 := by decide
/-- P2, tick 32: the cycle publishes and sleeps. -/
theorem test_keypad_publish :
    (({ kpLastTick 3 with run := .replicate 8 0, hits := .one, hitR := 2, hitC := 1 } : Keypad).tick
      ⟨0xFFFF, 0, 0⟩).keyData = 0x0402 ∧
    ((kpLastTick 3).tick lowCol1).state = .sleep := by decide

/-! ### Interrupts (95_test_vectors.md V-INT, P3) -/

/-- INT-9: sense None withdraws the bit. INT-15: the window opens where debounce is on. -/
theorem test_setEdgeSense :
    cells (exec (.setEdgeSense 3 0) (st (withPin 3 { watchedPin with source := true }))) [0x10, 0x19]
      = some [0x00, 0x00] ∧
    (after (exec (.setEdgeSense 3 3) (st (withPin 3 { watchedPin with dben := true })))).map
      (fun b => (b.pin 3).cfgwin) = some true := by decide
/-- INT-6: masking withdraws the bit. INT-8: unmasking creates none. -/
theorem test_setMask :
    cells (exec (.setMask 3 0) (st (withPin 3 { watchedPin with source := true }))) [0x15, 0x19] = some [0x00, 0x00] ∧
    cells (exec (.setMask 3 1) (st (withPin 3 { watchedPin with mask := false }))) [0x15, 0x19]
      = some [0x08, 0x00] := by decide
/-- INT-2; P5 row 8: the limit at dv 2. -/
theorem test_setGlobalDebounce :
    response (exec (.setGlobalDebounce 0x2001) State.reset) = some [0x04] ∧
    cells (exec (.setGlobalDebounce 2048) (st { Block.reset with clkdiv := 2 })) [0x0F] = some [0x1D] := by decide
/-- A changed value restarts the count (45_interrupt_debounce.md R203); INT-1. -/
theorem test_enableDebounce :
    (after (exec (.enableDebounce 3 0) (st (withPin 3 { watchedPin with dben := true, dbCnt := 3 })))).map
      (fun b => (b.pin 3).dbCnt) = some 0 ∧
    response (exec (.enableDebounce 16 1) State.reset) = some [0x01] := by decide
/-- INT-4: the mask is returned and cleared. -/
theorem test_readSource :
    response (exec .readSource (st (withPin 3 { watchedPin with source := true }))) = some [0x00, 0x00, 0x08] ∧
    cells (exec .readSource (st (withPin 3 { watchedPin with source := true }))) [0x19] = some [0x00] := by decide
/-- INT-18, INT-19: the fourth differing sample is accepted at DBTIME 3 (T = 4), the third is not. -/
theorem test_debounce :
    (({ watchedPin with dben := true, dbCnt := 3 } : Pin).detTick 3 false false).source = true ∧
    (({ watchedPin with dben := true, dbCnt := 2 } : Pin).detTick 3 false false).source = false := by decide
/-- INT-3: the first sample is no edge. INT-15, INT-16: in a window the draw decides. -/
theorem test_detector :
    (({ watchedPin with detValid := false } : Pin).detTick 0 false false).source = false ∧
    (({ watchedPin with dben := true, cfgwin := true } : Pin).detTick 0 false false).source = false ∧
    (({ watchedPin with dben := true, cfgwin := true } : Pin).detTick 0 false true).source = true := by decide

/-! ### System (95_test_vectors.md V-SYS) -/

/-- SYS-1, SYS-3. -/
theorem test_readReg :
    response (exec (.readReg 0x06) State.reset) = some [0x00, 0xFF] ∧
    response (exec (.readReg 0x26) State.reset) = some [0x03] := by decide
/-- SYS-4, SYS-3: the last readable cell, and the first address above. -/
theorem test_readReg_bounds :
    response (exec (.readReg 0x9D) (st (withPin 15 breathingPin))) = some [0x00, 0x13] ∧
    response (exec (.readReg 0xA0) State.reset) = some [0x03] := by decide
/-- S7. -/
theorem test_reset : after (exec .reset (st kpBlock)) = some Block.reset := by decide
/-- SYS-5, SYS-6: an illegal frame is answered 06 and changes nothing. -/
theorem test_illegal_frame :
    response (step ((st kpBlock).schedule [0x7F, 0x00])) = some [0x06] ∧
    after (step ((st kpBlock).schedule [0x7F, 0x00])) = some kpBlock := by decide

/-! ### Witnesses: the hypotheses of every statement can be met -/

/-- The invariant holds in a block with a running keypad and a breathing pin. -/
theorem busyBlock_inv : (kpBlock.setPin 5 breathingPin).Inv :=
  ⟨by decide, by decide, by decide, by decide, by decide⟩

theorem kpBlock_inv : kpBlock.Inv := ⟨by decide, by decide, by decide, by decide, by decide⟩

theorem witness_EncodeDecodeRoundTrip : decode [0x40, 0x20, 0x00, 0x07] = .ok (.codecEncode 8192 7) := by decide

theorem witness_IllegalFramesAnswerIllegalCommand :
    (State.reset.schedule [0xFF]).inbox = .frame 0xFF [] ⟨0, 0, 0⟩ :: [] ∧
    ReservedOpcode (0x00 : Byte).toNat ∧ ReservedOpcode (0x04 : Byte).toNat ∧ ReservedOpcode (0x0F : Byte).toNat ∧
    ReservedOpcode (0x7E : Byte).toNat ∧ ReservedOpcode (0x80 : Byte).toNat ∧ ReservedOpcode (0xFF : Byte).toNat ∧
    (opcodeOf .reset = 0x7F ∧ ([0x00] : List Byte).length + 1 ≠ (formatOf .reset).length) ∧
    ¬(ReservedOpcode (0x7F : Byte).toNat ∨ ∃ m, opcodeOf m = 0x7F ∧ ([] : List Byte).length + 1 ≠ (formatOf m).length) := by
  refine ⟨rfl, ?_, ?_, ?_, ?_, ?_, ?_, by decide, ?_⟩
  all_goals try (unfold ReservedOpcode; decide)
  rintro (h | ⟨m, h, h'⟩)
  · revert h
    unfold ReservedOpcode
    decide
  · cases m <;> first | exact absurd h (by decide) | exact h' rfl

theorem witness_StepRunsDecodedCommand :
    (State.reset.schedule [0x7F]).inbox = .frame 0x7F [] ⟨0, 0, 0⟩ :: [] ∧ decode (0x7F :: []) = .ok .reset := by decide

theorem witness_TickStepCompletes :
    (st kpBlock).block.Inv ∧ (st kpBlock).inbox = [] ∧
    ({ st kpBlock with inbox := [.tick lowCol1] } : State).inbox = .tick lowCol1 :: [] :=
  ⟨kpBlock_inv, rfl, rfl⟩

theorem witness_TickGroupsAreIndependent : (kpBlock.setPin 5 breathingPin).Inv := busyBlock_inv

theorem witness_EncodePicksNearestTieToLarger :
    (20 ≤ 32768 ∧ Nat.dist (baseOf 7) 20 = Nat.dist (baseOf (encTicks 20)) 20) ∧ 32768 ≤ 32768 := by decide

theorem witness_EncodeFailsExactlyOverRange :
    7 ≤ 7 ∧ encodeMs 64 7 = some 29 ∧ encodeMs 65 7 = none := by decide

theorem witness_CodecLawsHold :
    (28 < 29 ∧ 29 ≤ 29) ∧ (1 ≤ 1 ∧ 1 < 29 ∧ 1 % 2 = 1) ∧ (1 ≤ 28 ∧ 28 < 29 ∧ 28 % 2 = 0) ∧
    encodeMs 1 0 = some 3 ∧ encodeMs 5 0 = some 8 ∧ 1 ≤ (5 : Half).toNat ∧
    baseOf 7 ≤ (5 : Half).toNat * 4 * 2 ^ 0 ∧ (5 : Half).toNat * 4 * 2 ^ 0 ≤ baseOf (7 + 1) ∧
    (1 : Half).toNat ≤ (5 : Half).toNat := by decide

theorem witness_CodecEncodeAnswersCode :
    7 < (8 : Byte).toNat ∧
    ((7 : Byte).toNat ≤ 7 ∧ 32768 < (65 : Half).toNat * 4 * 2 ^ (7 : Byte).toNat) ∧
    ((7 : Byte).toNat ≤ 7 ∧ (64 : Half).toNat * 4 * 2 ^ (7 : Byte).toNat ≤ 32768) := by decide

theorem witness_CodecDecodeAnswersExactDuration :
    29 < (30 : Byte).toNat ∧ 7 < (8 : Byte).toNat ∧ ((29 : Byte).toNat ≤ 29 ∧ (7 : Byte).toNat ≤ 7) := by decide

theorem witness_SetDividerWritesClkdivOnly : 7 < (8 : Byte).toNat ∧ (7 : Byte).toNat ≤ 7 := by decide

theorem witness_SetModeAppliesTransition :
    15 < (16 : Byte).toNat ∧ (0 : Byte).toNat = (0 : PinNo).val ∧ (st kpBlock).block.owned 0 = true ∧
    (15 : Byte).toNat = (15 : PinNo).val ∧ (st kpBlock).block.owned 15 = false ∧ 3 < (4 : Byte).toNat ∧
    (3 : Byte).toNat = Mode.analogOutput.toBits.toNat ∧ (0 : Byte).toNat = Mode.input.toBits.toNat ∧
    ((st kpBlock).block.pin 15).mode = .input ∧
    ((st (withPin 15 breathingPin)).block.owned 15 = false ∧
      ((st (withPin 15 breathingPin)).block.pin 15).mode = .analogOutput) := by decide

theorem witness_WriteDigitalWritesOutlvl :
    15 < (16 : Byte).toNat ∧ (15 : Byte).toNat = (15 : PinNo).val ∧
    ((st Block.reset).block.pin 15).mode ≠ .output ∧ (st kpBlock).block.owned 0 = true ∧
    ((st (withPin 15 outputPin)).block.pin 15).mode = .output ∧ (st (withPin 15 outputPin)).block.owned 15 = false ∧
    1 < (2 : Byte).toNat ∧ (1 : Byte).toNat = true.toNat ∧ (0 : Byte).toNat = false.toNat := by decide

theorem witness_ReadDigitalAnswersLevel :
    15 < (16 : Byte).toNat ∧ (15 : Byte).toNat = (15 : PinNo).val ∧
    ((st (withPin 15 analogPin)).block.pin 15).mode = .analogOutput ∧
    ((st Block.reset).block.pin 15).mode = .input ∧ ((st kpBlock).block.pin 8).mode = .inputPullUp ∧
    (((st kpBlock).block.pin 0).mode = .output ∧ (st kpBlock).block.owned 0 = true) ∧
    (((st (withPin 15 outputPin)).block.pin 15).mode = .output ∧
      (st (withPin 15 outputPin)).block.owned 15 = false) := by decide

theorem witness_PadFollowsMode :
    (Block.reset.pin 15).mode = .input ∧ (kpBlock.pin 8).mode = .inputPullUp ∧
    ((kpBlock.pin 0).mode = .output ∧ kpBlock.owned 0 = true) ∧
    (((withPin 15 outputPin).pin 15).mode = .output ∧ (withPin 15 outputPin).owned 15 = false) ∧
    ((withPin 15 analogPin).pin 15).mode = .analogOutput := by decide

theorem witness_SetIntensityStopsWaveform :
    15 < (16 : Byte).toNat ∧ (15 : Byte).toNat = (15 : PinNo).val ∧
    ((st Block.reset).block.pin 15).mode ≠ .analogOutput ∧
    ((st (withPin 15 breathingPin)).block.pin 15).mode = .analogOutput := by decide

theorem witness_BlinkArmsWaveform :
    15 < (16 : Byte).toNat ∧ (15 : Byte).toNat = (15 : PinNo).val ∧
    ((st Block.reset).block.pin 15).mode ≠ .analogOutput ∧
    ((st (withPin 15 analogPin)).block.pin 15).mode = .analogOutput ∧
    (st (withPin 15 analogPin)).block.maxMs < (8193 : Half).toNat ∧
    (8192 : Half).toNat ≤ (st (withPin 15 analogPin)).block.maxMs ∧
    (0 : Half).toNat ≤ (st (withPin 15 analogPin)).block.maxMs ∧
    ¬((0 : Half) = 0 ∧ (8192 : Half) = 0) ∧ ¬((8192 : Half) = 0 ∧ (0 : Half) = 0) := by decide

theorem witness_BreatheArmsWaveform :
    15 < (16 : Byte).toNat ∧ (15 : Byte).toNat = (15 : PinNo).val ∧
    ((st Block.reset).block.pin 15).mode ≠ .analogOutput ∧
    ((st (withPin 15 analogPin)).block.pin 15).mode = .analogOutput ∧
    (st (withPin 15 analogPin)).block.maxMs < (8193 : Half).toNat ∧
    (8192 : Half).toNat ≤ (st (withPin 15 analogPin)).block.maxMs ∧
    (0 : Half).toNat ≤ (st (withPin 15 analogPin)).block.maxMs ∧ (8192 : Half) ≠ 0 ∧ (1 : Half) ≠ 0 := by decide

theorem witness_StopRestoresIntensity :
    15 < (16 : Byte).toNat ∧ (15 : Byte).toNat = (15 : PinNo).val ∧
    ((st Block.reset).block.pin 15).mode ≠ .analogOutput ∧
    ((st (withPin 15 breathingPin)).block.pin 15).mode = .analogOutput := by decide

theorem witness_OwnedPinsRejectPinCommands :
    (st kpBlock).block.Inv ∧ (st kpBlock).block.owned 10 = true ∧ (10 : Byte).toNat = (10 : PinNo).val :=
  ⟨kpBlock_inv, by decide, by decide⟩

theorem witness_LedTickAdvancesPhase :
    Pin.reset.Inv ∧ Pin.reset.wave = .none ∧
    (({ blinkingPin with ledCnt := 2046 } : Pin).Inv ∧ blinkingPin.wave ≠ .none ∧ 2046 + 1 < blinkingPin.len .on) ∧
    (({ blinkingPin with ledCnt := 2047 } : Pin).Inv ∧ 2047 + 1 = blinkingPin.len .on) ∧
    (({ blinkingPin with ledPhase := .off, ledCnt := 2047 } : Pin).Inv ∧ 2047 + 1 = blinkingPin.len .off) ∧
    (({ breathingPin with ledCnt := 2047 } : Pin).Inv ∧ 2047 + 1 = breathingPin.len .rise) ∧
    (({ breathingPin with ledPhase := .on, ledCnt := 2047 } : Pin).Inv ∧ 2047 + 1 = breathingPin.len .on) ∧
    (({ breathingPin with ledPhase := .fall, ledCnt := 1023 } : Pin).Inv ∧ 1023 + 1 = breathingPin.len .fall) ∧
    (({ breathingPin with ledPhase := .off, ledCnt := 2047 } : Pin).Inv ∧ 2047 + 1 = breathingPin.len .off) := by
  and_intros <;> decide

theorem witness_LevelFollowsWaveform :
    (analogPin.Inv ∧ analogPin.mode = .analogOutput ∧ analogPin.wave = .none) ∧
    (blinkingPin.Inv ∧ blinkingPin.mode = .analogOutput ∧ blinkingPin.wave = .blink) ∧
    (({ breathingPin with ledCnt := 2047 } : Pin).Inv ∧ breathingPin.mode = .analogOutput ∧
      breathingPin.wave = .breathe ∧ breathingPin.ledPhase = .rise) ∧
    ({ breathingPin with ledPhase := .on } : Pin).Inv ∧
    ({ breathingPin with ledPhase := .fall, ledCnt := 1023 } : Pin).Inv ∧
    ({ breathingPin with ledPhase := .off } : Pin).Inv := by
  and_intros <;> decide

theorem witness_BlinkIsPeriodic :
    blinkingPin.mode = .analogOutput ∧ blinkingPin.wave = .blink ∧ LegalCode blinkingPin.ton ∧
    LegalCode blinkingPin.toff ∧ ¬(blinkingPin.ton = 0 ∧ blinkingPin.toff = 0) ∧ blinkingPin.ledCnt = 0 ∧
    blinkingPin.ledPhase = (if blinkingPin.ton = 0 then .off else .on) := by decide

theorem witness_BreatheIsPeriodic :
    breathingPin.mode = .analogOutput ∧ breathingPin.wave = .breathe ∧ LegalCode breathingPin.ton ∧
    LegalCode breathingPin.toff ∧ LegalCode breathingPin.trise ∧ LegalCode breathingPin.tfall ∧
    breathingPin.trise ≠ 0 ∧ breathingPin.tfall ≠ 0 ∧ breathingPin.ledCnt = 0 ∧ breathingPin.ledPhase = .rise := by
  decide

theorem witness_ConfigureKeypadReplacesConfiguration :
    ¬(1 ≤ (0 : Byte).toNat ∧ (0 : Byte).toNat ≤ 8 ∧ 1 ≤ (8 : Byte).toNat ∧ (8 : Byte).toNat ≤ 8) ∧
    ¬(1 ≤ (8 : Byte).toNat ∧ (8 : Byte).toNat ≤ 8 ∧ 1 ≤ (9 : Byte).toNat ∧ (9 : Byte).toNat ≤ 8) ∧
    (1 ≤ (8 : Byte).toNat ∧ (8 : Byte).toNat ≤ 8 ∧ 1 ≤ (1 : Byte).toNat ∧ (1 : Byte).toNat ≤ 8) ∧
    (st Block.reset).block.maxMs < (8193 : Half).toNat ∧
    encodeMs 8192 Block.reset.clkdiv.toNat = some 29 ∧ encodeMs 2 Block.reset.clkdiv.toNat = some 5 ∧
    encodeMs 1 Block.reset.clkdiv.toNat = some 3 ∧
    (5 : TimeCode).toNat ≤ (5 : TimeCode).toNat ∧ (3 : TimeCode).toNat < (5 : TimeCode).toNat ∧
    -- rows 2, columns 1 over a block with rows 4, columns 3: a kept row, a released row, a kept column, a released
    -- column, and a free pin
    ((1 : PinNo).val < (2 : Byte).toNat ∧ (1 : PinNo).val < 8 ∧ (kpBlock.pin 1).mode = .output ∧ kpBlock.owned 1 = true) ∧
    ((2 : Byte).toNat ≤ (3 : PinNo).val ∧ kpBlock.owned 3 = true ∧ (kpBlock.pin 3).mode ≠ .input) ∧
    (8 ≤ (8 : PinNo).val ∧ (8 : PinNo).val - 8 < (1 : Byte).toNat ∧ (kpBlock.pin 8).mode = .inputPullUp) ∧
    ((1 : Byte).toNat ≤ (10 : PinNo).val - 8 ∧ kpBlock.owned 10 = true ∧ (kpBlock.pin 10).mode ≠ .input) ∧
    ((2 : Byte).toNat ≤ (4 : PinNo).val ∧ kpBlock.owned 4 = false) ∧
    -- rows 8 over the reset block: the last row and column pins change mode
    ((7 : PinNo).val < (8 : Byte).toNat ∧ (Block.reset.pin 7).mode ≠ .output) ∧
    ((15 : PinNo).val - 8 < (8 : Byte).toNat ∧ (Block.reset.pin 15).mode ≠ .inputPullUp) := by decide

/-- 10_state.md R23: an Output pin at level 1 that becomes a row has OUTLVL 0 (log entry 5). -/
theorem test_keypad_clears_taken_output :
    (after (exec (.configureKeypad 4 3 256 2 1) (st highOutput))).map (fun b => ((b.pin 0).mode, (b.pin 0).outlvl))
      = some (.output, false) := by decide

/-- A pin to be taken in another mode, then one already in its role's mode at level 1, then one owned before. -/
theorem witness_ConfigureKeypadSettlesOwnedLevels :
    ((st Block.reset).block.Inv ∧
      response (exec (.configureKeypad 4 3 256 2 1) (st Block.reset)) = some [0x00] ∧
      (after (exec (.configureKeypad 4 3 256 2 1) (st Block.reset))).map (fun b => b.owned 3 && b.owned 10)
        = some true ∧
      (st Block.reset).block.owned 3 = false ∧ ((st Block.reset).block.pin 3).mode ≠ .output) ∧
    ((st highOutput).block.Inv ∧
      response (exec (.configureKeypad 4 3 256 2 1) (st highOutput)) = some [0x00] ∧
      (after (exec (.configureKeypad 4 3 256 2 1) (st highOutput))).map (fun b => b.owned 0) = some true ∧
      (st highOutput).block.owned 0 = false ∧ ((st highOutput).block.pin 0).mode = .output ∧
      ((st highOutput).block.pin 0).outlvl = true) ∧
    ((st kpBlock).block.Inv ∧
      response (exec (.configureKeypad 4 3 256 2 1) (st kpBlock)) = some [0x00] ∧
      (after (exec (.configureKeypad 4 3 256 2 1) (st kpBlock))).map (fun b => b.owned 10) = some true ∧
      (st kpBlock).block.owned 10 = true) := by
  refine ⟨⟨⟨?_, ?_, ?_, ?_, ?_⟩, ?_⟩, ⟨⟨?_, ?_, ?_, ?_, ?_⟩, ?_⟩, ⟨⟨?_, ?_, ?_, ?_, ?_⟩, ?_⟩⟩ <;> decide

theorem witness_ReadKeyDataAnswersWord : (st Block.reset).block.Inv ∧ (st Block.reset).block.kp.en = false :=
  ⟨⟨by decide, by decide, by decide, by decide, by decide⟩, by decide⟩

theorem witness_KeyDecodersAnswerLowestBit :
    (0x00FF : Half).toNat / 256 = 0 ∧ (0xFF00 : Half).toNat % 256 = 0 ∧
    ((0x8000 : Half).getLsbD (8 + 7) = true ∧ ∀ j < 7, (0x8000 : Half).getLsbD (8 + j) = false) ∧
    ((0x0100 : Half).getLsbD (8 + 0) = true) ∧
    ((0x0080 : Half).getLsbD 7 = true ∧ ∀ j < 7, (0x0080 : Half).getLsbD j = false) := by decide

theorem witness_KeypadTickScansRows :
    (Keypad.reset.ConfigOk ∧ Keypad.reset.EngineBounded ∧ Keypad.reset.en = false) ∧
    (kp43.ConfigOk ∧ kp43.EngineBounded ∧ kp43.en = true ∧ kp43.state = .scan ∧ kp43.cnt.toNat + 1 < base kp43.scanCode ∧
      (2 : Fin 8).val ≤ kp43.colsM1.toNat ∧ kp43.colsM1.toNat < (3 : Fin 8).val) ∧
    ((kpLastTick 2).ConfigOk ∧ (kpLastTick 2).EngineBounded ∧ (kpLastTick 2).cnt.toNat + 1 = base (kpLastTick 2).scanCode ∧
      (kpLastTick 2).row.toNat < (kpLastTick 2).rowsM1.toNat ∧ (kpLastTick 2).detected lowCol1 = [1]) ∧
    ((kpLastTick 3).ConfigOk ∧ (kpLastTick 3).EngineBounded ∧ (kpLastTick 3).row = (kpLastTick 3).rowsM1) ∧
    (kpAsleep.ConfigOk ∧ kpAsleep.EngineBounded ∧ kpAsleep.en = true ∧ kpAsleep.state = .sleep) := by
  and_intros <;> decide

theorem witness_KeypadCyclePublishesKeyData :
    ((kpLastTick 3).ConfigOk ∧ (kpLastTick 3).EngineBounded ∧ (kpLastTick 3).en = true ∧ (kpLastTick 3).state = .scan ∧
      (kpLastTick 3).cnt.toNat + 1 = base (kpLastTick 3).scanCode ∧ (kpLastTick 3).row = (kpLastTick 3).rowsM1) ∧
    ((kpLastTick 2).ConfigOk ∧ (kpLastTick 2).EngineBounded ∧ ¬(kpLastTick 2).row = (kpLastTick 2).rowsM1) ∧
    HitsRecorded .zero 0 0 3 [] .zero 0 0 ∧ HitsRecorded .zero 0 0 3 [1] .one 3 1 ∧
    HitsRecorded .one 2 1 3 [1] .many 2 1 ∧ HitsRecorded .zero 0 0 3 [0, 1] .many 3 0 := by
  refine ⟨by decide, by decide, ?_, ?_, ?_, ?_⟩ <;> exact ⟨by decide, by decide, by decide⟩

theorem witness_KeypadSleepsThroughSamples :
    (kpAsleep.ConfigOk ∧ kpAsleep.en = true ∧ kpAsleep.state = .sleep ∧ kpAsleep.cnt = 0 ∧
      ([lowCol1] : List Draws).length < base kpAsleep.sleepCode) ∧
    (({ kpAsleep with sleepCode := 1 } : Keypad).ConfigOk ∧ ({ kpAsleep with sleepCode := 1 } : Keypad).sleepCode ≠ 0 ∧
      ([lowCol1, lowCol1] : List Draws).length = base ({ kpAsleep with sleepCode := 1 } : Keypad).sleepCode) ∧
    kp43.state = .scan := by decide

/-- KPSLEEP 1 tick, KPSCAN 8 ticks, 4 rows: a cycle of 34 ticks; its last scan position, its sleep, and the last
tick before anything is published. -/
theorem witness_KeypadScanPosition :
    LegalCode 1 ∧ LegalCode 5 ∧ LegalCode 3 ∧ (3 : TimeCode).toNat < (5 : TimeCode).toNat ∧
    32 = ((3 : BitVec 3).toNat + 1) * base 5 ∧
    (31 = (List.replicate 65 lowCol1).length % (32 + base 1) ∧ 31 < 32) ∧
    (33 = (List.replicate 67 lowCol1).length % (32 + base 1) ∧ 32 ≤ 33) ∧
    (List.replicate 31 lowCol1).length < 32 := by decide

/-- Row 0 and the last row, each with no earlier detection and with one. -/
theorem witness_HeldKeyIsDetected :
    (∀ k ∈ [kp43, { kp43 with row := 3 }, { kp43 with hits := .one }, { kp43 with row := 3, hits := .many }],
      k.ConfigOk ∧ k.en = true ∧ k.state = .scan ∧ k.cnt = 0 ∧ (∀ x : Fin 8, k.run.get x = 0) ∧
      k.row.toNat ≤ k.rowsM1.toNat ∧ (1 : Fin 8).val ≤ k.colsM1.toNat ∧
      (List.replicate 7 lowCol1).length + 1 = base k.scanCode) ∧
    (∀ d ∈ List.replicate 7 lowCol1 ++ [lowCol1], d.pinIn.getLsbD (8 + (1 : Fin 8).val) = false) ∧
    (∀ x : Fin 8, x ≠ 1 → x.val ≤ kp43.colsM1.toNat → lowCol1.pinIn.getLsbD (8 + x.val) = true) ∧
    kp43.row.toNat < kp43.rowsM1.toNat ∧ kp43.hits = .zero ∧
    ({ kp43 with row := 3 } : Keypad).row = kp43.rowsM1 ∧ KpHits.one ≠ .zero ∧ KpHits.many ≠ .zero := by decide

theorem witness_SetEdgeSenseWritesSense :
    15 < (16 : Byte).toNat ∧ (15 : Byte).toNat = (15 : PinNo).val ∧ 3 < (4 : Byte).toNat ∧
    (0 : Byte).toNat = Sense.none.toBits.toNat ∧ (3 : Byte).toNat = Sense.both.toBits.toNat := by decide

theorem witness_SetMaskWritesMask :
    15 < (16 : Byte).toNat ∧ (15 : Byte).toNat = (15 : PinNo).val ∧ 1 < (2 : Byte).toNat ∧
    (0 : Byte).toNat = false.toNat ∧ (1 : Byte).toNat = true.toNat := by decide

theorem witness_SetGlobalDebounceWritesDbtime :
    (st Block.reset).block.maxMs < (8193 : Half).toNat ∧ (8192 : Half).toNat ≤ (st Block.reset).block.maxMs := by decide

theorem witness_EnableDebounceRestartsCount :
    15 < (16 : Byte).toNat ∧ (3 : Byte).toNat = (3 : PinNo).val ∧ 1 < (2 : Byte).toNat ∧
    (0 : Byte).toNat = false.toNat ∧ (1 : Byte).toNat = true.toNat ∧
    ((st (withPin 3 { watchedPin with dben := true, dbCnt := 3 })).block.pin 3).dben ≠ false ∧
    ((st (withPin 3 { watchedPin with dben := true, dbCnt := 3 })).block.pin 3).dben = true := by decide

theorem witness_ReadSourceReturnsAndClears :
    exec .readSource State.reset =
      .next { State.reset with
        block := Block.reset.mapPins fun _ q => { q with source := false }, outbox := [[0x00, 0x00, 0x00]] } := by rfl

theorem witness_DetectorStartsWithoutEdge :
    outputPin.mode = .output ∧ analogPin.mode = .analogOutput ∧ watchedPin.mode ≠ .output ∧
    (Pin.reset.mode = .input ∧ Pin.reset.detValid = false) := by decide

theorem witness_AcceptedEdgeLatches :
    watchedPin.mode = .input ∧ watchedPin.detValid = true ∧ false ≠ watchedPin.detLvl ∧ watchedPin.dben = false ∧
    max (base 3) 1 ≤ ({ watchedPin with dben := true, dbCnt := 3 } : Pin).dbCnt.toNat + 1 ∧
    ({ watchedPin with dben := true, dbCnt := 2 } : Pin).dbCnt.toNat + 1 < max (base 3) 1 ∧
    true = watchedPin.detLvl := by decide

theorem witness_DebounceNeedsConsecutiveSamples :
    ({ watchedPin with dben := true } : Pin).mode = .input ∧ ({ watchedPin with dben := true } : Pin).detValid = true ∧
    ({ watchedPin with dben := true } : Pin).dben = true ∧ ({ watchedPin with dben := true } : Pin).cfgwin = false ∧
    ({ watchedPin with dben := true } : Pin).dbCnt = 0 ∧ LegalCode 3 ∧
    (∀ x ∈ List.replicate 4 (false, false), x.1 = !watchedPin.detLvl) ∧
    (List.replicate 3 (false, false)).length < max (base 3) 1 ∧
    (List.replicate 4 (false, false)).length = max (base 3) 1 := by decide

theorem witness_TickLatchesOnlyWantedEdges :
    ((withPin 3 watchedPin).pin 3).source = false ∧
    (((withPin 3 watchedPin).tick ⟨0xFFF7, 0, 0⟩).pin 3).source = true := by decide

theorem witness_CommandsNeverLatchSource :
    (after (exec (.setMask 3 1) (st (withPin 3 { watchedPin with source := true })))).map
      (fun b => (b.pin 3).source) = some true := by decide

theorem witness_IrqIsPendingSource :
    (3 : Byte).toNat = (3 : PinNo).val ∧
    (∀ r, r ≠ (3 : PinNo) → ((withPin 3 { watchedPin with source := true }).pin r).source = false) ∧
    (withPin 3 { watchedPin with source := true }).irq = true := by decide

theorem witness_ReadRegPeeksView :
    0xA0 ≤ (0xA0 : Byte).toNat ∧ (0x20 ≤ (0x26 : Byte).toNat ∧ 6 ≤ ((0x26 : Byte).toNat - 0x20) % 8) ∧
    ((0x9D : Byte).toNat < 0xA0 ∧ ((0x9D : Byte).toNat - 0x20) % 8 < 6) ∧
    ((0x1F : Byte).toNat < 0xA0 ∧ ¬0x20 ≤ (0x1F : Byte).toNat) := by decide

theorem witness_StepKeepsInv : (st (kpBlock.setPin 5 breathingPin)).block.Inv := busyBlock_inv

theorem witness_FailedCommandChangesNothing :
    response (exec (.blink 16 0 0) State.reset) = some [0x01] ∧
    response (exec (.decodeRow 0) State.reset) = some [0x05] := by decide

theorem witness_CommandsAreIdempotent :
    exec (.setDivider 7) State.reset =
      .next { State.reset with block := { Block.reset with clkdiv := 7 }, outbox := [[0x00]] } ∧
    exec (.setDivider 7) { State.reset with block := { Block.reset with clkdiv := 7 }, outbox := [[0x00]] } =
      .next { State.reset with block := { Block.reset with clkdiv := 7 }, outbox := [[0x00], [0x00]] } :=
  ⟨rfl, rfl⟩

theorem witness_EarlierResponsesAreNotRead :
    State.reset.block = ({ State.reset with outbox := [[0x06]] } : State).block ∧
    State.reset.draws = ({ State.reset with outbox := [[0x06]] } : State).draws := by decide

theorem witness_FieldsHaveOnlyTheirWriters :
    exec (.setDivider 7) State.reset =
      .next { State.reset with block := { Block.reset with clkdiv := 7 }, outbox := [[0x00]] } ∧
    (Instr.setDivider 7).mnemonic ∉ [.setGlobalDebounce, .reset] ∧ (Instr.setMask 0 0).mnemonic ∉ [.setDivider, .reset] ∧
    (Instr.setDivider 7).mnemonic ∉ [.readSource, .setMask, .setEdgeSense, .reset] ∧
    (Instr.setDivider 7).mnemonic ∉ [.setMode, .configureKeypad, .setEdgeSense, .setMask, .enableDebounce, .reset] :=
  ⟨rfl, by decide, by decide, by decide, by decide⟩

theorem witness_OperandsOutOfRangeFail :
    (Instr.setMode 16 0).wellFormed = false ∧ (Instr.codecDecode 30 0).wellFormed = false ∧
    (Instr.readReg 0xFF).wellFormed = false := by decide

end Sys2Proof.Tests
end

section
/-! Decoding by rows (30_encoding.md R81, R84, R85): what each format's reader makes of the bytes after the opcode,
which opcodes select no row, and so exactly which frames are illegal. -/

namespace Sys2Proof

/-! ### The readers of the ten formats -/

/-- A reader for row `m`: it makes of every byte string of the format's length the command whose frame the string
completes, and rejects every other string. -/
structure ReadsFramesOf (m : Mnemonic) (read : List Byte → Option Instr) : Prop where
  accepts : ∀ {args}, args.length + 1 = (formatOf m).length →
    ∃ i, read args = some i ∧ encode i = opcodeOf m :: args
  rejects : ∀ {args}, args.length + 1 ≠ (formatOf m).length → read args = none

section Readers

variable {m : Mnemonic}

theorem readOp_readsFramesOf {i : Instr} (hl : (formatOf m).length = 1) (he : encode i = [opcodeOf m]) :
    ReadsFramesOf m (readOp i) where
  accepts {args} h := by
    rw [hl] at h
    obtain rfl := List.eq_nil_of_length_eq_zero (Nat.succ.inj h)
    exact ⟨_, rfl, he⟩
  rejects h := by
    unfold readOp
    split
    exacts [absurd hl.symm h, rfl]

theorem readB_readsFramesOf {k : Byte → Instr} (hl : (formatOf m).length = 2)
    (he : ∀ x, encode (k x) = [opcodeOf m, x]) : ReadsFramesOf m (readB k) where
  accepts {args} h := by
    rw [hl] at h
    obtain ⟨_, rfl⟩ := List.length_eq_one_iff.mp (Nat.succ.inj h)
    exact ⟨_, rfl, he _⟩
  rejects h := by
    unfold readB
    split
    exacts [absurd hl.symm h, rfl]

theorem readBB_readsFramesOf {k : Byte → Byte → Instr} (hl : (formatOf m).length = 3)
    (he : ∀ x y, encode (k x y) = [opcodeOf m, x, y]) : ReadsFramesOf m (readBB k) where
  accepts {args} h := by
    rw [hl] at h
    let [_, _] := args
    exact ⟨_, rfl, he _ _⟩
  rejects h := by
    unfold readBB
    split
    exacts [absurd hl.symm h, rfl]

theorem readW_readsFramesOf {k : Half → Instr} (hl : (formatOf m).length = 3)
    (he : ∀ w, encode (k w) = opcodeOf m :: bytes16 w) : ReadsFramesOf m (readW k) where
  accepts {args} h := by
    rw [hl] at h
    let [_, _] := args
    exact ⟨_, rfl, by simp [he]⟩
  rejects h := by
    unfold readW
    split
    exacts [absurd hl.symm h, rfl]

theorem readWB_readsFramesOf {k : Half → Byte → Instr} (hl : (formatOf m).length = 4)
    (he : ∀ w x, encode (k w x) = opcodeOf m :: (bytes16 w ++ [x])) : ReadsFramesOf m (readWB k) where
  accepts {args} h := by
    rw [hl] at h
    let [_, _, _] := args
    exact ⟨_, rfl, by simp [he]⟩
  rejects h := by
    unfold readWB
    split
    exacts [absurd hl.symm h, rfl]

theorem readPinWW_readsFramesOf {k : Byte → Half → Half → Instr} (hl : (formatOf m).length = 6)
    (he : ∀ p v w, encode (k p v w) = opcodeOf m :: p :: (bytes16 v ++ bytes16 w)) :
    ReadsFramesOf m (readPinWW k) where
  accepts {args} h := by
    rw [hl] at h
    let [_, _, _, _, _] := args
    exact ⟨_, rfl, by simp [he]⟩
  rejects h := by
    unfold readPinWW
    split
    exacts [absurd hl.symm h, rfl]

theorem readPinWWWW_readsFramesOf {k : Byte → Half → Half → Half → Half → Instr}
    (hl : (formatOf m).length = 10)
    (he : ∀ p u v w x,
      encode (k p u v w x) = opcodeOf m :: p :: (bytes16 u ++ bytes16 v ++ bytes16 w ++ bytes16 x)) :
    ReadsFramesOf m (readPinWWWW k) where
  accepts {args} h := by
    rw [hl] at h
    let [_, _, _, _, _, _, _, _, _] := args
    exact ⟨_, rfl, by simp [he]⟩
  rejects h := by
    unfold readPinWWWW
    split
    exacts [absurd hl.symm h, rfl]

theorem readKp_readsFramesOf {k : Byte → Byte → Half → Half → Half → Instr} (hl : (formatOf m).length = 9)
    (he : ∀ r c u v w, encode (k r c u v w) = opcodeOf m :: r :: c :: (bytes16 u ++ bytes16 v ++ bytes16 w)) :
    ReadsFramesOf m (readKp k) where
  accepts {args} h := by
    rw [hl] at h
    let [_, _, _, _, _, _, _, _] := args
    exact ⟨_, rfl, by simp [he]⟩
  rejects h := by
    unfold readKp
    split
    exacts [absurd hl.symm h, rfl]

end Readers

/-- Every row of the opcode map reads exactly the frames of its format. -/
theorem readOperands_readsFramesOf : ∀ m, ReadsFramesOf m (readOperands m)
  | .setMode => readBB_readsFramesOf rfl fun _ _ => rfl
  | .writeDigital => readBB_readsFramesOf rfl fun _ _ => rfl
  | .readDigital => readB_readsFramesOf rfl fun _ => rfl
  | .setIntensity => readBB_readsFramesOf rfl fun _ _ => rfl
  | .blink => readPinWW_readsFramesOf rfl fun _ _ _ => rfl
  | .breathe => readPinWWWW_readsFramesOf rfl fun _ _ _ _ _ => rfl
  | .stop => readB_readsFramesOf rfl fun _ => rfl
  | .configureKeypad => readKp_readsFramesOf rfl fun _ _ _ _ _ => rfl
  | .readKeyData => readOp_readsFramesOf rfl rfl
  | .decodeRow => readW_readsFramesOf rfl fun _ => rfl
  | .decodeCol => readW_readsFramesOf rfl fun _ => rfl
  | .setEdgeSense => readBB_readsFramesOf rfl fun _ _ => rfl
  | .setMask => readBB_readsFramesOf rfl fun _ _ => rfl
  | .setGlobalDebounce => readW_readsFramesOf rfl fun _ => rfl
  | .enableDebounce => readBB_readsFramesOf rfl fun _ _ => rfl
  | .readSource => readOp_readsFramesOf rfl rfl
  | .codecEncode => readWB_readsFramesOf rfl fun _ _ => rfl
  | .codecDecode => readBB_readsFramesOf rfl fun _ _ => rfl
  | .setDivider => readB_readsFramesOf rfl fun _ => rfl
  | .readReg => readB_readsFramesOf rfl fun _ => rfl
  | .reset => readOp_readsFramesOf rfl rfl

/-! ### The opcodes that select a row -/

theorem mnemonicOf_eq_some_iff {op : Byte} {m : Mnemonic} : mnemonicOf op = some m ↔ opcodeOf m = op :=
  ⟨opcodeOf_of_mnemonicOf, fun h => h ▸ mnemonicOf_opcodeOf m⟩

/-- No row of the opcode map has an opcode that 30_encoding.md R85 reserves. -/
theorem not_reservedOpcode_opcodeOf (m : Mnemonic) : ¬ Machine.ReservedOpcode (opcodeOf m).toNat := by
  unfold Machine.ReservedOpcode
  cases m <;> decide

/-- The opcodes without a row are those that 30_encoding.md R85 reserves. -/
theorem mnemonicOf_eq_none_iff {op : Byte} : mnemonicOf op = none ↔ Machine.ReservedOpcode op.toNat := by
  constructor
  · intro hnone
    have hop : op.toNat < 256 := op.isLt
    simp only [mnemonicOf, List.find?_eq_none, allMnemonics, List.forall_mem_cons, opcodeOf, beq_iff_eq,
      ← BitVec.toNat_inj, BitVec.reduceToNat] at hnone
    unfold Machine.ReservedOpcode
    omega
  · intro hres
    refine Option.eq_none_iff_forall_ne_some.mpr fun m hm => not_reservedOpcode_opcodeOf m ?_
    rwa [opcodeOf_of_mnemonicOf hm]

/-! ### Illegal and legal frames -/

/-- The frames of 30_encoding.md R85: a reserved opcode, or a length that is not the format's. -/
def IllegalFrame (op : Byte) (args : List Byte) : Prop :=
  Machine.ReservedOpcode op.toNat ∨ ∃ m, opcodeOf m = op ∧ args.length + 1 ≠ (formatOf m).length

/-- The decoder rejects an illegal frame. -/
theorem decode_of_illegalFrame {op : Byte} {args : List Byte} (h : IllegalFrame op args) :
    ∃ e, decode (op :: args) = .error e := by
  obtain hres | ⟨m, hm, hlen⟩ := h
  · exact ⟨_, decode_of_reserved (mnemonicOf_eq_none_iff.mpr hres) args⟩
  · have hread : readOperands m args = none := (readOperands_readsFramesOf m).rejects hlen
    exact ⟨_, by rw [decode_of_row (mnemonicOf_eq_some_iff.mpr hm), hread]⟩

/-- Every other frame is the frame of the command it decodes to. -/
theorem decode_of_not_illegalFrame {op : Byte} {args : List Byte} (h : ¬ IllegalFrame op args) :
    ∃ i, decode (op :: args) = .ok i ∧ encode i = op :: args := by
  obtain ⟨hres, hlen⟩ := not_or.mp h
  obtain ⟨m, hm⟩ := Option.ne_none_iff_exists'.mp (mt mnemonicOf_eq_none_iff.mp hres)
  have hop : opcodeOf m = op := opcodeOf_of_mnemonicOf hm
  have hargs : args.length + 1 = (formatOf m).length := by
    by_contra hne
    exact hlen ⟨m, hop, hne⟩
  obtain ⟨i, hread, henc⟩ := (readOperands_readsFramesOf m).accepts hargs
  exact ⟨i, by rw [decode_of_row hm, hread], hop ▸ henc⟩

end Sys2Proof

namespace Sys2Proof.Machine

/-! ### A step on a frame -/

section StepOnFrame

variable {s : State} {op : Byte} {args : List Byte} {d : Draws} {rest : List Event}

/-- A frame that decodes runs its command, with the frame's draws. -/
theorem step_of_decode_ok {i : Instr} (hs : s.inbox = .frame op args d :: rest)
    (hd : decode (op :: args) = .ok i) : step s = exec i { s with inbox := rest, draws := d } := by
  simp only [step, State.fetch_of_cons hs, hd, Event.draws]

/-- A frame that the decoder rejects is answered IllegalCommand. -/
theorem step_of_decode_error {e : DecodeError} (hs : s.inbox = .frame op args d :: rest)
    (hd : decode (op :: args) = .error e) :
    step s = ({ s with inbox := rest, draws := d } : State).raise .illegalCommand := by
  simp only [step, State.fetch_of_cons hs, hd, Event.draws]

end StepOnFrame

/-- Settles O3: the illegal frames are exactly those the decoder rejects, and a frame it accepts is the frame of the
command it gives. -/
theorem illegalFramesAnswerIllegalCommand : Obligations.IllegalFramesAnswerIllegalCommand := by
  intro s op args d rest hs
  constructor
  · intro hillegal
    obtain ⟨e, hd⟩ := decode_of_illegalFrame hillegal
    exact ⟨_, step_of_decode_error hs hd, rfl, rfl, rfl⟩
  · intro hlegal
    obtain ⟨i, hd, henc⟩ := decode_of_not_illegalFrame hlegal
    exact ⟨i, henc, step_of_decode_ok hs hd⟩

end Sys2Proof.Machine
end

section
/-! The timing codec (41_timing_codec.md): ENC_T against the midpoints between the durations of two codes, what encode
and decode give at every divider exponent, and the three codec commands. -/

namespace Sys2Proof.Machine

/-! ### The nearest code (R103) -/

/-- Of two durations with midpoint at most `t`, the longer is at least as near to `t`. -/
theorem dist_le_of_add_le {a b t : Nat} (hab : a ≤ b) (h : a + b ≤ 2 * t) : Nat.dist b t ≤ Nat.dist a t := by
  unfold Nat.dist
  omega

/-- Of two durations with midpoint above `t`, the shorter is nearer to `t`. -/
theorem dist_lt_of_lt_add {a b t : Nat} (hab : a < b) (h : 2 * t < a + b) : Nat.dist a t < Nat.dist b t := by
  unfold Nat.dist
  omega

/-- ENC_T rounds the floor code up exactly where the midpoint to the next code is at most `t`. -/
theorem encTicks_cases (t : Nat) :
    (floorCode 29 t = 29 ∧ encTicks t = floorCode 29 t) ∨
    (floorCode 29 t < 29 ∧ encTicks t = floorCode 29 t + 1 ∧
      baseOf (floorCode 29 t) + baseOf (floorCode 29 t + 1) ≤ 2 * t) ∨
    (floorCode 29 t < 29 ∧ encTicks t = floorCode 29 t ∧
      2 * t < baseOf (floorCode 29 t) + baseOf (floorCode 29 t + 1)) := by
  have hle := (floorCode_spec 29 t).1
  rw [encTicks_eq]
  split
  · next hmax => exact .inl ⟨hmax, hmax.symm⟩
  · next hmax =>
    have hlt := lt_of_le_of_ne hle hmax
    split
    · next hup => exact .inr (.inl ⟨hlt, rfl, hup⟩)
    · next hdown => exact .inr (.inr ⟨hlt, rfl, lt_of_not_ge hdown⟩)

/-- The midpoint between ENC_T(t) and any smaller code is at most `t`. -/
theorem baseOf_add_le_of_lt_encTicks {k t : Nat} (hk : k < encTicks t) :
    baseOf k + baseOf (encTicks t) ≤ 2 * t := by
  obtain ⟨hle, hfloor, -⟩ := floorCode_spec 29 t
  have hbelow {j : Nat} (hj : j ≤ floorCode 29 t) := baseOf_le_baseOf hj hle
  obtain ⟨-, he⟩ | ⟨-, he, hup⟩ | ⟨-, he, -⟩ := encTicks_cases t <;> rw [he] at hk ⊢
  · have hbase := hbelow hk.le
    omega
  · have hbase := hbelow (Nat.le_of_lt_succ hk)
    omega
  · have hbase := hbelow hk.le
    omega

/-- The midpoint between ENC_T(t) and any larger legal code is above `t`. -/
theorem lt_baseOf_add_of_encTicks_lt {k t : Nat} (hk : encTicks t < k) (hmax : k ≤ 29) :
    2 * t < baseOf (encTicks t) + baseOf k := by
  obtain ⟨-, -, habove⟩ := floorCode_spec 29 t
  obtain ⟨hn, he⟩ | ⟨hn, he, -⟩ | ⟨hn, he, hdown⟩ := encTicks_cases t <;> rw [he] at hk ⊢
  · omega
  · have hnext := habove (floorCode 29 t + 1) (by omega) hn
    have hthis := habove k (by omega) hmax
    omega
  · have hnext : baseOf (floorCode 29 t + 1) ≤ baseOf k := baseOf_le_baseOf hk hmax
    omega

/-- Settles O8: a smaller code is no nearer and a larger one is farther, by the midpoints. -/
theorem encodePicksNearestTieToLarger : Obligations.EncodePicksNearestTieToLarger := by
  intro t _
  refine ⟨encTicks_le t, fun k hk => ?_⟩
  obtain hlt | rfl | hgt := lt_trichotomy k (encTicks t)
  · have hb := baseOf_le_baseOf hlt.le (encTicks_le t)
    exact ⟨dist_le_of_add_le hb (baseOf_add_le_of_lt_encTicks hlt), fun _ => hlt.le⟩
  · exact ⟨le_rfl, fun _ => le_rfl⟩
  · have hb := baseOf_lt_baseOf hgt hk
    have hfar := dist_lt_of_lt_add hb (lt_baseOf_add_of_encTicks_lt hgt hk)
    exact ⟨hfar.le, fun htie => absurd htie hfar.ne'⟩

/-! ### Encode (R104) -/

/-- encode fails as a duration command does on a block whose CLKDIV is the exponent. -/
theorem encodeMs_eq_none_iff_shiftRight_lt {ms : Half} {dv : Nat} (hdv : dv ≤ 7) :
    encodeMs ms dv = none ↔ 8192 >>> dv < ms.toNat := by
  obtain ⟨d, rfl⟩ : ∃ d : BitVec 3, d.toNat = dv :=
    ⟨BitVec.ofNatLT dv (Nat.lt_succ_of_le hdv), BitVec.toNat_ofNatLT ..⟩
  exact encodeDuration_eq_none_iff (b := { Block.reset with clkdiv := d })

/-- Settles O9: the range check from the duration commands, the code from `encodeMs_eq_some_iff`. -/
theorem encodeFailsExactlyOverRange : Obligations.EncodeFailsExactlyOverRange := by
  intro ms dv hdv
  exact ⟨encodeMs_eq_none_iff_shiftRight_lt hdv,
    fun c hc => ⟨encodeMs_legal hc, (encodeMs_eq_some_iff.mp hc).2⟩⟩

theorem exists_encodeMs {ms : Half} {dv : Nat} (h : ms.toNat * 4 * 2 ^ dv ≤ 32768) :
    ∃ c, encodeMs ms dv = some c ∧ c.toNat = encTicks (ms.toNat * 4 * 2 ^ dv) := by
  obtain ⟨c, hc⟩ := Option.ne_none_iff_exists'.mp (mt encodeMs_eq_none_iff.mp h.not_gt)
  exact ⟨c, hc, (encodeMs_eq_some_iff.mp hc).2⟩

/-! ### Decode (R105) -/

/-- At a legal exponent the shift of `decodeUnits` loses no bit, so the duration is exact. -/
theorem decodeUnits_mul_pow (n : Nat) {dv : Nat} (hdv : dv ≤ 8) : decodeUnits n dv * 2 ^ dv = baseOf n * 256 := by
  have hdvd : 2 ^ dv ∣ baseOf n * 256 := (pow_dvd_pow 2 hdv : 2 ^ dv ∣ 2 ^ 8).mul_left _
  rw [decodeUnits, Nat.shiftRight_eq_div_pow, Nat.div_mul_cancel hdvd]

/-- A legal code lasts at most 8192 ms at any exponent. -/
theorem decodeUnits_le {n : Nat} (hn : n ≤ 29) (dv : Nat) : decodeUnits n dv ≤ 8388608 := by
  have hbase : baseOf n ≤ 32768 := baseOf_max ▸ baseOf_le_baseOf hn le_rfl
  calc decodeUnits n dv ≤ baseOf n * 256 := Nat.shiftRight_le _ _
    _ ≤ 8388608 := by omega

theorem extractByte_ofNat (v : Nat) {i : Nat} (hi : i + 8 ≤ 32) :
    (BitVec.ofNat 32 v).extractLsb' i 8 = BitVec.ofNat 8 (v / 2 ^ i) := by
  ext j hj
  have hbit : i + j < 32 := by omega
  rw [BitVec.getElem_extractLsb', ← BitVec.getLsbD_eq_getElem, BitVec.getLsbD_ofNat, BitVec.getLsbD_ofNat,
    Nat.testBit_div_two_pow, Nat.add_comm j]
  simp only [hj, hbit]

theorem bytes32_ofNat (v : Nat) :
    bytes32 (BitVec.ofNat 32 v) =
      [BitVec.ofNat 8 (v / 2 ^ 24), BitVec.ofNat 8 (v / 2 ^ 16), BitVec.ofNat 8 (v / 2 ^ 8), BitVec.ofNat 8 v] := by
  have hlow := extractByte_ofNat v (i := 0) (by decide)
  rw [pow_zero, Nat.div_one] at hlow
  simp only [bytes32, hlow, extractByte_ofNat v, Nat.reduceAdd, Nat.reduceLeDiff]

/-! ### The commands (R108 to R110) -/

theorem exists_dvOperand {x : Byte} (h : x.toNat ≤ 7) : ∃ d, dvOperand x = some d ∧ d.toNat = x.toNat := by
  obtain ⟨d, hd⟩ := Option.ne_none_iff_exists'.mp (mt dvOperand_eq_none_iff.mp h.not_gt)
  exact ⟨d, hd, dvOperand_eq_some_iff.mp hd⟩

theorem exists_codeOperand {x : Byte} (h : x.toNat ≤ 29) : ∃ c, codeOperand x = some c ∧ c.toNat = x.toNat := by
  obtain ⟨c, hc⟩ := Option.ne_none_iff_exists'.mp (mt codeOperand_eq_none_iff.mp h.not_gt)
  exact ⟨c, hc, (codeOperand_eq_some_iff.mp hc).1⟩

/-- Settles O11: one case per answer of R108, in its order. -/
theorem codecEncodeAnswersCode : Obligations.CodecEncodeAnswersCode := by
  intro ms dv s
  refine ⟨rfl, fun hdv => ?_, fun hdv hms => ?_, fun hdv hms => ?_⟩
  · have hd := dvOperand_eq_none_iff.mpr hdv
    exact answersError_of_raise (st := .invalidParameter) (by simp only [exec, execCodecEncode, hd])
  · obtain ⟨d, hd, hval⟩ := exists_dvOperand hdv
    have hc := encodeMs_eq_none_iff.mpr (hval ▸ hms)
    exact answersError_of_raise (st := .outOfRange) (by simp only [exec, execCodecEncode, hd, hc])
  · obtain ⟨d, hd, hval⟩ := exists_dvOperand hdv
    obtain ⟨c, hc, hcode⟩ := exists_encodeMs (hval ▸ hms)
    rw [← hval, ← hcode, BitVec.ofNat_toNat]
    exact answersOk_of_finish (by simp only [exec, execCodecEncode, hd, hc]) rfl

/-- Settles O12: the duration is `decodeUnits` of the operands' values. -/
theorem codecDecodeAnswersExactDuration : Obligations.CodecDecodeAnswersExactDuration := by
  intro code dv s
  refine ⟨rfl, fun hbad => ?_, fun hcode hdv => ?_⟩
  · refine answersError_of_raise (st := .invalidParameter) ?_
    simp only [exec, execCodecDecode]
    obtain hcode | hdv := hbad
    · rw [codeOperand_eq_none_iff.mpr hcode]
    · rw [dvOperand_eq_none_iff.mpr hdv]
      split <;> rfl
  · obtain ⟨c, hc, hcval⟩ := exists_codeOperand hcode
    obtain ⟨d, hd, hdval⟩ := exists_dvOperand hdv
    refine ⟨decodeUnits code.toNat dv.toNat, decodeUnits_mul_pow _ (by omega), decodeUnits_le hcode _, ?_⟩
    rw [← bytes32_ofNat, ← hcval, ← hdval]
    exact answersOk_of_finish (by simp only [exec, execCodecDecode, hc, hd]) rfl

/-- Settles O13: the success case writes one field of the block. -/
theorem setDividerWritesClkdivOnly : Obligations.SetDividerWritesClkdivOnly := by
  intro dv s
  refine ⟨rfl, fun hdv => ?_, fun hdv => ?_⟩
  · have hd := dvOperand_eq_none_iff.mpr hdv
    exact answersError_of_raise (st := .invalidParameter) (by simp only [exec, execSetDivider, hd])
  · obtain ⟨d, hd, hval⟩ := exists_dvOperand hdv
    exact answersOk_of_finish (b := { s.block with clkdiv := d }) (by simp only [exec, execSetDivider, hd])
      ⟨hval, rfl, rfl, s.block.pin_withClkdiv d⟩

end Sys2Proof.Machine
end

section
/-! Pin configuration (42_pin_config.md): what a mode transition makes of a pin, the level the block drives on an Output
pin, and the three pin commands with the pads. -/

namespace Sys2Proof.Machine

/-! ### SET_MODE (R121, R122) -/

/-- A new mode makes of the pin what R122 lists, with the LED profile cleared or kept by the mode it leaves. -/
theorem Pin.modeTransition_applyMode {q : Pin} {m : Mode} (h : q.mode ≠ m) : ModeTransition q (q.applyMode m) m := by
  by_cases ha : q.mode = .analogOutput
  · rw [Pin.applyMode_of_analog h ha]
    exact ⟨rfl, rfl, rfl, rfl, rfl, ⟨rfl, rfl, rfl, rfl⟩, rfl,
      fun _ => ⟨rfl, rfl, rfl, rfl, rfl, rfl, rfl, rfl⟩, fun hne => absurd ha hne⟩
  · rw [Pin.applyMode_of_ne h ha]
    exact ⟨rfl, rfl, rfl, rfl, rfl, ⟨rfl, rfl, rfl, rfl⟩, rfl,
      fun he => absurd he ha, fun _ => ⟨rfl, rfl, rfl, rfl, rfl, rfl, rfl, rfl⟩⟩

/-- Settles O14: the success case writes `applyMode` of the one pin. -/
theorem setModeAppliesTransition : Obligations.SetModeAppliesTransition := by
  intro pin mode s
  refine ⟨rfl, fun hpin => ?_, fun p hpin => ⟨fun howned => ?_, fun hfree hmode => ?_, fun m hfree hmode => ?_⟩⟩
  · have hp := pinOperand_eq_none_iff.mpr hpin
    exact answersError_of_raise (st := .invalidPin) (by simp only [exec, execSetMode, hp])
  all_goals have hp := pinOperand_eq_some_iff.mpr hpin
  · exact answersError_of_raise (st := .wrongMode) (by simp only [exec, execSetMode, hp, howned, if_true])
  · have hm := modeOperand_eq_none_iff.mpr hmode
    exact answersError_of_raise (st := .invalidParameter) (by simp [exec, execSetMode, hp, hfree, hm])
  · have hm := modeOperand_eq_some_iff.mpr hmode
    refine answersOk_of_finish (b := s.block.setPin p ((s.block.pin p).applyMode m))
      (by simp [exec, execSetMode, hp, hfree, hm]) ⟨onlyPinChanged_setPin _ _ _, fun hsame => ?_, fun hne => ?_⟩
    · rw [Block.pin_setPin_same, Pin.applyMode_same hsame]
    · rw [Block.pin_setPin_same]
      exact Pin.modeTransition_applyMode hne

/-! ### WRITE_DIGITAL (R123) -/

/-- Settles O15: the success case writes OUTLVL of the one pin. -/
theorem writeDigitalWritesOutlvl : Obligations.WriteDigitalWritesOutlvl := by
  intro pin level s
  refine ⟨rfl, fun hpin => ?_, fun p hpin => ⟨fun hbad => ?_, fun hout hfree hlevel => ?_,
    fun v hout hfree hlevel => ?_⟩⟩
  · have hp := pinOperand_eq_none_iff.mpr hpin
    exact answersError_of_raise (st := .invalidPin) (by simp only [exec, execWriteDigital, hp])
  all_goals have hp := pinOperand_eq_some_iff.mpr hpin
  · exact answersError_of_raise (st := .wrongMode) (by simp only [exec, execWriteDigital, hp, if_pos hbad])
  · have hv := bitOperand_eq_none_iff.mpr hlevel
    exact answersError_of_raise (st := .invalidParameter) (by simp [exec, execWriteDigital, hp, hout, hfree, hv])
  · have hv := bitOperand_eq_some_iff.mpr hlevel
    exact answersOk_of_finish (b := s.block.setPin p { s.block.pin p with outlvl := v })
      (by simp [exec, execWriteDigital, hp, hout, hfree, hv])
      ⟨onlyPinChanged_setPin _ _ _, Block.pin_setPin_same _ _ _⟩

/-! ### The level of a pin, read and driven (R124, R125, R174) -/

/-- The scan drives a row high unless it is the current row of SCAN. -/
theorem Keypad.drive_eq (k : Keypad) (p : PinNo) : k.drive p = decide ¬(k.state = .scan ∧ k.row.toNat = p.val) := by
  simp only [Keypad.drive, Bool.beq_eq_decide_eq, decide_not, Bool.decide_and]

/-- The level the scan drives, as READ_DIGITAL returns it. -/
theorem Keypad.bitByte_drive (k : Keypad) (p : PinNo) :
    bitByte (k.drive p) = if k.state = .scan ∧ k.row.toNat = p.val then 0 else 1 := by
  simp only [bitByte, Keypad.drive_eq, decide_eq_true_eq, ite_not]

/-- READ_DIGITAL answers the level of a pin that has one. -/
theorem answersOk_readDigital {pin : Byte} {s : State} {p : PinNo} {v : Bool} (hpin : pin.toNat = p.val)
    (hv : s.digitalLevel p = some v) : AnswersOk (.readDigital pin) s [bitByte v] fun b' => b' = s.block := by
  have hp := pinOperand_eq_some_iff.mpr hpin
  exact answersOk_of_finish (by simp only [exec, execReadDigital, hp, hv]) rfl

/-- Settles O16: the answer is the level by the pin's mode. -/
theorem readDigitalAnswersLevel : Obligations.ReadDigitalAnswersLevel := by
  intro pin s
  refine ⟨rfl, fun hpin => ?_, fun p hpin => ⟨fun hmode => ?_, fun hmode => ?_, fun hmode howned => ?_,
    fun hmode hfree => ?_⟩⟩
  · have hp := pinOperand_eq_none_iff.mpr hpin
    exact answersError_of_raise (st := .invalidPin) (by simp only [exec, execReadDigital, hp])
  · have hp := pinOperand_eq_some_iff.mpr hpin
    have hv : s.digitalLevel p = none := by rw [State.digitalLevel, hmode]
    exact answersError_of_raise (st := .wrongMode) (by simp only [exec, execReadDigital, hp, hv])
  · refine answersOk_readDigital hpin ?_
    obtain hmode | hmode := hmode <;> rw [State.digitalLevel, hmode]
  · rw [← Keypad.bitByte_drive]
    exact answersOk_readDigital hpin (by rw [State.digitalLevel, hmode, howned, if_pos rfl])
  · exact answersOk_readDigital hpin (by simp only [State.digitalLevel, hmode, hfree, Bool.false_eq_true, if_false])

/-- Settles O17: one equation of `pad` for each mode. -/
theorem padFollowsMode : Obligations.PadFollowsMode := by
  intro b p
  refine ⟨fun hmode => ?input, fun hmode => ?inputPullUp, fun hmode howned => ?owned, fun hmode hfree => ?free,
    fun hmode => ?analog⟩
  case input | inputPullUp | analog => rw [Block.pad, hmode]
  case owned => rw [← Keypad.drive_eq, Block.pad, hmode, howned, if_pos rfl]
  case free => simp only [Block.pad, hmode, hfree, Bool.false_eq_true, if_false]

end Sys2Proof.Machine
end

section
/-! The PWM LED driver (43_led_driver.md): the four commands, the phase that follows a phase at its
end, and the level. -/

namespace Sys2Proof.Machine

/-! ### The LED profile of one pin -/

/-- Writing the LED profile and its engine leaves the rest of the pin. -/
theorem sameOutsideLed_withLed (q : Pin) (intensity : Byte) (wave : Wave) (ton toff trise tfall : TimeCode)
    (ph : Phase) (cnt : BitVec 16) :
    SameOutsideLed q { q with intensity, wave, ton, toff, trise, tfall, ledPhase := ph, ledCnt := cnt } :=
  ⟨rfl, rfl, rfl, rfl, rfl, rfl, rfl, rfl, rfl, rfl⟩

theorem Pin.level_of_noWave {q : Pin} (h : q.wave = .none) : q.level = q.intensity := by rw [Pin.level, h]

/-! ### SET_INTENSITY (R144) and STOP (R147) -/

/-- Settles O18: the success case writes `clearWave` of the one pin, with the new INTENSITY. -/
theorem setIntensityStopsWaveform : Obligations.SetIntensityStopsWaveform := by
  intro pin value s
  refine ⟨rfl, fun hpin => ?_, fun p hpin => ⟨fun hmode => ?_, fun hmode => ?_⟩⟩
  · have hp := pinOperand_eq_none_iff.mpr hpin
    exact answersError_of_raise (st := .invalidPin) (by simp only [exec, execSetIntensity, hp])
  all_goals have hp := pinOperand_eq_some_iff.mpr hpin
  · exact answersError_of_raise (st := .wrongMode) (by simp only [exec, execSetIntensity, hp, if_pos hmode])
  · refine answersOk_of_finish (b := s.block.setPin p { (s.block.pin p).clearWave with intensity := value })
      (by simp [exec, execSetIntensity, hp, hmode]) ⟨onlyPinChanged_setPin _ _ _, ?_⟩
    rw [Block.pin_setPin_same]
    exact ⟨sameOutsideLed_withLed .., rfl, ⟨rfl, rfl, rfl, rfl, rfl, rfl, rfl⟩, Pin.level_of_noWave rfl⟩

/-- Settles O21: the success case writes `clearWave` of the one pin. -/
theorem stopRestoresIntensity : Obligations.StopRestoresIntensity := by
  intro pin s
  refine ⟨rfl, fun hpin => ?_, fun p hpin => ⟨fun hmode => ?_, fun hmode => ?_⟩⟩
  · have hp := pinOperand_eq_none_iff.mpr hpin
    exact answersError_of_raise (st := .invalidPin) (by simp only [exec, execStop, hp])
  all_goals have hp := pinOperand_eq_some_iff.mpr hpin
  · exact answersError_of_raise (st := .wrongMode) (by simp only [exec, execStop, hp, if_pos hmode])
  · refine answersOk_of_finish (b := s.block.setPin p (s.block.pin p).clearWave)
      (by simp [exec, execStop, hp, hmode]) ⟨onlyPinChanged_setPin _ _ _, ?_⟩
    rw [Block.pin_setPin_same]
    exact ⟨sameOutsideLed_withLed .., rfl, ⟨rfl, rfl, rfl, rfl, rfl, rfl, rfl⟩, Pin.level_of_noWave rfl⟩

/-! ### BLINK (R145) -/

section BlinkInMode

variable {pin : Byte} {onMs offMs : Half} {s : State} {p : PinNo}
  (hp : pinOperand pin = some p) (hmode : (s.block.pin p).mode = .analogOutput)

include hp hmode

/-- Either duration out of range is answered OutOfRange, whatever the other is. -/
theorem exec_blink_of_overRange (hover : s.block.maxMs < onMs.toNat ∨ s.block.maxMs < offMs.toNat) :
    exec (.blink pin onMs offMs) s = s.raise .outOfRange := by
  simp only [exec, execBlink, hp, hmode, ne_eq, not_true_eq_false, if_false]
  obtain hover | hover := hover
  · rw [encodeDuration_eq_none_iff.mpr hover]
  · rw [encodeDuration_eq_none_iff.mpr hover]
    split <;> rfl

theorem exec_blink_of_codes {cOn cOff : TimeCode} (hOn : s.block.encodeDuration onMs = some cOn)
    (hOff : s.block.encodeDuration offMs = some cOff) :
    exec (.blink pin onMs offMs) s =
      if cOn = 0 ∧ cOff = 0 then s.raise .invalidParameter
      else s.finish (s.block.setPin p { s.block.pin p with
        wave := .blink, ton := cOn, toff := cOff, trise := 0, tfall := 0,
        ledPhase := if cOn = 0 then .off else .on, ledCnt := 0 }) [] := by
  simp only [exec, execBlink, hp, hmode, ne_eq, not_true_eq_false, if_false, hOn, hOff]
  split
  · rfl
  · next hlen => rw [(Pin.enterPhase_blink rfl hlen).1]

end BlinkInMode

/-- Settles O19: a duration has code 0 only if it is 0 ms, which fixes the error of two zero durations and the phase. -/
theorem blinkArmsWaveform : Obligations.BlinkArmsWaveform := by
  intro pin onMs offMs s
  refine ⟨rfl, fun hpin => ?_, fun p hpin => ⟨fun hmode => ?_, fun hmode hover => ?_, fun hmode hon hoff => ?_,
    fun hmode hon hoff hlen => ?_⟩⟩
  · have hp := pinOperand_eq_none_iff.mpr hpin
    exact answersError_of_raise (st := .invalidPin) (by simp only [exec, execBlink, hp])
  all_goals have hp := pinOperand_eq_some_iff.mpr hpin
  · exact answersError_of_raise (st := .wrongMode) (by simp only [exec, execBlink, hp, if_pos hmode])
  · exact answersError_of_raise (exec_blink_of_overRange hp hmode hover)
  · subst hon hoff
    have hzero : s.block.encodeDuration 0 = some 0 := encodeMs_zero _
    exact answersError_of_raise (st := .invalidParameter)
      ((exec_blink_of_codes hp hmode hzero hzero).trans (if_pos ⟨rfl, rfl⟩))
  · obtain ⟨cOn, hOn, -⟩ := encodeDuration_of_le hon
    obtain ⟨cOff, hOff, -⟩ := encodeDuration_of_le hoff
    have hOnZero : cOn = 0 ↔ onMs = 0 := encodeMs_eq_zero_iff hOn
    have hOffZero : cOff = 0 ↔ offMs = 0 := encodeMs_eq_zero_iff hOff
    rw [← hOnZero, ← hOffZero] at hlen
    refine answersOk_of_finish ((exec_blink_of_codes hp hmode hOn hOff).trans (if_neg hlen))
      ⟨onlyPinChanged_setPin _ _ _, ?_⟩
    rw [Block.pin_setPin_same]
    exact ⟨sameOutsideLed_withLed .., rfl, rfl, hOn.symm, hOff.symm, rfl, rfl, rfl, by simp only [hOnZero]⟩

/-! ### BREATHE (R146) -/

/-- Settles O20: a duration out of range has no code, whichever of the four it is. -/
theorem breatheArmsWaveform : Obligations.BreatheArmsWaveform := by
  intro pin onMs offMs riseMs fallMs s
  refine ⟨rfl, fun hpin => ?_, fun p hpin => ⟨fun hmode => ?_, fun hmode hramp => ?_, fun hmode hover => ?_,
    fun hmode hriseLen hfallLen hon hoff hrise hfall => ?_⟩⟩
  · have hp := pinOperand_eq_none_iff.mpr hpin
    exact answersError_of_raise (st := .invalidPin) (by simp only [exec, execBreathe, hp])
  all_goals have hp := pinOperand_eq_some_iff.mpr hpin
  · exact answersError_of_raise (st := .wrongMode) (by simp only [exec, execBreathe, hp, if_pos hmode])
  · exact answersError_of_raise (st := .invalidParameter)
      (by simp only [exec, execBreathe, hp, hmode, ne_eq, not_true_eq_false, if_false, if_pos hramp])
  · refine answersError_of_raise (st := .invalidParameter) ?_
    simp only [← encodeDuration_eq_none_iff] at hover
    simp only [exec, execBreathe, hp, hmode, ne_eq, not_true_eq_false, if_false]
    split
    · rfl
    · split
      · next hOn hOff hRise hFall => simp [hOn, hOff, hRise, hFall] at hover
      · rfl
  · have hramp := not_or.mpr ⟨hriseLen, hfallLen⟩
    obtain ⟨cOn, hOn, -⟩ := encodeDuration_of_le hon
    obtain ⟨cOff, hOff, -⟩ := encodeDuration_of_le hoff
    obtain ⟨cRise, hRise, -⟩ := encodeDuration_of_le hrise
    obtain ⟨cFall, hFall, -⟩ := encodeDuration_of_le hfall
    refine answersOk_of_finish (b := s.block.setPin p { s.block.pin p with
        wave := .breathe, ton := cOn, toff := cOff, trise := cRise, tfall := cFall, ledPhase := .rise, ledCnt := 0 })
      (by simp only [exec, execBreathe, hp, hmode, ne_eq, not_true_eq_false, if_false, if_neg hramp, hOn, hOff, hRise,
        hFall])
      ⟨onlyPinChanged_setPin _ _ _, ?_⟩
    rw [Block.pin_setPin_same]
    exact ⟨sameOutsideLed_withLed .., rfl, rfl, hOn.symm, hOff.symm, hRise.symm, hFall.symm, rfl, rfl⟩

/-! ### The LED tick (R148) -/

/-- Legal codes bound the length of every phase. -/
theorem Pin.len_le_ticksMax {q : Pin} (h : q.CodesLegal) (ph : Phase) : q.len ph ≤ 32768 := by
  obtain ⟨hton, htoff, htrise, htfall⟩ := h
  cases ph with
  | rise => exact base_le_ticksMax htrise
  | on => exact base_le_ticksMax hton
  | fall => exact base_le_ticksMax htfall
  | off => exact base_le_ticksMax htoff

/-- The phase an engine enters at the end of its phase: the successor of R141, or the one after it where the successor
has length 0 (R143). `Pin.ledTick_at_end` ties it to the tick. -/
def Pin.phaseAfter (q : Pin) : Phase :=
  match q.wave, q.ledPhase with
  | .blink, .on => if q.toff = 0 then .on else .off
  | .blink, _ => if q.ton = 0 then .off else .on
  | _, .rise => if q.ton = 0 then .fall else .on
  | _, .on => .fall
  | _, .fall => if q.toff = 0 then .rise else .off
  | _, .off => .rise

/-- Under the invariant a waveform enters `phaseAfter` at the end of its phase. -/
theorem Pin.ledTick_at_end {q : Pin} (h : q.Inv) (hw : q.wave ≠ .none)
    (hend : q.ledCnt.toNat + 1 = q.len q.ledPhase) :
    q.ledTick = some { q with ledPhase := q.phaseAfter, ledCnt := 0 } := by
  have hblink := Pin.phase_of_inv h
  obtain ⟨hanalog, -, -, ⟨-, hblinkCodes, hbreatheCodes⟩, -⟩ := h
  have hm := hanalog hw
  have hnext {ph : Phase} (hn : nextPhase q.wave q.ledPhase = some ph) := Pin.ledTick_end hm hw hend.ge hn
  cases hwave : q.wave with
  | none => exact absurd hwave hw
  | blink =>
    obtain ⟨-, -, hlen⟩ := hblinkCodes hwave
    obtain ⟨enterOn, enterOff⟩ := Pin.enterPhase_blink hwave hlen
    obtain hph | hph := hblink hwave
    · rw [hnext (ph := .off) (by rw [hwave, hph, nextPhase]), enterOff, Pin.phaseAfter, hwave, hph]
    · rw [hnext (ph := .on) (by rw [hwave, hph, nextPhase]), enterOn, Pin.phaseAfter, hwave, hph]
  | breathe =>
    obtain ⟨hrise, hfall⟩ := hbreatheCodes hwave
    obtain ⟨enterRise, enterOn, enterFall, enterOff⟩ := Pin.enterPhase_breathe hwave hrise hfall
    cases hph : q.ledPhase with
    | rise => rw [hnext (ph := .on) (by rw [hwave, hph, nextPhase]), enterOn, Pin.phaseAfter, hwave, hph]
    | on => rw [hnext (ph := .fall) (by rw [hwave, hph, nextPhase]), enterFall, Pin.phaseAfter, hwave, hph]
    | fall => rw [hnext (ph := .off) (by rw [hwave, hph, nextPhase]), enterOff, Pin.phaseAfter, hwave, hph]
    | off => rw [hnext (ph := .rise) (by rw [hwave, hph, nextPhase]), enterRise, Pin.phaseAfter, hwave, hph]

/-- Settles O23: the tick rests, counts, or enters `phaseAfter`, and leaves the engine inside a phase, whose length a
legal code bounds. -/
theorem ledTickAdvancesPhase : Obligations.LedTickAdvancesPhase := by
  intro q h
  have hanalog : q.wave ≠ .none → q.mode = .analogOutput := h.1
  refine ⟨fun hrest => if_pos hrest, fun q' htick hw => ?_, fun hw hin => ?_, fun hw hend => ?_⟩
  · obtain ⟨r, hr, -, hinPhase⟩ := Pin.ledTick_of_inv h
    obtain rfl : q' = r := Option.some.inj (htick.symm.trans hr)
    obtain ⟨ph, cnt, rfl⟩ := Pin.ledTick_eq_some htick
    obtain ⟨-, -, -, -, hlegal, -⟩ := h
    exact ⟨hinPhase hw, Pin.len_le_ticksMax (q := { q with ledPhase := ph, ledCnt := cnt }) hlegal ph⟩
  · rw [Pin.ledTick_within (hanalog hw) hw hin, BitVec.ofNat_add, BitVec.ofNat_toNat, BitVec.setWidth_eq]
    rfl
  · refine ⟨q.phaseAfter, Pin.ledTick_at_end h hw hend, ?_⟩
    and_intros <;> intro hwave hph <;> rw [Pin.phaseAfter, hwave, hph]

/-! ### The level (R142) -/

/-- Under the invariant a breathe counts below the length of its phase. -/
theorem Pin.ledCnt_lt_len {q : Pin} {ph : Phase} (h : q.Inv) (hw : q.wave = .breathe) (hph : q.ledPhase = ph) :
    q.ledCnt.toNat < q.len ph := by
  obtain ⟨-, -, -, -, -, -, ⟨-, hinPhase⟩, -⟩ := h
  exact hph ▸ hinPhase (hw ▸ nofun)

/-- A ramp stays below full while its count is below its length. -/
theorem ramp_lt {c len : Nat} (h : c < len) : 255 * c / len < 255 := Nat.div_lt_of_lt_mul (by omega)

theorem Pin.level_toNat_of_breathe {q : Pin} (hw : q.wave = .breathe) : q.level.toNat = q.breatheLevel % 256 := by
  rw [Pin.level, hw, BitVec.toNat_ofNat]

theorem Pin.level_toNat_of_rise {q : Pin} (hw : q.wave = .breathe) (hph : q.ledPhase = .rise)
    (hc : q.ledCnt.toNat < base q.trise) : q.level.toNat = 255 * q.ledCnt.toNat / base q.trise := by
  have hramp := ramp_lt hc
  rw [Pin.level_toNat_of_breathe hw, Pin.breatheLevel, hph]
  exact Nat.mod_eq_of_lt (hramp.trans (by decide))

theorem Pin.level_toNat_of_fall {q : Pin} (hw : q.wave = .breathe) (hph : q.ledPhase = .fall) :
    q.level.toNat = 255 - 255 * q.ledCnt.toNat / base q.tfall := by
  rw [Pin.level_toNat_of_breathe hw, Pin.breatheLevel, hph]
  exact Nat.mod_eq_of_lt (Nat.lt_succ_of_le (Nat.sub_le _ _))

/-- Settles O24: the level's value in each phase, and, for the ramps, the same value at a smaller count. -/
theorem levelFollowsWaveform : Obligations.LevelFollowsWaveform := by
  intro q h _
  refine ⟨Pin.level_of_noWave, fun hw => ?blink, fun hw hph => ?rise, fun hw hph => ?on, fun hw hph => ?fall,
    fun hw hph => ?off⟩
  case blink =>
    rw [Pin.level, hw]
    exact apply_ite BitVec.toNat _ _ _
  case on | off =>
    rw [Pin.level_toNat_of_breathe hw, Pin.breatheLevel, hph]
    rfl
  case rise =>
    have hc : q.ledCnt.toNat < base q.trise := Pin.ledCnt_lt_len h hw hph
    have hlevel {c : BitVec 16} (hle : c.toNat ≤ q.ledCnt.toNat) :=
      Pin.level_toNat_of_rise (q := { q with ledCnt := c }) hw hph (hle.trans_lt hc)
    have hself := Pin.level_toNat_of_rise hw hph hc
    refine ⟨hself, hself ▸ ramp_lt hc, fun c hle => ⟨?_, ?_⟩⟩
    · rw [BitVec.le_def, hlevel hle, hself]
      exact Nat.div_le_div_right (Nat.mul_le_mul_left _ hle)
    · exact BitVec.eq_of_toNat_eq ((hlevel (Nat.zero_le _)).trans (Nat.zero_div _))
  case fall =>
    have hc : q.ledCnt.toNat < base q.tfall := Pin.ledCnt_lt_len h hw hph
    have hlevel (c : BitVec 16) := Pin.level_toNat_of_fall (q := { q with ledCnt := c }) hw hph
    have hself := Pin.level_toNat_of_fall hw hph
    have hramp := ramp_lt hc
    refine ⟨?_, ?_, fun c hle => ⟨?_, ?_⟩⟩
    · omega
    · omega
    · rw [BitVec.le_def, hlevel c, hself]
      exact Nat.sub_le_sub_left (Nat.div_le_div_right (Nat.mul_le_mul_left _ hle)) _
    · exact BitVec.eq_of_toNat_eq ((hlevel 0).trans (by simp))

end Sys2Proof.Machine
end

section
/-! The keypad (44_keypad.md): the key-word commands, the ticks of the scan engine and what a cycle publishes, and
CONFIGURE_KEYPAD. -/

namespace Sys2Proof.Machine

/-! ### The key-word commands (R182 to R184) -/

/-- Settles O29: the invariant has a disabled keypad at its reset value, whose KEYDATA is 0. -/
theorem readKeyDataAnswersWord : Obligations.ReadKeyDataAnswersWord := by
  refine ⟨rfl, fun s => ⟨?_, fun hinv hdis => ?_⟩⟩
  · rw [← bytes16_eq]
    exact answersOk_of_finish rfl rfl
  · obtain ⟨-, -, ⟨-, -, -, hreset, -⟩, -⟩ := hinv
    exact answersOk_of_finish (by rw [exec, execReadKeyData, hreset hdis]; rfl) rfl

section DecodeLine

variable {i : Instr} {s : State} {x : Byte} (hexec : exec i s = s.decodeLine x)

include hexec

theorem answersError_of_decodeLine_zero (hx : x = 0) : AnswersError i s 0x05 := by
  have hnone : lowestSetBit 0 = none := by decide
  exact answersError_of_raise (st := .noKeyPressed) (by rw [hexec, hx, State.decodeLine, hnone])

theorem answersOk_of_decodeLine_lowest {n : Nat} (hn : n < 8) (hset : x.getLsbD n = true)
    (hlow : ∀ j < n, x.getLsbD j = false) : AnswersOk i s [BitVec.ofNat 8 n] fun b' => b' = s.block := by
  have hsome : lowestSetBit x = some n :=
    List.find?_range_eq_some.mpr ⟨hset, List.mem_range.mpr hn, fun j hj => by rw [hlow j hj]; rfl⟩
  exact answersOk_of_finish (by rw [hexec, State.decodeLine, hsome]) rfl

end DecodeLine

/-- Bit `j` of the byte of a word that starts at bit `n`. -/
theorem getLsbD_byteAt (w : Half) (n : Nat) {j : Nat} (hj : j < 8) :
    (w.extractLsb' n 8).getLsbD j = w.getLsbD (n + j) := by
  rw [BitVec.getLsbD_extractLsb', decide_eq_true hj, Bool.true_and]

/-- Settles O30: both decoders are `decodeLine` on their byte of the word. -/
theorem keyDecodersAnswerLowestBit : Obligations.KeyDecodersAnswerLowestBit := by
  intro raw s
  have hrow : exec (.decodeRow raw) s = s.decodeLine (raw.extractLsb' 8 8) := rfl
  have hcol : exec (.decodeCol raw) s = s.decodeLine (raw.extractLsb' 0 8) := rfl
  refine ⟨rfl, rfl, fun hzero => answersError_of_decodeLine_zero hrow ?_,
    fun hzero => answersError_of_decodeLine_zero hcol ?_,
    fun i hi hset hlow => answersOk_of_decodeLine_lowest hrow hi ?_ fun j hj => ?_,
    fun i hi hset hlow => answersOk_of_decodeLine_lowest hcol hi ?_ fun j hj => ?_⟩
  · apply BitVec.eq_of_toNat_eq
    simp [BitVec.extractLsb'_toNat, Nat.shiftRight_eq_div_pow, hzero]
  · apply BitVec.eq_of_toNat_eq
    simpa [BitVec.extractLsb'_toNat] using hzero
  · rw [getLsbD_byteAt _ _ hi, hset]
  · rw [getLsbD_byteAt _ _ (hj.trans hi), hlow j hj]
  · rw [getLsbD_byteAt _ _ hi, Nat.zero_add, hset]
  · rw [getLsbD_byteAt _ _ (hj.trans hi), Nat.zero_add, hlow j hj]

/-! ### The tick (R175) -/

/-- Counting on is adding one, modulo the counter's width. -/
theorem ofNat_toNat_succ (n : BitVec 16) : BitVec.ofNat 16 (n.toNat + 1) = n + 1 := by
  rw [BitVec.ofNat_add, BitVec.ofNat_toNat, BitVec.setWidth_eq]
  rfl

/-- With the engine in its bounds no run counter can overflow on a sample. -/
theorem Keypad.run_lt_max {k : Keypad} (hc : k.ConfigOk) (hb : k.EngineBounded) (he : k.en = true)
    (hs : k.state = .scan) (c : Fin 8) : (k.run.get c).toNat < 65535 := by
  obtain ⟨hcnt, hrun⟩ := Keypad.run_lt_of_bounded hc hb he hs c
  omega

/-- Settles O31: one equation of `tick` for each case. -/
theorem keypadTickScansRows : Obligations.KeypadTickScansRows := by
  intro k d hc hb
  refine ⟨Keypad.tick_disabled, fun he hs => ?scan, fun he hs => ?sleep⟩
  case sleep => rw [Keypad.tick_sleep he hs, ofNat_toNat_succ]
  case scan =>
    have hr := Keypad.run_lt_max hc hb he hs
    refine ⟨fun hw => ?within, fun hw hrow => ?nextRow, fun hw hrow => ?endCycle⟩
    case within =>
      refine ⟨k.sampleColumns d.pinIn, ?_, fun c => ⟨fun hu => ?_, Keypad.get_sampleColumns_of_unused⟩⟩
      · rw [Keypad.tick_within he hs hw, ofNat_toNat_succ]
      · exact Keypad.get_sampleColumns_of_used hu (hr c)
    case nextRow =>
      obtain ⟨h, r, c, htick, hrec⟩ := Keypad.tick_nextRow (d := d) he hs hw.ge hrow hr
      have hnext : (k.row.toNat + 1) % 8 = k.row.toNat + 1 := by have := k.rowsM1.isLt; omega
      exact ⟨_, htick, ⟨rfl, rfl, rfl, rfl, rfl, rfl⟩, rfl, hs, hnext, rfl, get_replicate_zero, hrec⟩
    case endCycle =>
      obtain ⟨h, r, c, htick, -⟩ := Keypad.tick_endCycle (d := d) he hs hw.ge (hrow ▸ le_rfl) hr
      exact ⟨_, htick⟩

/-! ### Publication (R177) -/

/-- A one-hot word has the one bit. -/
theorem getLsbD_one_shiftLeft (n : Nat) {i : Nat} (hi : i < 16) : (1#16 <<< n).getLsbD i = decide (i = n) := by
  rw [← BitVec.twoPow_eq, BitVec.getLsbD_twoPow, ← Bool.decide_and]
  exact decide_eq_decide.mpr (by omega)

/-- A cycle with one detection publishes its row bit and its column bit. -/
theorem Keypad.getLsbD_published_of_one {k : Keypad} (h : k.hits = .one) (ghost : Half) {i : Nat} (hi : i < 16) :
    (k.published ghost).getLsbD i = (decide (i = 8 + k.hitR.toNat) || decide (i = k.hitC.toNat)) := by
  rw [Keypad.published, h, BitVec.getLsbD_or, getLsbD_one_shiftLeft _ hi, getLsbD_one_shiftLeft _ hi]

/-- A tick that does not end a cycle keeps KEYDATA. -/
theorem Keypad.tick_keyData {k : Keypad} (d : Draws) (hc : k.ConfigOk) (hb : k.EngineBounded)
    (hnot : ¬(k.en = true ∧ k.state = .scan ∧ k.cnt.toNat + 1 = base k.scanCode ∧ k.row = k.rowsM1)) :
    (k.tick d).keyData = k.keyData := by
  cases he : k.en with
  | false => rw [Keypad.tick_disabled he]
  | true =>
    cases hs : k.state with
    | sleep =>
      rw [Keypad.tick_sleep he hs]
      split <;> rfl
    | scan =>
      obtain hw | hw := Nat.lt_or_ge (k.cnt.toNat + 1) (base k.scanCode)
      · rw [Keypad.tick_within he hs hw]
      · obtain ⟨hle, hscan, -⟩ := hb he
        have hend : k.cnt.toNat + 1 = base k.scanCode := le_antisymm (hscan hs).1 hw
        have hne : k.row.toNat ≠ k.rowsM1.toNat := fun h => hnot ⟨he, hs, hend, BitVec.eq_of_toNat_eq h⟩
        obtain ⟨_, _, _, htick, -⟩ :=
          Keypad.tick_nextRow (d := d) he hs hw (lt_of_le_of_ne hle hne) (Keypad.run_lt_max hc hb he hs)
        rw [htick]

/-- Settles O32: the detections determine what is recorded, and that what the cycle publishes. -/
theorem keypadCyclePublishesKeyData : Obligations.KeypadCyclePublishesKeyData := by
  intro k d hc hb
  refine ⟨Keypad.tick_keyData d hc hb, fun he hs hw hrow hits hitR hitC hrec => ?_⟩
  obtain ⟨_, _, _, htick, hrec'⟩ :=
    Keypad.tick_endCycle (d := d) he hs hw.ge (hrow ▸ le_rfl) (Keypad.run_lt_max hc hb he hs)
  obtain ⟨rfl, rfl, rfl⟩ := HitsRecorded.unique hrec hrec'
  rw [htick]
  refine ⟨?zero, ?one, ?many⟩
  case zero | many =>
    rintro rfl
    rfl
  case one => exact fun hone i hi => Keypad.getLsbD_published_of_one hone d.ghost hi

/-! ### Sleep (R178) -/

/-- The ticks of one more draw are the ticks before it, and its own. -/
theorem Keypad.ticks_concat (k : Keypad) (ds : List Draws) (d : Draws) :
    k.ticks (ds ++ [d]) = (k.ticks ds).tick d := List.foldl_concat ..

section Sleep

variable {k : Keypad} (hcode : LegalCode k.sleepCode) (he : k.en = true) (hs : k.state = .sleep) (hcnt : k.cnt = 0)

include hcode he hs hcnt

/-- Until the sleep is over its ticks are counted, whatever the samples. -/
theorem Keypad.ticks_asleep {ds : List Draws} (hlen : ds.length < base k.sleepCode) :
    k.ticks ds = { k with cnt := BitVec.ofNat 16 ds.length } := by
  induction ds using List.reverseRecOn with
  | nil =>
    show k = { k with cnt := 0 }
    rw [← hcnt]
  | append_singleton ds d ih =>
    rw [List.length_append, List.length_singleton] at hlen ⊢
    have hbase := base_le_ticksMax hcode
    have hval : (BitVec.ofNat 16 ds.length).toNat = ds.length := Nat.mod_eq_of_lt (by omega)
    rw [Keypad.ticks_concat, ih (by omega),
      Keypad.tick_sleep (k := { k with cnt := BitVec.ofNat 16 ds.length }) he hs, hval, if_pos hlen]

/-- The last tick of the sleep starts the scan. -/
theorem Keypad.ticks_sleepEnd {ds : List Draws} (hne : k.sleepCode ≠ 0) (hlen : ds.length = base k.sleepCode) :
    k.ticks ds = { k with cnt := 0, state := .scan } := by
  have hbase := base_le_ticksMax hcode
  have htwo := two_le_base hne
  obtain rfl | ⟨init, d, rfl⟩ := ds.eq_nil_or_concat'
  · rw [List.length_nil] at hlen
    omega
  · rw [List.length_append, List.length_singleton] at hlen
    have hval : (BitVec.ofNat 16 init.length).toNat = init.length := Nat.mod_eq_of_lt (by omega)
    rw [Keypad.ticks_concat, Keypad.ticks_asleep hcode he hs hcnt (by omega),
      Keypad.tick_sleep (k := { k with cnt := BitVec.ofNat 16 init.length }) he hs, hval,
      if_neg (hlen ▸ lt_irrefl _)]

end Sleep

/-- Settles O33: the sleep by induction on its ticks, the rows by the drive's own equation. -/
theorem keypadSleepsThroughSamples : Obligations.KeypadSleepsThroughSamples := by
  refine ⟨fun k ds hc he hs hcnt => ⟨fun p => ?_, ?_, ?_⟩, fun k p => ?_⟩
  · simp [Keypad.drive_eq, hs]
  · exact Keypad.ticks_asleep hc.1 he hs hcnt
  · exact Keypad.ticks_sleepEnd hc.1 he hs hcnt
  · rw [Keypad.drive_eq, decide_eq_false_iff_not, not_not, eq_comm (a := k.row.toNat)]

/-! ### The pins of a CONFIGURE_KEYPAD (R172) -/

/-- The mode the assignment from `old` to `new` applies to pin `p`, by the pin's role: row, column, or released; none
for a pin of neither keypad. `Keypad.assignPin_eq_elim` ties it to the assignment. -/
def Keypad.roleMode (old new : Keypad) (p : PinNo) : Option Mode :=
  if new.ownsRow p then some .output
  else if new.ownsCol p then some .inputPullUp
  else if old.owns p then some .input
  else none

theorem Keypad.assignPin_eq_elim (old new : Keypad) (p : PinNo) (q : Pin) :
    old.assignPin new p q = (old.roleMode new p).elim q q.applyMode := by
  unfold Keypad.assignPin Keypad.roleMode
  split_ifs <;> rfl

/-- A pin of neither keypad is as before. -/
theorem Keypad.clearTaken_assignPin_of_noRole {old new : Keypad} {p : PinNo} (h : old.roleMode new p = none) (q : Pin) :
    old.clearTaken new p (old.assignPin new p q) = q := by
  have hfree : new.owns p = false := by
    rw [Keypad.roleMode] at h
    split_ifs at h with hrow hcol
    rw [Keypad.owns, Bool.eq_false_iff.mpr hrow, Bool.eq_false_iff.mpr hcol, Bool.or_self]
  rw [Keypad.assignPin_eq_elim, h, Option.elim_none, Keypad.clearTaken, hfree, Bool.false_and,
    if_neg Bool.false_ne_true]

/-- A mode other than the pin's clears OUTLVL, so clearing it for a pin just taken adds nothing. -/
theorem Keypad.clearTaken_applyMode_of_ne (old new : Keypad) (p : PinNo) {q : Pin} {m : Mode} (h : q.mode ≠ m) :
    old.clearTaken new p (q.applyMode m) = q.applyMode m := by
  have hlow : (q.applyMode m).outlvl = false := by rw [Pin.applyMode, if_neg h.symm]
  rw [Keypad.clearTaken, ← hlow, ite_self]

/-- Taking a pin touches its OUTLVL only. -/
theorem Keypad.clearTaken_withOutlvl (old new : Keypad) (p : PinNo) (q : Pin) :
    { old.clearTaken new p q with outlvl := q.outlvl } = q := by
  unfold Keypad.clearTaken
  split <;> rfl

/-- Only a pin just taken can change. -/
theorem Keypad.clearTaken_of_owned {old : Keypad} (new : Keypad) {p : PinNo} (h : old.owns p = true) (q : Pin) :
    old.clearTaken new p q = q := by
  rw [Keypad.clearTaken, h, Bool.not_true, Bool.and_false, if_neg Bool.false_ne_true]

/-- The roles in an enabled keypad, by its counts of rows and columns. -/
theorem Keypad.roleMode_of_counts (old : Keypad) {new : Keypad} {nRows nCols : Nat} (he : new.en = true)
    (hRows : new.rowsM1.toNat + 1 = nRows) (hCols : new.colsM1.toNat + 1 = nCols) (p : PinNo) :
    old.roleMode new p =
      if p.val < 8 ∧ p.val < nRows then some .output
      else if 8 ≤ p.val ∧ p.val - 8 < nCols then some .inputPullUp
      else if old.owns p then some .input
      else none := by
  have hrow : (p.val ≤ 7 ∧ p.val ≤ new.rowsM1.toNat) ↔ (p.val < 8 ∧ p.val < nRows) := by omega
  have hcol : (8 ≤ p.val ∧ p.val - 8 ≤ new.colsM1.toNat) ↔ (8 ≤ p.val ∧ p.val - 8 < nCols) := by omega
  simp only [Keypad.roleMode, Keypad.ownsRow, Keypad.ownsCol, he, Bool.true_and, decide_eq_true_eq, hrow, hcol]

/-- A pin with a role goes to the role's mode by the mode transition; already in that mode, it can lose its OUTLVL only,
and only where the keypad takes it. -/
theorem Block.pin_assignKeypad_of_role {b : Block} {new : Keypad} {p : PinNo} {m : Mode}
    (h : b.kp.roleMode new p = some m) :
    ((b.pin p).mode ≠ m → ModeTransition (b.pin p) ((b.assignKeypad new).pin p) m) ∧
    ((b.pin p).mode = m → { (b.assignKeypad new).pin p with outlvl := (b.pin p).outlvl } = b.pin p) ∧
    ((b.pin p).mode = m → b.owned p = true → (b.assignKeypad new).pin p = b.pin p) := by
  rw [Block.pin_assignKeypad, Keypad.assignPin_eq_elim, h, Option.elim_some]
  refine ⟨fun hne => ?_, fun hsame => ?_, fun hsame hown => ?_⟩
  · rw [Keypad.clearTaken_applyMode_of_ne _ _ _ hne]
    exact Pin.modeTransition_applyMode hne
  · rw [Pin.applyMode_same hsame, Keypad.clearTaken_withOutlvl]
  · rw [Pin.applyMode_same hsame, Keypad.clearTaken_of_owned _ hown]

/-! ### CONFIGURE_KEYPAD (R171) -/

section ConfigureWithCounts

variable {rows cols : Byte} {sleepMs scanMs debMs : Half} {s : State} {r c : BitVec 3}
  (hr : lineOperand rows = some r) (hc : lineOperand cols = some c)

include hr hc

/-- Any duration out of range is answered OutOfRange, whatever the others are. -/
theorem exec_configureKeypad_of_overRange
    (hover : s.block.maxMs < sleepMs.toNat ∨ s.block.maxMs < scanMs.toNat ∨ s.block.maxMs < debMs.toNat) :
    exec (.configureKeypad rows cols sleepMs scanMs debMs) s = s.raise .outOfRange := by
  simp only [← encodeDuration_eq_none_iff] at hover
  simp only [exec, execConfigureKeypad, hr, hc]
  split
  · next hSleep hScan hDeb => simp [hSleep, hScan, hDeb] at hover
  · rfl

theorem exec_configureKeypad_of_codes {cSleep cScan cDeb : TimeCode}
    (hSleep : s.block.encodeDuration sleepMs = some cSleep) (hScan : s.block.encodeDuration scanMs = some cScan)
    (hDeb : s.block.encodeDuration debMs = some cDeb) :
    exec (.configureKeypad rows cols sleepMs scanMs debMs) s =
      if cScan.toNat ≤ cDeb.toNat then s.raise .invalidParameter
      else s.finish (s.block.assignKeypad (Keypad.configured r c cSleep cScan cDeb)) [] := by
  simp only [exec, execConfigureKeypad, hr, hc, hSleep, hScan, hDeb]

end ConfigureWithCounts

theorem exec_configureKeypad_of_badCount {rows cols : Byte} (sleepMs scanMs debMs : Half) (s : State)
    (hbad : lineOperand rows = none ∨ lineOperand cols = none) :
    exec (.configureKeypad rows cols sleepMs scanMs debMs) s = s.raise .invalidParameter := by
  simp only [exec, execConfigureKeypad]
  split
  · next hr hc => simp [hr, hc] at hbad
  · rfl

theorem exists_lineOperand {x : Byte} (h : 1 ≤ x.toNat ∧ x.toNat ≤ 8) :
    ∃ n, lineOperand x = some n ∧ n.toNat + 1 = x.toNat := by
  obtain ⟨n, hn⟩ := Option.ne_none_iff_exists'.mp (mt lineOperand_eq_none_iff.mp (not_not.mpr h))
  exact ⟨n, hn, lineOperand_eq_some_iff.mp hn⟩

/-- Settles O27: the success case assigns every pin by its role in the new keypad, else in the old one. -/
theorem configureKeypadReplacesConfiguration : Obligations.ConfigureKeypadReplacesConfiguration := by
  intro rows cols sleepMs scanMs debMs s
  refine ⟨rfl, fun hbad => ?badCount, fun hr1 hr8 hc1 hc8 => ?_⟩
  case badCount =>
    refine answersError_of_raise (st := .invalidParameter) (exec_configureKeypad_of_badCount _ _ _ _ ?_)
    rw [lineOperand_eq_none_iff, lineOperand_eq_none_iff]
    omega
  obtain ⟨r, hr, hrval⟩ := exists_lineOperand ⟨hr1, hr8⟩
  obtain ⟨c, hc, hcval⟩ := exists_lineOperand ⟨hc1, hc8⟩
  refine ⟨fun hover => ?overRange, fun cSleep cScan cDeb hSleep hScan hDeb => ⟨fun hle => ?order, fun hlt => ?ok⟩⟩
  case overRange => exact answersError_of_raise (st := .outOfRange) (exec_configureKeypad_of_overRange hr hc hover)
  all_goals have hexec := exec_configureKeypad_of_codes (s := s) hr hc hSleep hScan hDeb
  case order => exact answersError_of_raise (st := .invalidParameter) (hexec.trans (if_pos hle))
  case ok =>
    refine answersOk_of_finish (hexec.trans (if_neg hlt.not_ge)) ?_
    have hroles := s.block.kp.roleMode_of_counts (new := Keypad.configured r c cSleep cScan cDeb) rfl hrval hcval
    rw [Block.assignKeypad_clkdiv, Block.assignKeypad_dbtime, Block.assignKeypad_kp]
    refine ⟨rfl, rfl, rfl, hrval, hcval, rfl, rfl, rfl, rfl, rfl, rfl, rfl, get_replicate_zero, rfl, rfl, rfl,
      fun p m => ⟨fun hrole => Block.pin_assignKeypad_of_role ?_, fun hrow hcol hown => ?_⟩⟩
    · rw [hroles]
      obtain ⟨hrow, hp, rfl⟩ | ⟨hp, hcol, rfl⟩ | ⟨hrow, hcol, hown, rfl⟩ := hrole
      · rw [if_pos ⟨hp, hrow⟩]
      · rw [if_neg (by omega), if_pos ⟨hp, hcol⟩]
      · rw [if_neg (by omega), if_neg (by omega)]
        exact if_pos hown
    · rw [Block.pin_assignKeypad]
      refine Keypad.clearTaken_assignPin_of_noRole ?_ _
      rw [hroles, if_neg (by omega), if_neg (by omega)]
      exact if_neg (Bool.eq_false_iff.mp hown)

end Sys2Proof.Machine
end

section
/-! Interrupts and debounce (45_interrupt_debounce.md): the pending bits and irq, the five commands, and the tick of one
edge detector, alone and over a run of samples. -/

namespace Sys2Proof.Machine

/-! ### The pending bits and irq (R211) -/

theorem Block.getLsbD_sourceWord (b : Block) {i : Nat} (hi : i < 16) :
    b.sourceWord.getLsbD i = (b.pin (Fin.ofNat 16 i)).source := by
  rw [Block.sourceWord, getLsbD_packBits, decide_eq_true hi, Bool.true_and]

theorem Block.sourceWord_eq_zero_iff {b : Block} : b.sourceWord = 0 ↔ ∀ p, (b.pin p).source = false := by
  constructor
  · intro hzero p
    have hbit := b.getLsbD_sourceWord p.isLt
    rw [hzero, Fin.ofNat_val_eq_self] at hbit
    exact hbit.symm.trans BitVec.getLsbD_zero
  · intro hclear
    refine BitVec.eq_of_getLsbD_eq fun i hi => ?_
    rw [b.getLsbD_sourceWord hi, hclear]
    exact BitVec.getLsbD_zero.symm

theorem Block.irq_eq_false_iff {b : Block} : b.irq = false ↔ ∀ p, (b.pin p).source = false := by
  rw [← Block.sourceWord_eq_zero_iff, Block.irq, bne_eq_false_iff_eq]

theorem Block.irq_eq_true_iff {b : Block} : b.irq = true ↔ ∃ p, (b.pin p).source = true := by
  simp only [← Bool.not_eq_false, Block.irq_eq_false_iff, not_forall]

/-- Where no other pin is pending, irq falls as the pin's bit is cleared. -/
theorem Block.irq_setPin_eq_false {b : Block} {p : PinNo} {q : Pin} (hq : q.source = false)
    (hrest : ∀ r, r ≠ p → (b.pin r).source = false) : (b.setPin p q).irq = false := by
  refine Block.irq_eq_false_iff.mpr fun r => ?_
  rw [Block.pin_setPin]
  split
  · exact hq
  · next hne => exact hrest r hne

/-! ### SET_EDGE_SENSE (R200) and SET_MASK (R201) -/

section PinCommands

variable {pin : Byte} {p : PinNo} (hpin : pin.toNat = p.val) (s : State)

include hpin

theorem exec_setEdgeSense_of_sense {edge : Byte} {e : Sense} (hedge : edge.toNat = e.toBits.toNat) :
    exec (.setEdgeSense pin edge) s = s.finish (s.block.setPin p { s.block.pin p with
      sense := e, source := decide (e ≠ .none) && (s.block.pin p).source,
      cfgwin := (s.block.pin p).dben || (s.block.pin p).cfgwin }) [] := by
  have hsource (b : Bool) : (if e = .none then false else b) = (decide (e ≠ .none) && b) := by
    split <;> simp [*]
  simp only [exec, execSetEdgeSense, pinOperand_eq_some_iff.mpr hpin, edgeOperand_eq_some_iff.mpr hedge,
    Pin.openWindow, hsource, Bool.or_comm]

theorem exec_setMask_of_flag {enabled : Byte} {v : Bool} (hflag : enabled.toNat = v.toNat) :
    exec (.setMask pin enabled) s = s.finish (s.block.setPin p { s.block.pin p with
      mask := v, source := v && (s.block.pin p).source,
      cfgwin := (s.block.pin p).dben || (s.block.pin p).cfgwin }) [] := by
  have hsource (b : Bool) : (if v then b else false) = (v && b) := by
    cases v <;> rfl
  simp only [exec, execSetMask, pinOperand_eq_some_iff.mpr hpin, bitOperand_eq_some_iff.mpr hflag,
    Pin.openWindow, hsource, Bool.or_comm]

end PinCommands

/-- Settles O36: the success case writes the one pin. -/
theorem setEdgeSenseWritesSense : Obligations.SetEdgeSenseWritesSense := by
  intro pin edge s
  refine ⟨rfl, fun hpin => ?_, fun p hpin => ⟨fun hedge => ?_, fun e hedge => ?_⟩⟩
  · have hp := pinOperand_eq_none_iff.mpr hpin
    exact answersError_of_raise (st := .invalidPin) (by simp only [exec, execSetEdgeSense, hp])
  · have hp := pinOperand_eq_some_iff.mpr hpin
    have he := edgeOperand_eq_none_iff.mpr hedge
    exact answersError_of_raise (st := .invalidParameter) (by simp only [exec, execSetEdgeSense, hp, he])
  · exact answersOk_of_finish (exec_setEdgeSense_of_sense hpin s hedge)
      ⟨onlyPinChanged_setPin _ _ _, Block.pin_setPin_same _ _ _⟩

/-- Settles O37: the success case writes the one pin. -/
theorem setMaskWritesMask : Obligations.SetMaskWritesMask := by
  intro pin enabled s
  refine ⟨rfl, fun hpin => ?_, fun p hpin => ⟨fun hflag => ?_, fun v hflag => ?_⟩⟩
  · have hp := pinOperand_eq_none_iff.mpr hpin
    exact answersError_of_raise (st := .invalidPin) (by simp only [exec, execSetMask, hp])
  · have hp := pinOperand_eq_some_iff.mpr hpin
    have hv := bitOperand_eq_none_iff.mpr hflag
    exact answersError_of_raise (st := .invalidParameter) (by simp only [exec, execSetMask, hp, hv])
  · exact answersOk_of_finish (exec_setMask_of_flag hpin s hflag)
      ⟨onlyPinChanged_setPin _ _ _, Block.pin_setPin_same _ _ _⟩

/-! ### SET_GLOBAL_DEBOUNCE (R202) and ENABLE_DEBOUNCE (R203) -/

/-- Settles O38: the success case writes one field of the block. -/
theorem setGlobalDebounceWritesDbtime : Obligations.SetGlobalDebounceWritesDbtime := by
  intro ms s
  refine ⟨rfl, fun hover => ?_, fun hle => ?_⟩
  · have hc := encodeDuration_eq_none_iff.mpr hover
    exact answersError_of_raise (st := .outOfRange) (by simp only [exec, execSetGlobalDebounce, hc])
  · obtain ⟨c, hc, -⟩ := encodeDuration_of_le hle
    exact answersOk_of_finish (b := { s.block with dbtime := c }) (by simp only [exec, execSetGlobalDebounce, hc])
      ⟨hc.symm, rfl, rfl, s.block.pin_withDbtime c⟩

/-- Settles O39: the success case writes the one pin, with itself where DBEN has the value already. -/
theorem enableDebounceRestartsCount : Obligations.EnableDebounceRestartsCount := by
  intro pin enabled s
  refine ⟨rfl, fun hpin => ?_, fun p hpin => ⟨fun hflag => ?_, fun v hflag => ?_⟩⟩
  · have hp := pinOperand_eq_none_iff.mpr hpin
    exact answersError_of_raise (st := .invalidPin) (by simp only [exec, execEnableDebounce, hp])
  all_goals have hp := pinOperand_eq_some_iff.mpr hpin
  · have hv := bitOperand_eq_none_iff.mpr hflag
    exact answersError_of_raise (st := .invalidParameter) (by simp only [exec, execEnableDebounce, hp, hv])
  · have hv := bitOperand_eq_some_iff.mpr hflag
    refine answersOk_of_finish (b := s.block.setPin p
        (if (s.block.pin p).dben = v then s.block.pin p else { s.block.pin p with dben := v, dbCnt := 0 }))
      (by simp only [exec, execEnableDebounce, hp, hv])
      ⟨onlyPinChanged_setPin _ _ _, fun hsame => ?_, fun hne => ?_⟩
    · rw [Block.pin_setPin_same, if_pos hsame]
    · rw [Block.pin_setPin_same, if_neg hne]

/-! ### READ_SOURCE (R204) -/

/-- READ_SOURCE with nothing pending answers 0 and changes nothing. -/
theorem exec_readSource_of_noSource {s : State} (h : ∀ p, (s.block.pin p).source = false) :
    exec .readSource s = s.finish s.block [0x00, 0x00] := by
  have hword : s.block.sourceWord = 0 := Block.sourceWord_eq_zero_iff.mpr h
  have hblock : (s.block.mapPins fun _ q => { q with source := false }) = s.block :=
    Block.ext_pins (Block.mapPins_clkdiv _ _) (Block.mapPins_dbtime _ _) (Block.mapPins_kp _ _) fun p => by
      rw [Block.pin_mapPins, ← h p]
  rw [exec, execReadSource, hword, hblock]
  rfl

/-- Settles O40: the bytes are those of the SOURCE word, and the state a READ_SOURCE leaves has nothing pending. -/
theorem readSourceReturnsAndClears : Obligations.ReadSourceReturnsAndClears := by
  refine ⟨rfl, fun s => ⟨s.block.sourceWord.extractLsb' 8 8, s.block.sourceWord.extractLsb' 0 8,
    fun i hi => ?high, fun i hi => ?low, ?first, fun t ht => ?second⟩⟩
  case high => rw [getLsbD_byteAt _ _ hi, Block.getLsbD_sourceWord _ (by omega)]
  case low => rw [getLsbD_byteAt _ _ hi, Nat.zero_add, Block.getLsbD_sourceWord _ (by omega)]
  case first =>
    exact answersOk_of_finish rfl
      ⟨Block.mapPins_clkdiv _ _, Block.mapPins_dbtime _ _, Block.mapPins_kp _ _, Block.pin_mapPins _ _⟩
  case second =>
    obtain rfl := State.finish_eq_next_iff.mp ht
    exact answersOk_of_finish (exec_readSource_of_noSource fun p => by rw [Block.pin_mapPins]) rfl

/-- Settles O46: irq is low exactly where no pin is pending, which each of the three commands brings about. -/
theorem irqIsPendingSource : Obligations.IrqIsPendingSource := by
  refine ⟨fun b => Block.irq_eq_true_iff, fun s => ?readSource,
    fun s p pin hpin hrest => ⟨?setMask, ?setEdgeSense⟩⟩
  case readSource =>
    rw [← bytes16_eq]
    exact answersOk_of_finish rfl (Block.irq_eq_false_iff.mpr fun p => by rw [Block.pin_mapPins])
  case setMask =>
    exact answersOk_of_finish (exec_setMask_of_flag (v := false) hpin s rfl) (Block.irq_setPin_eq_false rfl hrest)
  case setEdgeSense =>
    exact answersOk_of_finish (exec_setEdgeSense_of_sense (e := .none) hpin s rfl)
      (Block.irq_setPin_eq_false rfl hrest)

/-! ### The detector's start (R205, R206) -/

theorem Mode.isInput_iff {m : Mode} : m.isInput = true ↔ m = .input ∨ m = .inputPullUp := by
  cases m <;> decide

/-- A tick of a sampled pin, from what the detector computes on the sample. -/
theorem Pin.detTick_of_detect {q q' : Pin} {dbtime : TimeCode} {raw choice : Bool} {e : Option Edge}
    (hmode : q.mode = .input ∨ q.mode = .inputPullUp) (h : q.detect dbtime raw = (q', e)) :
    q.detTick dbtime raw choice = { q' with source := q.source || q.latches e choice, cfgwin := false } := by
  rw [Pin.detTick, if_pos (Mode.isInput_iff.mpr hmode), h]

/-- Settles O41: a transition writes det_valid, and a tick is one equation for a pin that is not sampled and one for a
first sample. -/
theorem detectorStartsWithoutEdge : Obligations.DetectorStartsWithoutEdge := by
  refine ⟨fun p => ?reset, fun q dbtime raw choice => ⟨fun m hne => ?transition, fun hmode => ?unsampled,
    fun hmode hv => ?first⟩⟩
  case reset =>
    rw [State.reset_block, Block.pin_reset]
    rfl
  case transition =>
    obtain ⟨-, -, hvalid, -⟩ := Pin.modeTransition_applyMode hne
    exact hvalid
  case unsampled => obtain hmode | hmode := hmode <;> rw [Pin.detTick, hmode] <;> rfl
  case first =>
    have hdetect : q.detect dbtime raw = ({ q with detLvl := raw, detValid := true, dbCnt := 0 }, none) := if_pos hv
    rw [Pin.detTick_of_detect hmode hdetect, Pin.latches, Bool.or_false]

/-! ### A started detector (R207 to R209) -/

section Started

variable {q : Pin} {dbtime : TimeCode} {raw choice : Bool} (hmode : q.mode = .input ∨ q.mode = .inputPullUp)
  (hv : q.detValid = true)

include hmode hv

/-- An accepted change: without debounce, or with the debounce length reached. -/
theorem Pin.detTick_of_accepted (hne : raw ≠ q.detLvl)
    (hacc : q.dben = false ∨ debounceLength dbtime ≤ q.dbCnt.toNat + 1) :
    q.detTick dbtime raw choice = { q with
      detLvl := raw, dbCnt := 0, cfgwin := false,
      source := q.source || (q.mask && EdgeWanted q.sense raw && (!q.cfgwin || choice)) } := by
  have hdetect : q.detect dbtime raw = ({ q with detLvl := raw, dbCnt := 0 }, classify q.detLvl raw) := by
    rw [Pin.detect, if_neg (ne_false_of_eq_true hv)]
    by_cases hd : q.dben = false
    · rw [if_pos hd]
    · rw [if_neg hd, if_neg hne, if_pos (hacc.resolve_left hd)]
  rw [Pin.detTick_of_detect hmode hdetect, latches_classify, decide_eq_true hne, Bool.true_and]

/-- A change short of the debounce length only counts. -/
theorem Pin.detTick_of_pending (hne : raw ≠ q.detLvl) (hd : q.dben = true)
    (hlt : q.dbCnt.toNat + 1 < debounceLength dbtime) :
    q.detTick dbtime raw choice = { q with dbCnt := q.dbCnt + 1, cfgwin := false } := by
  have hdetect : q.detect dbtime raw = ({ q with dbCnt := q.dbCnt + 1 }, none) := by
    rw [Pin.detect, if_neg (ne_false_of_eq_true hv), if_neg (ne_false_of_eq_true hd), if_neg hne, if_neg hlt.not_ge,
      ofNat_toNat_succ]
  rw [Pin.detTick_of_detect hmode hdetect, Pin.latches, Bool.or_false]

/-- A sample equal to the level starts the count over, with debounce or without. -/
theorem Pin.detTick_of_same (heq : raw = q.detLvl) :
    q.detTick dbtime raw choice = { q with dbCnt := 0, cfgwin := false } := by
  have hdetect : q.detect dbtime raw = ({ q with dbCnt := 0 }, none) := by
    rw [Pin.detect, if_neg (ne_false_of_eq_true hv), if_pos heq, heq, classify, if_pos rfl, ite_self]
  rw [Pin.detTick_of_detect hmode hdetect, Pin.latches, Bool.or_false]

end Started

/-- Settles O42: one equation of the detector's tick for each case. -/
theorem acceptedEdgeLatches : Obligations.AcceptedEdgeLatches := by
  intro q dbtime raw choice hmode hv
  exact ⟨Pin.detTick_of_accepted hmode hv, Pin.detTick_of_pending hmode hv, Pin.detTick_of_same hmode hv⟩

/-! ### The debounce filter over a run of samples (R207) -/

/-- A detector run over one more sample is the run before it, and that sample's tick. -/
theorem Pin.detRun_concat (q : Pin) (dbtime : TimeCode) (samples : List (Bool × Bool)) (x : Bool × Bool) :
    q.detRun dbtime (samples ++ [x]) = (q.detRun dbtime samples).detTick dbtime x.1 x.2 := List.foldl_concat ..

/-- A count below the debounce length fits the counter. -/
theorem toNat_ofNat_of_lt_debounceLength {dbtime : TimeCode} {n : Nat} (hlegal : LegalCode dbtime)
    (hn : n < debounceLength dbtime) : (BitVec.ofNat 16 n).toNat = n := by
  have hmax : debounceLength dbtime ≤ 32768 := max_le (base_le_ticksMax hlegal) (by decide)
  exact Nat.mod_eq_of_lt (by omega)

section Debounced

variable {q : Pin} {dbtime : TimeCode} {samples : List (Bool × Bool)}
  (hmode : q.mode = .input ∨ q.mode = .inputPullUp) (hv : q.detValid = true) (hd : q.dben = true)
  (hwin : q.cfgwin = false) (hcnt : q.dbCnt = 0) (hlegal : LegalCode dbtime)

include hmode hv hd hwin hcnt hlegal

/-- Fewer differing samples than the debounce length are counted, and nothing else. -/
theorem Pin.detRun_of_pending (hdiff : ∀ x ∈ samples, x.1 = !q.detLvl)
    (hlen : samples.length < debounceLength dbtime) :
    q.detRun dbtime samples = { q with dbCnt := BitVec.ofNat 16 samples.length } := by
  induction samples using List.reverseRecOn with
  | nil =>
    show q = { q with dbCnt := 0 }
    rw [← hcnt]
  | append_singleton init x ih =>
    rw [List.length_append, List.length_singleton] at hlen ⊢
    have hinitLen : init.length < debounceLength dbtime := by omega
    have hval := toNat_ofNat_of_lt_debounceLength hlegal hinitLen
    have hx : x.1 ≠ q.detLvl := by simp [hdiff x (by simp)]
    have hinit := ih (fun y hy => hdiff y (List.mem_append_left _ hy)) hinitLen
    rw [Pin.detRun_concat, hinit,
      Pin.detTick_of_pending (q := { q with dbCnt := BitVec.ofNat 16 init.length }) hmode hv hx hd
        (by rwa [hval]), BitVec.ofNat_add, ← hwin]
    rfl

/-- The last sample of the debounce length moves the level and latches a wanted edge. -/
theorem Pin.detRun_of_accepted (hdiff : ∀ x ∈ samples, x.1 = !q.detLvl)
    (hlen : samples.length = debounceLength dbtime) :
    q.detRun dbtime samples = { q with
      detLvl := !q.detLvl, source := q.source || (q.mask && EdgeWanted q.sense (!q.detLvl)) } := by
  obtain rfl | ⟨init, x, rfl⟩ := samples.eq_nil_or_concat'
  · have hpos : 1 ≤ debounceLength dbtime := le_max_right _ _
    rw [← hlen] at hpos
    exact absurd hpos (by decide)
  · rw [List.length_append, List.length_singleton] at hlen
    have hinitLen : init.length < debounceLength dbtime := by omega
    have hval := toNat_ofNat_of_lt_debounceLength hlegal hinitLen
    have hx : x.1 = !q.detLvl := hdiff x (by simp)
    have hinit := Pin.detRun_of_pending hmode hv hd hwin hcnt hlegal
      (fun y hy => hdiff y (List.mem_append_left _ hy)) hinitLen
    rw [Pin.detRun_concat, hinit,
      Pin.detTick_of_accepted (q := { q with dbCnt := BitVec.ofNat 16 init.length }) hmode hv (by simp [hx])
        (.inr (by rw [hval, hlen]))]
    simp only [hx, hwin, hcnt, Bool.not_false, Bool.true_or, Bool.and_true]

end Debounced

/-- Settles O43: the run by induction on its samples, the equal sample after it by the tick's own equation. -/
theorem debounceNeedsConsecutiveSamples : Obligations.DebounceNeedsConsecutiveSamples := by
  intro q dbtime samples hmode hv hd hwin hcnt hlegal hdiff
  refine ⟨fun hlen => ?_, Pin.detRun_of_accepted hmode hv hd hwin hcnt hlegal hdiff⟩
  have hrun := Pin.detRun_of_pending hmode hv hd hwin hcnt hlegal hdiff hlen
  refine ⟨hrun, fun choice => ?_⟩
  rw [hrun, Pin.detTick_of_same (q := { q with dbCnt := BitVec.ofNat 16 samples.length }) hmode hv rfl, ← hcnt,
    ← hwin]

end Sys2Proof.Machine
end

section
/-! System commands (46_system.md): READ_REG over the reserved and the readable addresses, and RESET. -/

namespace Sys2Proof.Machine

/-! ### READ_REG (R230) -/

/-- The reserved addresses of 10_state.md R46: from 0xA0 up, and the two spare cells of each LED block. -/
theorem reservedAddr_eq_true_iff {a : Nat} :
    reservedAddr a = true ↔ 0xA0 ≤ a ∨ (0x20 ≤ a ∧ 6 ≤ (a - 0x20) % 8) := by
  simp only [reservedAddr, Bool.or_eq_true, Bool.and_eq_true, decide_eq_true_eq]

/-- The readable addresses: below the LED blocks every cell, in them all but the spare ones. -/
theorem reservedAddr_eq_false_iff {a : Nat} :
    reservedAddr a = false ↔ a < 0xA0 ∧ (0x20 ≤ a → (a - 0x20) % 8 < 6) := by
  rw [← Bool.not_eq_true, reservedAddr_eq_true_iff, not_or, not_and, not_le, not_le]

section ReadReg

variable {addr : Byte} (s : State)

theorem exec_readReg_of_reserved (h : reservedAddr addr.toNat = true) :
    exec (.readReg addr) s = s.raise .invalidParameter := if_pos h

theorem exec_readReg_of_readable (h : reservedAddr addr.toNat = false) :
    exec (.readReg addr) s = s.finish s.block [s.block.view addr.toNat] := if_neg (ne_true_of_eq_false h)

end ReadReg

/-- Settles O47: a reserved address is rejected, any other finishes on the block unchanged. -/
theorem readRegPeeksView : Obligations.ReadRegPeeksView := by
  intro addr s
  refine ⟨rfl, fun hres => ?_, fun hlt hcell => ?_⟩
  · exact answersError_of_raise (exec_readReg_of_reserved s (reservedAddr_eq_true_iff.mpr hres))
  · exact answersOk_of_finish (exec_readReg_of_readable s (reservedAddr_eq_false_iff.mpr ⟨hlt, hcell⟩)) rfl

/-! ### RESET (R231, R233) -/

theorem noWave_reset : NoWave Pin.reset := ⟨rfl, rfl, rfl, rfl, rfl, rfl, rfl⟩

/-- Settles O50: RESET finishes on the reset block, of which every pin is a reset pin. -/
theorem resetRestoresEveryField : Obligations.ResetRestoresEveryField := by
  refine ⟨rfl, fun s => answersOk_of_finish (b := Block.reset) rfl ⟨rfl, rfl, rfl, fun p => ?pins, ?keypad⟩⟩
  case pins =>
    rw [Block.pin_reset]
    exact ⟨rfl, rfl, rfl, noWave_reset, rfl, rfl, rfl, rfl, rfl, rfl, rfl, rfl⟩
  case keypad =>
    exact ⟨rfl, rfl, rfl, rfl, rfl, rfl, rfl, rfl, rfl, rfl, Keypad.run_reset, rfl, rfl, rfl⟩

end Sys2Proof.Machine
end

section
/-! Exceptions (60_exceptions.md): the status a command can raise, and the state a failed command leaves. -/

namespace Sys2Proof.Machine

/-- Only IllegalCommand has a status byte over 5 (R241). -/
theorem Status.toNat_code_le_five {st : Status} (h : st ≠ .illegalCommand) : st.code.toNat ≤ 5 := by
  cases st with
  | illegalCommand => exact absurd rfl h
  | ok | invalidPin | wrongMode | invalidParameter | outOfRange | noKeyPressed => decide

/-- Settles O53: a command raises, which leaves the block, or finishes, which answers OK. -/
theorem failedCommandChangesNothing : Obligations.FailedCommandChangesNothing := by
  intro i s
  have hanswer := exec_answer i s
  generalize exec i s = r at hanswer ⊢
  cases hanswer with
  | raised st hst =>
    obtain ⟨-, hlegal⟩ := hst
    exact ⟨_, st.code, [], rfl, ⟨rfl, rfl, rfl, rfl⟩, Status.toNat_code_le_five hlegal, fun _ => ⟨rfl, rfl⟩⟩
  | finished b results =>
    exact ⟨_, 0x00, results, rfl, ⟨rfl, rfl, rfl, rfl⟩, by decide, fun hfailed => absurd rfl hfailed⟩

end Sys2Proof.Machine
end

section
/-! The frames (30_encoding.md): a command decodes back from its frame, and a step runs it. -/

namespace Sys2Proof

/-! ### Each reader on the bytes of its operands (R81) -/

theorem readW_bytes16 (k : Half → Instr) (w : Half) : readW k (bytes16 w) = some (k w) :=
  congrArg (fun x => some (k x)) (be16_of_bytes16 w)

theorem readWB_bytes16 (k : Half → Byte → Instr) (w : Half) (x : Byte) :
    readWB k (bytes16 w ++ [x]) = some (k w x) :=
  congrArg (fun y => some (k y x)) (be16_of_bytes16 w)

theorem readPinWW_bytes16 (k : Byte → Half → Half → Instr) (p : Byte) (v w : Half) :
    readPinWW k (p :: (bytes16 v ++ bytes16 w)) = some (k p v w) := by
  simp only [bytes16, List.cons_append, List.nil_append, readPinWW, be16_of_bytes16]

theorem readPinWWWW_bytes16 (k : Byte → Half → Half → Half → Half → Instr) (p : Byte) (u v w x : Half) :
    readPinWWWW k (p :: (bytes16 u ++ bytes16 v ++ bytes16 w ++ bytes16 x)) = some (k p u v w x) := by
  simp only [bytes16, List.cons_append, List.nil_append, readPinWWWW, be16_of_bytes16]

theorem readKp_bytes16 (k : Byte → Byte → Half → Half → Half → Instr) (r c : Byte) (u v w : Half) :
    readKp k (r :: c :: (bytes16 u ++ bytes16 v ++ bytes16 w)) = some (k r c u v w) := by
  simp only [bytes16, List.cons_append, List.nil_append, readKp, be16_of_bytes16]

/-- A command's row reads the command back from its operand bytes. -/
theorem readOperands_operandBytes : ∀ i : Instr, readOperands i.mnemonic (operandBytes i) = some i
  | .setMode .. | .writeDigital .. | .readDigital .. | .setIntensity .. | .stop .. | .readKeyData | .setEdgeSense ..
  | .setMask .. | .enableDebounce .. | .readSource | .codecDecode .. | .setDivider .. | .readReg .. | .reset => rfl
  | .decodeRow raw => readW_bytes16 _ raw
  | .decodeCol raw => readW_bytes16 _ raw
  | .setGlobalDebounce ms => readW_bytes16 _ ms
  | .codecEncode ms dv => readWB_bytes16 _ ms dv
  | .blink pin onMs offMs => readPinWW_bytes16 _ pin onMs offMs
  | .breathe pin onMs offMs riseMs fallMs => readPinWWWW_bytes16 _ pin onMs offMs riseMs fallMs
  | .configureKeypad rows cols sleepMs scanMs debMs => readKp_bytes16 _ rows cols sleepMs scanMs debMs

/-! ### Frames and commands (R84) -/

theorem decode_encode (i : Instr) : decode (encode i) = .ok i := by
  rw [encode, decode_of_row (mnemonicOf_opcodeOf _), readOperands_operandBytes]

theorem length_encode (i : Instr) : (encode i).length = (formatOf i.mnemonic).length := by
  cases i <;> rfl

/-- Settles O1: the opcode selects the command's row, and the row's reader undoes the operand bytes. -/
theorem decodeEncodeRoundTrip : Obligations.DecodeEncodeRoundTrip :=
  fun i => ⟨decode_encode i, length_encode i⟩

/-- Settles O2: a frame that decodes is legal, and a legal frame is the frame of the command it decodes to. -/
theorem encodeDecodeRoundTrip : Obligations.EncodeDecodeRoundTrip := by
  intro f i hdec
  cases f with
  | nil => cases hdec
  | cons op args =>
    have hlegal : ¬ IllegalFrame op args := fun hillegal => by
      obtain ⟨e, herr⟩ := decode_of_illegalFrame hillegal
      cases hdec.symm.trans herr
    obtain ⟨j, hj, henc⟩ := decode_of_not_illegalFrame hlegal
    obtain rfl : j = i := Except.ok.inj (hj.symm.trans hdec)
    exact henc

/-- Settles O4: each frame is `encode` of its command. -/
theorem specFramesDecode : Obligations.SpecFramesDecode :=
  ⟨decode_encode (.setMode 5 3), decode_encode (.breathe 5 500 600 500 250), decode_encode (.blink 5 500 500),
    decode_encode (.configureKeypad 4 3 256 2 1), decode_encode (.setGlobalDebounce 1),
    decode_encode (.codecEncode 500 0), decode_encode (.readReg 6), decode_encode .reset⟩

/-- Settles O5: the frame is fetched with its draws, and decodes. -/
theorem stepRunsDecodedCommand : Obligations.StepRunsDecodedCommand :=
  fun _ _ _ _ _ _ hs hd => Machine.step_of_decode_ok hs hd

end Sys2Proof
end

section
/-! The tick step (20_memory.md R71): it completes under the invariant, its engine groups are independent, and what it
latches. -/

namespace Sys2Proof.Machine

/-- Settles O6: the tick is fetched with its draws, or made with free ones, and completes. -/
theorem tickStepCompletes : Obligations.TickStepCompletes := by
  intro s hinv
  refine ⟨fun d rest hs => ?_, fun hs => ?_⟩
  · rw [step, State.fetch_of_cons hs]
    exact State.tick_of_inv hinv
  · rw [step, State.fetch_of_empty hs]
    exact State.tick_of_inv hinv

/-- Settles O7: the LED engine gives a phase and a count, and the detector's tick, which reads neither, the rest. -/
theorem tickGroupsAreIndependent : Obligations.TickGroupsAreIndependent := by
  intro b d hinv
  refine ⟨b.tick_clkdiv d, b.tick_dbtime d, b.tick_kp d, fun p => ?_⟩
  obtain ⟨hpins, -⟩ := hinv
  obtain ⟨q, hled, -⟩ := Pin.ledTick_of_inv (hpins p)
  obtain ⟨ph, cnt, rfl⟩ := Pin.ledTick_eq_some hled
  obtain ⟨v, l, n, src, hdet, -⟩ :=
    (b.pin p).detTick_cases b.dbtime (d.pinIn.getLsbD p.val) (d.latchChoice.getLsbD p.val)
  rw [Block.pin_tick, Block.pinTick_eq hled, hdet]
  exact ⟨⟨_, hled, ⟨rfl, rfl, rfl, rfl, rfl, rfl, rfl, rfl, rfl, rfl⟩, ⟨rfl, rfl, rfl, rfl, rfl, rfl, rfl, rfl⟩,
      rfl, rfl, rfl, rfl, rfl, rfl⟩,
    ⟨_, rfl, ⟨rfl, rfl, rfl, rfl, rfl, rfl, rfl, rfl⟩, ⟨rfl, rfl, rfl, rfl, rfl, rfl, rfl, rfl, rfl, rfl⟩,
      rfl, rfl, rfl, rfl, rfl⟩⟩

/-- Stuck or not, the LED engine of a tick touches the phase and the count only. -/
theorem Pin.ledTick_getD (q : Pin) : ∃ ph cnt, q.ledTick.getD q = { q with ledPhase := ph, ledCnt := cnt } := by
  cases htick : q.ledTick with
  | none => exact ⟨q.ledPhase, q.ledCnt, rfl⟩
  | some q' => exact Pin.ledTick_eq_some htick

/-- The detector alone writes SOURCE in a tick. -/
theorem Block.source_pin_tick (b : Block) (d : Draws) (p : PinNo) :
    ((b.tick d).pin p).source =
      ((b.pin p).detTick b.dbtime (d.pinIn.getLsbD p.val) (d.latchChoice.getLsbD p.val)).source := by
  obtain ⟨ph, cnt, hled⟩ := (b.pin p).ledTick_getD
  rw [Block.pin_tick, Block.pinTick, hled, Pin.detTick_withLed]

/-- Settles O44: the detector latches a wanted edge only, and no other engine writes SOURCE. -/
theorem tickLatchesOnlyWantedEdges : Obligations.TickLatchesOnlyWantedEdges := by
  intro b d p hbefore hafter
  obtain ⟨v, l, n, src, hdet, -, -, hlatch⟩ :=
    (b.pin p).detTick_cases b.dbtime (d.pinIn.getLsbD p.val) (d.latchChoice.getLsbD p.val)
  rw [Block.source_pin_tick, hdet] at hafter
  obtain ⟨hmode, hrest⟩ := hlatch hbefore hafter
  exact ⟨Mode.isInput_iff.mp hmode, hrest⟩

end Sys2Proof.Machine
end

section
/-! The invariant (10_state.md section 9): what it says of one pin and of the pins a keypad owns, and that it holds at
reset and is kept by every step. -/

namespace Sys2Proof.Machine

/-! ### The invariant of one pin (R48 items 1 to 6 and 10) -/

section OnePin

variable {q q' : Pin}

/-- With the mode, the LED profile and its engine kept, three items bind the rest of a pin. -/
theorem Pin.inv_of_sameLed (h : q.Inv) (hled : SameLed q q') (hmode : q'.mode = q.mode) (hlevel : q'.LevelNeedsOutput)
    (hsource : q'.SourceNeedsEnable) (hcnt : q'.DebounceBounded) : q'.Inv := by
  obtain ⟨hwave, hprofile, -, hcodes, hlegal, -, hphase, -⟩ := h
  obtain ⟨hi, hw, hton, htoff, htrise, htfall, hph, hc⟩ := hled
  have hlen (ph : Phase) : q'.len ph = q.len ph := by
    cases ph <;> simp only [Pin.len, Pin.phaseCode, hton, htoff, htrise, htfall]
  refine ⟨?_, ?_, hlevel, ?_, ?_, hsource, ?_, hcnt⟩
  all_goals simp only [Pin.WaveNeedsAnalog, Pin.ProfileNeedsAnalog, Pin.CodesMatchWave, Pin.CodesLegal,
    Pin.EngineInPhase, hlen, hi, hw, hton, htoff, htrise, htfall, hph, hc, hmode]
  all_goals assumption

/-- A pin without a waveform, whose INTENSITY is 0 unless it is AnalogOutput. -/
theorem Pin.inv_of_noWave (hno : NoWave q) (hintensity : q.mode ≠ .analogOutput → q.intensity = 0)
    (hlevel : q.LevelNeedsOutput) (hsource : q.SourceNeedsEnable) (hcnt : q.DebounceBounded) : q.Inv := by
  obtain ⟨hw, hton, htoff, htrise, htfall, hph, hc⟩ := hno
  refine ⟨fun hne => absurd hw hne, fun hm => ⟨hintensity hm, hw, hton, htoff, htrise, htfall⟩, hlevel, ?_, ?_, hsource,
    ⟨fun _ => ⟨hph, hc⟩, fun hne => absurd hw hne⟩, hcnt⟩
  · rw [Pin.CodesMatchWave, hw]
    exact ⟨fun _ => ⟨hton, htoff, htrise, htfall⟩, nofun, nofun⟩
  · rw [Pin.CodesLegal, hton, htoff, htrise, htfall]
    decide

/-- Outside AnalogOutput a pin has no waveform. -/
theorem Pin.noWave_of_inv (h : q.Inv) (hmode : q.mode ≠ .analogOutput) : NoWave q := by
  obtain ⟨-, hprofile, -, -, -, -, ⟨hrest, -⟩, -⟩ := h
  obtain ⟨-, hw, hton, htoff, htrise, htfall⟩ := hprofile hmode
  obtain ⟨hph, hc⟩ := hrest hw
  exact ⟨hw, hton, htoff, htrise, htfall, hph, hc⟩

/-- An AnalogOutput pin may have any LED profile with the codes of its waveform and the engine inside a phase. -/
theorem Pin.inv_of_sameOutsideLed (h : q.Inv) (hout : SameOutsideLed q q') (hmode : q.mode = .analogOutput)
    (hcodes : q'.CodesMatchWave) (hlegal : q'.CodesLegal) (hphase : q'.EngineInPhase) : q'.Inv := by
  obtain ⟨-, -, hlevel, -, -, hsource, -, hcnt⟩ := h
  obtain ⟨hm, ho, hs, hk, -, hsrc, -, -, hdb, -⟩ := hout
  have hanalog : q'.mode = .analogOutput := hm.trans hmode
  refine ⟨fun _ => hanalog, fun hne => absurd hanalog hne, ?_, hcodes, hlegal, ?_, hphase, ?_⟩
  · simpa only [Pin.LevelNeedsOutput, hm, ho] using hlevel
  · simpa only [Pin.SourceNeedsEnable, hs, hk, hsrc] using hsource
  · simpa only [Pin.DebounceBounded, hdb] using hcnt

/-- A mode transition leaves no waveform: it clears the profile, or the pin had none. -/
theorem Pin.inv_of_modeTransition {m : Mode} (h : q.Inv) (ht : ModeTransition q q' m) : q'.Inv := by
  obtain ⟨-, hlevel, -, hcnt, -, ⟨hs, hk, -, hsrc⟩, -, hleave, hkeep⟩ := ht
  have hno : NoWave q' ∧ q'.intensity = 0 := by
    by_cases hmode : q.mode = .analogOutput
    · exact (hleave hmode).symm
    · obtain ⟨hw, hton, htoff, htrise, htfall, hph, hc⟩ := Pin.noWave_of_inv h hmode
      obtain ⟨ki, kw, kton, ktoff, ktrise, ktfall, kph, kc⟩ := hkeep hmode
      obtain ⟨-, hprofile, -⟩ := h
      exact ⟨⟨kw.trans hw, kton.trans hton, ktoff.trans htoff, ktrise.trans htrise, ktfall.trans htfall, kph.trans hph,
        kc.trans hc⟩, ki.trans (hprofile hmode).1⟩
  obtain ⟨-, -, -, -, -, hsource, -⟩ := h
  refine Pin.inv_of_noWave hno.1 (fun _ => hno.2) (fun _ => hlevel) ?_ (by rw [Pin.DebounceBounded, hcnt]; decide)
  simpa only [Pin.SourceNeedsEnable, hs, hk, hsrc] using hsource

theorem Pin.inv_applyMode (h : q.Inv) (m : Mode) : (q.applyMode m).Inv := by
  by_cases hmode : q.mode = m
  · rwa [Pin.applyMode_same hmode]
  · exact Pin.inv_of_modeTransition h (Pin.modeTransition_applyMode hmode)

theorem Pin.inv_withOutlvl (h : q.Inv) (v : Bool) (hv : q.mode ≠ .output → v = false) :
    Pin.Inv { q with outlvl := v } := by
  obtain ⟨-, -, -, -, -, hsource, -, hcnt⟩ := id h
  exact Pin.inv_of_sameLed h ⟨rfl, rfl, rfl, rfl, rfl, rfl, rfl, rfl⟩ rfl hv hsource hcnt

/-- New interrupt settings and a withdrawn or kept SOURCE bit. -/
theorem Pin.inv_withInterrupt (h : q.Inv) (sense : Sense) (mask dben source cfgwin : Bool) {cnt : BitVec 16}
    (hsource : source = true → mask = true ∧ sense ≠ .none) (hcnt : cnt.toNat < 32768) :
    Pin.Inv { q with sense, mask, dben, source, cfgwin, dbCnt := cnt } := by
  obtain ⟨-, -, hlevel, -⟩ := id h
  exact Pin.inv_of_sameLed h ⟨rfl, rfl, rfl, rfl, rfl, rfl, rfl, rfl⟩ rfl hlevel hsource hcnt

/-- An AnalogOutput pin whose waveform is cleared. -/
theorem Pin.inv_clearWave (h : q.Inv) (hmode : q.mode = .analogOutput) (value : Byte) :
    Pin.Inv { q.clearWave with intensity := value } := by
  obtain ⟨-, -, hlevel, -, -, hsource, -, hcnt⟩ := h
  exact Pin.inv_of_noWave ⟨rfl, rfl, rfl, rfl, rfl, rfl, rfl⟩ (fun hne => absurd hmode hne) hlevel hsource hcnt

/-- An armed blink. -/
theorem Pin.inv_blink (h : q.Inv) (hmode : q.mode = .analogOutput) {cOn cOff : TimeCode} (hOn : LegalCode cOn)
    (hOff : LegalCode cOff) (hlen : ¬(cOn = 0 ∧ cOff = 0)) :
    Pin.Inv { q with
      wave := .blink, ton := cOn, toff := cOff, trise := 0, tfall := 0,
      ledPhase := if cOn = 0 then .off else .on, ledCnt := 0 } := by
  have henter := (Pin.enterPhase_blink (q := { q with
    wave := .blink, ton := cOn, toff := cOff, trise := 0, tfall := 0 }) rfl hlen).1
  exact Pin.inv_of_sameOutsideLed h (sameOutsideLed_withLed ..) hmode ⟨nofun, fun _ => ⟨rfl, rfl, hlen⟩, nofun⟩
    ⟨hOn, hOff, Nat.zero_le _, Nat.zero_le _⟩ (Pin.enterPhase_inPhase (show Wave.blink ≠ .none by decide) henter)

/-- An armed breathe. -/
theorem Pin.inv_breathe (h : q.Inv) (hmode : q.mode = .analogOutput) {cOn cOff cRise cFall : TimeCode}
    (hOn : LegalCode cOn) (hOff : LegalCode cOff) (hRise : LegalCode cRise) (hFall : LegalCode cFall)
    (hrise : cRise ≠ 0) (hfall : cFall ≠ 0) :
    Pin.Inv { q with
      wave := .breathe, ton := cOn, toff := cOff, trise := cRise, tfall := cFall, ledPhase := .rise, ledCnt := 0 } := by
  have henter := (Pin.enterPhase_breathe (q := { q with
    wave := .breathe, ton := cOn, toff := cOff, trise := cRise, tfall := cFall }) rfl hrise hfall).1
  exact Pin.inv_of_sameOutsideLed h (sameOutsideLed_withLed ..) hmode ⟨nofun, nofun, fun _ => ⟨hrise, hfall⟩⟩
    ⟨hOn, hOff, hRise, hFall⟩ (Pin.enterPhase_inPhase (show Wave.breathe ≠ .none by decide) henter)

/-- A detector tick latches SOURCE of a pin that is masked in and has a sense only. -/
theorem Pin.inv_detTick (h : q.Inv) {dbtime : TimeCode} (hlegal : LegalCode dbtime) (raw choice : Bool) :
    (q.detTick dbtime raw choice).Inv := by
  obtain ⟨v, l, n, src, htick, hcnt, -, hlatch⟩ := q.detTick_cases dbtime raw choice
  obtain ⟨-, -, hlevel, -, -, hsource, -⟩ := id h
  rw [htick]
  refine Pin.inv_of_sameLed h ⟨rfl, rfl, rfl, rfl, rfl, rfl, rfl, rfl⟩ rfl hlevel (fun hsrc => ?_) (hcnt hlegal)
  by_cases hold : q.source = true
  · exact hsource hold
  · obtain ⟨-, -, -, hmask, hwanted, -⟩ := hlatch (Bool.eq_false_iff.mpr hold) hsrc
    refine ⟨hmask, fun hnone => ?_⟩
    rw [show q.sense = .none from hnone] at hwanted
    cases hwanted

/-- An LED tick moves the engine within the phases. -/
theorem Pin.inv_ledTick (h : q.Inv) (htick : q.ledTick = some q') : q'.Inv := by
  obtain ⟨r, hr, hphase⟩ := Pin.ledTick_of_inv h
  obtain rfl : q' = r := Option.some.inj (htick.symm.trans hr)
  obtain ⟨ph, cnt, rfl⟩ := Pin.ledTick_eq_some htick
  obtain ⟨hwave, hprofile, hlevel, hcodes, hlegal, hsource, -, hcnt⟩ := h
  exact ⟨hwave, hprofile, hlevel, hcodes, hlegal, hsource, hphase, hcnt⟩

end OnePin

/-! ### The pins of a keypad (R48 item 7) -/

/-- The mode of a pin the keypad owns: rows are on pins 0 to 7, columns on pins 8 to 15 (44_keypad.md R170, R172).
`Keypad.roleMode_of_owns` ties it to the assignment. -/
def ownedMode (p : PinNo) : Mode := if p.val < 8 then .output else .inputPullUp

theorem Keypad.ownsRow_iff {k : Keypad} {p : PinNo} : k.ownsRow p = true ↔ k.owns p = true ∧ p.val < 8 := by
  simp only [Keypad.owns, Keypad.ownsRow, Keypad.ownsCol, Bool.or_eq_true, Bool.and_eq_true, decide_eq_true_eq]
  constructor
  · rintro ⟨he, hp, hrow⟩
    exact ⟨.inl ⟨he, hp, hrow⟩, Nat.lt_succ_of_le hp⟩
  · rintro ⟨hrow | ⟨-, hp, -⟩, hlt⟩
    · exact hrow
    · exact absurd hp hlt.not_ge

theorem Keypad.ownsCol_iff {k : Keypad} {p : PinNo} : k.ownsCol p = true ↔ k.owns p = true ∧ 8 ≤ p.val := by
  simp only [Keypad.owns, Keypad.ownsRow, Keypad.ownsCol, Bool.or_eq_true, Bool.and_eq_true, decide_eq_true_eq]
  constructor
  · rintro ⟨he, hp, hcol⟩
    exact ⟨.inr ⟨he, hp, hcol⟩, hp⟩
  · rintro ⟨⟨-, hp, -⟩ | hcol, hge⟩
    · exact absurd hge (Nat.lt_succ_of_le hp).not_ge
    · exact hcol

theorem Keypad.roleMode_of_owns (old : Keypad) {new : Keypad} {p : PinNo} (h : new.owns p = true) :
    old.roleMode new p = some (ownedMode p) := by
  simp only [Keypad.roleMode, Keypad.ownsRow_iff, Keypad.ownsCol_iff, h, true_and, ownedMode]
  split
  · rfl
  · next hp => rw [if_pos (Nat.le_of_not_lt hp)]

/-- R48 item 7 by the mode of a pin's role. -/
theorem Block.ownedPinsReady_of_ownedMode {b : Block}
    (h : ∀ p, b.owned p = true → (b.pin p).mode = ownedMode p ∧ (b.pin p).outlvl = false) : b.OwnedPinsReady := by
  intro p
  refine ⟨fun hrow => ?_, fun hcol => ?_⟩
  · obtain ⟨hown, hp⟩ := Keypad.ownsRow_iff.mp hrow
    obtain ⟨hmode, hlevel⟩ := h p hown
    exact ⟨hmode.trans (if_pos hp), hlevel⟩
  · obtain ⟨hown, hp⟩ := Keypad.ownsCol_iff.mp hcol
    obtain ⟨hmode, -⟩ := h p hown
    exact hmode.trans (if_neg hp.not_gt)

/-- Under the invariant an owned pin is in the mode of its role with OUTLVL 0. -/
theorem Block.pin_of_owned {b : Block} (h : b.Inv) {p : PinNo} (hown : b.owned p = true) :
    (b.pin p).mode = ownedMode p ∧ (b.pin p).outlvl = false := by
  obtain ⟨hpins, -, -, -, hready⟩ := h
  obtain ⟨hrow, hcol⟩ := hready p
  obtain ⟨-, -, hlevel, -⟩ := hpins p
  unfold ownedMode
  split
  · next hp => exact hrow (Keypad.ownsRow_iff.mpr ⟨hown, hp⟩)
  · next hp =>
    have hmode := hcol (Keypad.ownsCol_iff.mpr ⟨hown, Nat.le_of_not_lt hp⟩)
    exact ⟨hmode, hlevel (by rw [hmode]; decide)⟩

theorem ownedMode_ne_analogOutput (p : PinNo) : ownedMode p ≠ .analogOutput := by
  unfold ownedMode
  split <;> decide

theorem Keypad.outlvl_clearTaken {old new : Keypad} {p : PinNo} (hnew : new.owns p = true) (hold : old.owns p = false)
    (q : Pin) : (old.clearTaken new p q).outlvl = false := by
  rw [Keypad.clearTaken, hnew, hold]
  rfl

/-- Moved there by the transition or there already, a pin is in the mode of its role. -/
theorem Block.mode_pin_assignKeypad {b : Block} {new : Keypad} {p : PinNo} {m : Mode}
    (h : b.kp.roleMode new p = some m) : ((b.assignKeypad new).pin p).mode = m := by
  obtain ⟨hmove, hstay, -⟩ := Block.pin_assignKeypad_of_role h
  generalize (b.assignKeypad new).pin p = q at hmove hstay ⊢
  by_cases hmode : (b.pin p).mode = m
  · exact (congrArg Pin.mode (hstay hmode)).trans hmode
  · exact (hmove hmode).1

/-- Where the new keypad owns a pin, the pin is in the mode of its role with OUTLVL 0; one owned before is as before. -/
theorem Block.pin_assignKeypad_of_owns {b : Block} (h : b.Inv) {new : Keypad} {p : PinNo} (hown : new.owns p = true) :
    ((b.assignKeypad new).pin p).mode = ownedMode p ∧ ((b.assignKeypad new).pin p).outlvl = false ∧
    (b.owned p = true → (b.assignKeypad new).pin p = b.pin p) := by
  have hrole := Keypad.roleMode_of_owns b.kp hown
  obtain ⟨-, -, hkept⟩ := Block.pin_assignKeypad_of_role hrole
  cases hold : b.owned p with
  | true =>
    obtain ⟨hmode, hlevel⟩ := Block.pin_of_owned h hold
    rw [hkept hmode hold]
    exact ⟨hmode, hlevel, fun _ => rfl⟩
  | false =>
    have hlevel : ((b.assignKeypad new).pin p).outlvl = false := by
      rw [Block.pin_assignKeypad, Keypad.outlvl_clearTaken hown hold]
    exact ⟨Block.mode_pin_assignKeypad hrole, hlevel, nofun⟩

/-! ### Owned pins (R140, R172, R267) -/

/-- Settles O22: an owned pin is in the mode of its role, which is not AnalogOutput; and SET_MODE and WRITE_DIGITAL
reject an owned pin in any mode. -/
theorem ownedPinsRejectPinCommands : Obligations.OwnedPinsRejectPinCommands := by
  intro s p pin x a c e f hinv hown hpin
  have hmode : (s.block.pin p).mode ≠ .analogOutput :=
    (Block.pin_of_owned hinv hown).1 ▸ ownedMode_ne_analogOutput p
  obtain ⟨-, -, hsetMode⟩ := setModeAppliesTransition pin x s
  obtain ⟨-, -, hwriteDigital⟩ := writeDigitalWritesOutlvl pin x s
  obtain ⟨-, -, hsetIntensity⟩ := setIntensityStopsWaveform pin x s
  obtain ⟨-, -, hblink⟩ := blinkArmsWaveform pin a c s
  obtain ⟨-, -, hbreathe⟩ := breatheArmsWaveform pin a c e f s
  obtain ⟨-, -, hstop⟩ := stopRestoresIntensity pin s
  exact ⟨(hsetMode p hpin).1 hown, (hwriteDigital p hpin).1 (.inr hown), (hsetIntensity p hpin).1 hmode,
    (hblink p hpin).1 hmode, (hbreathe p hpin).1 hmode, (hstop p hpin).1 hmode⟩

/-- Only OK has the status byte 0 (60_exceptions.md R241). -/
theorem Status.code_ne_zero {st : Status} (h : st ≠ .ok) : st.code ≠ 0x00 := by
  cases st with
  | ok => exact absurd rfl h
  | invalidPin | wrongMode | invalidParameter | outOfRange | noKeyPressed | illegalCommand => decide

/-- A command answered OK has had its effect. -/
theorem effect_of_answered_ok {i : Instr} {s t : State} {results : List Byte} (h : exec i s = .next t)
    (hok : t.outbox = s.outbox ++ [0x00 :: results]) : Effect i s.block t.block := by
  have hanswer := exec_answer i s
  generalize hr : exec i s = r at hanswer
  cases hanswer with
  | raised st hst =>
    obtain rfl := State.raise_eq_next_iff.mp (hr.symm.trans h)
    obtain ⟨hne, -⟩ := hst
    obtain ⟨hcode, -⟩ := List.cons.inj (List.cons.inj (List.append_cancel_left hok)).1
    exact absurd hcode (Status.code_ne_zero hne)
  | finished b rs heffect =>
    obtain rfl := State.finish_eq_next_iff.mp (hr.symm.trans h)
    exact heffect

/-- Settles O28: the effect is the assignment of a keypad that owns the pin. -/
theorem configureKeypadSettlesOwnedLevels : Obligations.ConfigureKeypadSettlesOwnedLevels := by
  intro rows cols sleepMs scanMs debMs s t hinv hexec hok p m hown hm
  obtain ⟨r, c, cSleep, cScan, cDeb, -, -, -, -, -, -, hblock⟩ := effect_of_answered_ok hexec hok
  rw [hblock, Block.owned, Block.assignKeypad_kp] at hown
  rw [hblock, hm]
  exact Block.pin_assignKeypad_of_owns hinv hown

/-! ### The invariant of the block -/

theorem Pin.inv_reset : Pin.reset.Inv := by decide

theorem Block.inv_reset : Block.reset.Inv := by
  refine ⟨fun p => ?_, Nat.zero_le _, by decide, nofun, Block.ownedPinsReady_of_ownedMode fun p hown => ?_⟩
  · rw [Block.pin_reset]
    exact Pin.inv_reset
  · cases hown

/-- Settles O51: every pin is a reset pin, and the keypad is off. -/
theorem invHoldsAtReset : Obligations.InvHoldsAtReset := Block.inv_reset

section OneBlock

variable {b : Block} (h : b.Inv)

include h

/-- Pins with the invariant, the owned ones with their mode and OUTLVL kept, beside a keypad that owns no others. -/
theorem Block.inv_of_pins {b' : Block}
    (hpins : ∀ p, (b'.pin p).Inv ∧
      (b.owned p = true → (b'.pin p).mode = (b.pin p).mode ∧ (b'.pin p).outlvl = (b.pin p).outlvl))
    (hdbtime : LegalCode b'.dbtime) (hconfig : b'.kp.ConfigOk) (hengine : b'.kp.EngineBounded)
    (howned : ∀ p, b'.owned p = b.owned p) : b'.Inv := by
  refine ⟨fun p => (hpins p).1, hdbtime, hconfig, hengine, Block.ownedPinsReady_of_ownedMode fun p hown => ?_⟩
  rw [howned] at hown
  obtain ⟨hmode, hlevel⟩ := (hpins p).2 hown
  rw [hmode, hlevel]
  exact Block.pin_of_owned h hown

theorem Block.inv_setPin {p : PinNo} {q : Pin} (hq : q.Inv)
    (hrole : b.owned p = true → q.mode = (b.pin p).mode ∧ q.outlvl = (b.pin p).outlvl) : (b.setPin p q).Inv := by
  obtain ⟨hpins, hdbtime, hconfig, hengine, -⟩ := id h
  refine Block.inv_of_pins h (fun r => ?_) hdbtime hconfig hengine fun _ => rfl
  rw [Block.pin_setPin]
  split
  · next hr => exact ⟨hq, hr ▸ hrole⟩
  · exact ⟨hpins r, fun _ => ⟨rfl, rfl⟩⟩

theorem Block.inv_readSource : (b.mapPins fun _ q => { q with source := false }).Inv := by
  obtain ⟨hpins, hdbtime, hconfig, hengine, -⟩ := id h
  have hkp := b.mapPins_kp fun _ q => { q with source := false }
  refine Block.inv_of_pins h (fun p => ?_) ((b.mapPins_dbtime _).symm ▸ hdbtime) (hkp.symm ▸ hconfig)
    (hkp.symm ▸ hengine) fun p => by rw [Block.owned, hkp, Block.owned]
  obtain ⟨-, -, -, -, -, -, -, hcnt⟩ := hpins p
  rw [Block.pin_mapPins]
  exact ⟨Pin.inv_withInterrupt (hpins p) _ _ _ false _ nofun hcnt, fun _ => ⟨rfl, rfl⟩⟩

/-- A tick keeps the roles of the keypad, and every pin's mode and OUTLVL. -/
theorem Block.inv_tick (d : Draws) : (b.tick d).Inv := by
  obtain ⟨hpins, hdbtime, hconfig, hengine, -⟩ := id h
  obtain ⟨⟨hen, hrows, hcols, -⟩, hconfig', hengine'⟩ := Keypad.tick_bounded d hconfig hengine
  rw [← b.tick_kp d] at hconfig' hengine'
  rw [← b.tick_dbtime d] at hdbtime
  refine Block.inv_of_pins h (fun p => ?_) hdbtime hconfig' hengine' fun p => ?_
  · obtain ⟨q, hled, -⟩ := Pin.ledTick_of_inv (hpins p)
    have hinv := Pin.inv_ledTick (hpins p) hled
    obtain ⟨ph, cnt, rfl⟩ := Pin.ledTick_eq_some hled
    rw [Block.pin_tick, Block.pinTick, hled, Option.getD_some]
    refine ⟨Pin.inv_detTick hinv (b.tick_dbtime d ▸ hdbtime) _ _, fun _ => ?_⟩
    obtain ⟨v, l, n, src, hdet, -⟩ := Pin.detTick_cases { b.pin p with ledPhase := ph, ledCnt := cnt } b.dbtime
      (d.pinIn.getLsbD p.val) (d.latchChoice.getLsbD p.val)
    rw [hdet]
    exact ⟨rfl, rfl⟩
  · simp only [Block.owned, Block.tick_kp, Keypad.owns, Keypad.ownsRow, Keypad.ownsCol, hen, hrows, hcols]

/-- CONFIGURE_KEYPAD readies the pins it owns, and applies a mode, with OUTLVL cleared, or nothing to the others. -/
theorem Block.inv_assignKeypad {new : Keypad} (hconfig : new.ConfigOk) (hengine : new.EngineBounded) :
    (b.assignKeypad new).Inv := by
  obtain ⟨hpins, hdbtime, -⟩ := id h
  refine ⟨fun p => ?_, (b.assignKeypad_dbtime new).symm ▸ hdbtime, (b.assignKeypad_kp new).symm ▸ hconfig,
    (b.assignKeypad_kp new).symm ▸ hengine, Block.ownedPinsReady_of_ownedMode fun p hown => ?_⟩
  · have hassigned : (b.kp.assignPin new p (b.pin p)).Inv := by
      rw [Keypad.assignPin_eq_elim]
      cases b.kp.roleMode new p with
      | none => exact hpins p
      | some m => exact Pin.inv_applyMode (hpins p) m
    rw [Block.pin_assignKeypad, Keypad.clearTaken]
    split
    · exact Pin.inv_withOutlvl hassigned false fun _ => rfl
    · exact hassigned
  · rw [Block.owned, Block.assignKeypad_kp] at hown
    obtain ⟨hmode, hlevel, -⟩ := Block.pin_assignKeypad_of_owns h hown
    exact ⟨hmode, hlevel⟩

end OneBlock

/-- The keypad a CONFIGURE_KEYPAD leaves has its engine at the start of a scan. -/
theorem Keypad.configured_bounded (r c : BitVec 3) {cSleep cScan cDeb : TimeCode} (hSleep : LegalCode cSleep)
    (hScan : LegalCode cScan) (hlt : cDeb.toNat < cScan.toNat) :
    (Keypad.configured r c cSleep cScan cDeb).ConfigOk ∧ (Keypad.configured r c cSleep cScan cDeb).EngineBounded := by
  have hpos : 0 < base cScan := lt_of_le_of_lt (Nat.zero_le _) (base_lt_base hlt hScan)
  exact ⟨⟨hSleep, hScan, hlt.le.trans hScan, nofun, fun _ => hlt⟩, fun _ => ⟨Nat.zero_le _,
    fun _ => ⟨hpos, fun x => (congrArg BitVec.toNat (Keypad.run_reset x)).le⟩, nofun⟩⟩

/-! ### The invariant of the machine -/

/-- What a command makes of a block with the invariant has it: one case for each way to write the block. -/
theorem Effect.keepsInv {i : Instr} {b b' : Block} (he : Effect i b b') (h : b.Inv) : b'.Inv := by
  obtain ⟨hpins, hdbtime, hconfig, hengine, hready⟩ := id h
  cases i with
  | readKeyData | decodeRow | decodeCol | codecEncode | codecDecode =>
    obtain rfl : b' = b := he
    exact h
  | readDigital =>
    obtain ⟨-, -, -, rfl⟩ := he
    exact h
  | readReg =>
    obtain ⟨-, rfl⟩ := he
    exact h
  | setDivider =>
    obtain ⟨d, -, rfl⟩ := he
    exact h
  | setGlobalDebounce ms =>
    obtain ⟨c, hc, rfl⟩ := he
    exact ⟨hpins, encodeMs_legal hc, hconfig, hengine, hready⟩
  | reset =>
    obtain rfl : b' = Block.reset := he
    exact Block.inv_reset
  | readSource =>
    obtain rfl : b' = _ := he
    exact Block.inv_readSource h
  | configureKeypad rows cols sleepMs scanMs debMs =>
    obtain ⟨r, c, cSleep, cScan, cDeb, -, -, hSleep, hScan, -, hlt, rfl⟩ := he
    obtain ⟨hconfig', hengine'⟩ := Keypad.configured_bounded r c (encodeMs_legal hSleep) (encodeMs_legal hScan) hlt
    exact Block.inv_assignKeypad h hconfig' hengine'
  | setMode pin mode =>
    obtain ⟨p, m, -, hfree, -, rfl⟩ := he
    exact Block.inv_setPin h (Pin.inv_applyMode (hpins p) m) fun hown => absurd hown (ne_true_of_eq_false hfree)
  | writeDigital pin level =>
    obtain ⟨p, v, -, hout, hfree, -, rfl⟩ := he
    exact Block.inv_setPin h (Pin.inv_withOutlvl (hpins p) v fun hne => absurd hout hne) fun hown =>
      absurd hown (ne_true_of_eq_false hfree)
  | setIntensity pin value =>
    obtain ⟨p, -, hmode, rfl⟩ := he
    exact Block.inv_setPin h (Pin.inv_clearWave (hpins p) hmode value) fun _ => ⟨rfl, rfl⟩
  | stop pin =>
    obtain ⟨p, -, hmode, rfl⟩ := he
    exact Block.inv_setPin h (Pin.inv_clearWave (hpins p) hmode (b.pin p).intensity) fun _ => ⟨rfl, rfl⟩
  | blink pin onMs offMs =>
    obtain ⟨p, cOn, cOff, -, hmode, hOn, hOff, hlen, rfl⟩ := he
    exact Block.inv_setPin h (Pin.inv_blink (hpins p) hmode (encodeMs_legal hOn) (encodeMs_legal hOff) hlen) fun _ =>
      ⟨rfl, rfl⟩
  | breathe pin onMs offMs riseMs fallMs =>
    obtain ⟨p, cOn, cOff, cRise, cFall, -, hmode, hramp, hOn, hOff, hRise, hFall, rfl⟩ := he
    obtain ⟨hrise, hfall⟩ := not_or.mp hramp
    exact Block.inv_setPin h (Pin.inv_breathe (hpins p) hmode (encodeMs_legal hOn) (encodeMs_legal hOff)
      (encodeMs_legal hRise) (encodeMs_legal hFall) (mt (encodeMs_eq_zero_iff hRise).mp hrise)
      (mt (encodeMs_eq_zero_iff hFall).mp hfall)) fun _ => ⟨rfl, rfl⟩
  | setEdgeSense pin edge =>
    obtain ⟨p, e, -, -, rfl⟩ := he
    obtain ⟨-, -, -, -, -, hsource, -, hcnt⟩ := hpins p
    refine Block.inv_setPin h (Pin.inv_withInterrupt (hpins p) e (b.pin p).mask (b.pin p).dben _ _ (fun hsrc => ?_)
      hcnt) fun _ => ⟨rfl, rfl⟩
    split at hsrc
    · cases hsrc
    · next hne => exact ⟨(hsource hsrc).1, hne⟩
  | setMask pin enabled =>
    obtain ⟨p, v, -, -, rfl⟩ := he
    obtain ⟨-, -, -, -, -, hsource, -, hcnt⟩ := hpins p
    refine Block.inv_setPin h (Pin.inv_withInterrupt (hpins p) (b.pin p).sense v (b.pin p).dben _ _ (fun hsrc => ?_)
      hcnt) fun _ => ⟨rfl, rfl⟩
    split at hsrc
    · next hv => exact ⟨hv, (hsource hsrc).2⟩
    · cases hsrc
  | enableDebounce pin enabled =>
    obtain ⟨p, v, -, -, rfl⟩ := he
    obtain ⟨-, -, -, -, -, hsource, -⟩ := hpins p
    split
    · exact Block.inv_setPin h (hpins p) fun _ => ⟨rfl, rfl⟩
    · exact Block.inv_setPin h (Pin.inv_withInterrupt (hpins p) (b.pin p).sense (b.pin p).mask v (b.pin p).source
        (b.pin p).cfgwin hsource (by decide)) fun _ => ⟨rfl, rfl⟩

/-- A command completes, and keeps the invariant. -/
theorem exec_keepsInv (i : Instr) {s : State} (h : s.block.Inv) : ∃ t, exec i s = .next t ∧ t.block.Inv := by
  obtain ⟨t, -, -, hexec, -⟩ := failedCommandChangesNothing i s
  obtain hsame | heffect := exec_block hexec
  · exact ⟨t, hexec, hsame ▸ h⟩
  · exact ⟨t, hexec, heffect.keepsInv h⟩

/-- Settles O52: a step is a tick, free or scheduled, a command, or the answer to an illegal frame. -/
theorem stepKeepsInv : Obligations.StepKeepsInv := by
  intro s h
  obtain ⟨hscheduled, hfree⟩ := tickStepCompletes s h
  cases hinbox : s.inbox with
  | nil => exact ⟨_, hfree hinbox, Block.inv_tick h _⟩
  | cons event rest =>
    cases event with
    | tick d => exact ⟨_, hscheduled d rest hinbox, Block.inv_tick h d⟩
    | frame op args d =>
      cases hdec : decode (op :: args) with
      | ok i =>
        rw [step_of_decode_ok hinbox hdec]
        exact exec_keepsInv i h
      | error e =>
        rw [step_of_decode_error hinbox hdec]
        exact ⟨_, rfl, h⟩

end Sys2Proof.Machine
end

section
/-! The laws of the timing codec (41_timing_codec.md sections 1 and 2). -/

namespace Sys2Proof.Machine

/-! ### The values of BASE (R101, R102) -/

/-- BASE of an odd code: a power of two. -/
theorem baseOf_odd (m : Nat) : baseOf (2 * m + 1) = 2 * 2 ^ m := by
  have hmod : 2 * m % 2 = 0 := by omega
  have hdiv : 2 * m / 2 = m := by omega
  rw [baseOf, if_neg (by omega), Nat.add_sub_cancel, hmod, hdiv, Nat.shiftLeft_eq]

/-- BASE of the even code after it: half as much again. -/
theorem baseOf_even (m : Nat) : baseOf (2 * m + 2) = 3 * 2 ^ m := by
  have hmod : (2 * m + 1) % 2 = 1 := by omega
  have hdiv : (2 * m + 1) / 2 = m := by omega
  rw [baseOf, if_neg (by omega), Nat.add_succ_sub_one, hmod, hdiv, Nat.shiftLeft_eq]

/-- BASE grows by 3/2 from an odd code, and by 4/3 from an even one. -/
theorem baseOf_succ_ratio {n : Nat} (hn : 1 ≤ n) :
    (n % 2 = 1 → 2 * baseOf (n + 1) = 3 * baseOf n) ∧ (n % 2 = 0 → 3 * baseOf (n + 1) = 4 * baseOf n) := by
  refine ⟨fun hodd => ?_, fun heven => ?_⟩
  · obtain ⟨m, rfl⟩ : ∃ m, n = 2 * m + 1 := ⟨n / 2, by omega⟩
    rw [baseOf_even, baseOf_odd]
    ring
  · obtain ⟨m, rfl⟩ : ∃ m, n = 2 * m + 2 := ⟨n / 2 - 1, by omega⟩
    rw [baseOf_even, show 2 * m + 2 + 1 = 2 * (m + 1) + 1 from rfl, baseOf_odd]
    ring

/-! ### The laws (R106) -/

/-- A code is the nearest to its own duration. -/
theorem encTicks_baseOf {n : Nat} (hn : n ≤ 29) : encTicks (baseOf n) = n := by
  obtain hlt | heq | hgt := lt_trichotomy (encTicks (baseOf n)) n
  · have hmid := lt_baseOf_add_of_encTicks_lt hlt hn
    have hbase := baseOf_lt_baseOf hlt hn
    omega
  · exact heq
  · have hmid := baseOf_add_le_of_lt_encTicks hgt
    have hbase := baseOf_lt_baseOf hgt (encTicks_le _)
    omega

/-- The midpoint between a smaller and a larger code lies above one duration and not above the other. -/
theorem encTicks_mono {t u : Nat} (h : t ≤ u) : encTicks t ≤ encTicks u := by
  by_contra hlt
  have habove := lt_baseOf_add_of_encTicks_lt (not_le.mp hlt) (encTicks_le t)
  have hbelow := baseOf_add_le_of_lt_encTicks (not_le.mp hlt)
  omega

/-- A millisecond is four ticks at least, which is code 3. -/
theorem three_le_encTicks {t : Nat} (h : 4 ≤ t) : 3 ≤ encTicks t := by
  calc 3 = encTicks 4 := (encTicks_baseOf (n := 3) (by decide)).symm
    _ ≤ encTicks t := encTicks_mono h

/-- The nearest code is no farther than either neighbour of the duration. -/
theorem two_mul_dist_encTicks_le {n t : Nat} (hn : n < 29) (hlow : baseOf n ≤ t) (hhigh : t ≤ baseOf (n + 1)) :
    2 * Nat.dist (baseOf (encTicks t)) t ≤ baseOf (n + 1) - baseOf n := by
  have hmax : t ≤ 32768 := hhigh.trans (baseOf_max ▸ baseOf_le_baseOf hn le_rfl)
  obtain ⟨-, hnearest⟩ := encodePicksNearestTieToLarger t hmax
  have hleft := (hnearest n hn.le).1
  have hright := (hnearest (n + 1) hn).1
  rw [Nat.dist_eq_sub_of_le hlow] at hleft
  rw [Nat.dist_eq_sub_of_le_right hhigh] at hright
  omega

/-- Settles O10: the values of BASE by the parity of the code, the laws by those of ENC_T. -/
theorem codecLawsHold : Obligations.CodecLawsHold := by
  refine ⟨⟨baseOf_zero, baseOf_odd 0⟩, fun m n => baseOf_lt_baseOf, fun n hn _ => baseOf_succ_ratio hn,
    fun n => encTicks_baseOf, fun ms dv c _ hc hms => ?least, fun ms dv n c _ hc hn hlow hhigh => ?error,
    fun ms ms' dv c c' _ hc hc' hle => ?monotone⟩
  all_goals obtain ⟨-, hcode⟩ := encodeMs_eq_some_iff.mp hc
  case least =>
    have hpow : 0 < 2 ^ dv := Nat.pow_pos (by decide)
    have hticks : 4 ≤ ms.toNat * 4 * 2 ^ dv := le_mul_of_le_of_one_le (by omega) hpow
    exact hcode ▸ three_le_encTicks hticks
  case error =>
    rw [base, hcode]
    exact two_mul_dist_encTicks_le hn hlow hhigh
  case monotone =>
    obtain ⟨-, hcode'⟩ := encodeMs_eq_some_iff.mp hc'
    rw [hcode, hcode']
    exact encTicks_mono (Nat.mul_le_mul_right _ (Nat.mul_le_mul_right _ hle))

end Sys2Proof.Machine
end

section
/-! Waveforms over any number of ticks (43_led_driver.md section 2): the closed forms of a blink and of a breathe. -/

namespace Sys2Proof.Machine

/-! ### A periodic engine -/

/-- An engine whose tick goes from each of its positions to the next, and from the last back to the first, is at
position t mod the period after t ticks. -/
theorem Pin.ledRun_of_periodic {q : Pin} {pos : Nat → Pin} {period : Nat} (hperiod : 0 < period) (hstart : q = pos 0)
    (hstep : ∀ k < period, (pos k).ledTick = some (pos ((k + 1) % period))) (t : Nat) :
    q.ledRun t = some (pos (t % period)) := by
  induction t with
  | zero => rw [Pin.ledRun, Nat.zero_mod, ← hstart]
  | succ t ih =>
    have hnext := hstep (t % period) (Nat.mod_lt t hperiod)
    rw [Nat.mod_add_mod] at hnext
    rw [Pin.ledRun, ih]
    exact hnext

/-- The pin with its engine in a phase at a count. -/
def Pin.inPhase (q : Pin) (ph : Phase) (cnt : Nat) : Pin := { q with ledPhase := ph, ledCnt := BitVec.ofNat 16 cnt }

/-- The tick of an engine in the span of one phase, the positions from `start` to `stop`: the next position, given that
the engine enters the next phase at the position after the span. -/
theorem Pin.ledTick_of_span {q : Pin} {pos : Nat → Pin} {period start stop k : Nat} {ph next : Phase}
    (hmode : q.mode = .analogOutput) (hwave : q.wave ≠ .none) (hmax : q.len ph ≤ 32768)
    (hnext : nextPhase q.wave ph = some next) (hstop : start + q.len ph = stop)
    (hspan : ∀ j, start ≤ j → j < stop → pos j = q.inPhase ph (j - start)) (hperiod : stop ≤ period)
    (henter : q.enterPhase next = some (pos (stop % period))) (hlow : start ≤ k) (hhigh : k < stop) :
    (pos k).ledTick = some (pos ((k + 1) % period)) := by
  have hval : (q.inPhase ph (k - start)).ledCnt.toNat = k - start := Nat.mod_eq_of_lt (by omega)
  have hlen : (q.inPhase ph (k - start)).len ph = q.len ph := by cases ph <;> rfl
  rw [hspan k hlow hhigh]
  obtain hin | hend := Nat.lt_or_ge (k + 1) stop
  · have hcount : (q.inPhase ph (k - start)).ledCnt.toNat + 1 < (q.inPhase ph (k - start)).len ph := by omega
    rw [Nat.mod_eq_of_lt (hin.trans_le hperiod), hspan (k + 1) (by omega) hin, Nat.sub_add_comm hlow,
      Pin.ledTick_within (q := q.inPhase ph (k - start)) hmode hwave hcount, hval]
    rfl
  · have hcount : (q.inPhase ph (k - start)).len ph ≤ (q.inPhase ph (k - start)).ledCnt.toNat + 1 := by omega
    rw [show k + 1 = stop by omega, ← henter]
    exact Pin.ledTick_end (q := q.inPhase ph (k - start)) hmode hwave hcount hnext

theorem base_pos_iff {c : TimeCode} : 0 < base c ↔ c ≠ 0 := by
  rw [Nat.pos_iff_ne_zero, ne_eq, base_eq_zero_iff]

/-! ### Blink -/

/-- The blinking pin at a position of its cycle: ON for BASE(TON) ticks, then OFF. -/
def Pin.blinkAt (q : Pin) (k : Nat) : Pin :=
  if k < base q.ton then q.inPhase .on k else q.inPhase .off (k - base q.ton)

theorem Pin.blinkAt_on {q : Pin} {k : Nat} (h : k < base q.ton) : q.blinkAt k = q.inPhase .on k := if_pos h

theorem Pin.blinkAt_off {q : Pin} {k : Nat} (h : base q.ton ≤ k) : q.blinkAt k = q.inPhase .off (k - base q.ton) :=
  if_neg h.not_gt

/-- The cycle begins in the first phase that has a length. -/
theorem Pin.blinkAt_zero (q : Pin) : q.blinkAt 0 = q.inPhase (if q.ton = 0 then .off else .on) 0 := by
  split
  · next hon =>
    have hzero := base_eq_zero_iff.mpr hon
    rw [Pin.blinkAt_off hzero.le, hzero]
  · next hon => exact Pin.blinkAt_on (base_pos_iff.mpr hon)

section Blink

variable {q : Pin} (hwave : q.wave = .blink) (hlen : ¬(q.ton = 0 ∧ q.toff = 0))

include hwave hlen

theorem Pin.enterPhase_on_of_blink : q.enterPhase .on = some (q.blinkAt 0) := by
  rw [(Pin.enterPhase_blink hwave hlen).1, Pin.blinkAt_zero]
  rfl

/-- OFF is entered after the span of ON, or, where it has no length, ON again. -/
theorem Pin.enterPhase_off_of_blink :
    q.enterPhase .off = some (q.blinkAt (base q.ton % (base q.ton + base q.toff))) := by
  rw [(Pin.enterPhase_blink hwave hlen).2]
  split
  · next hoff =>
    rw [base_eq_zero_iff.mpr hoff, Nat.add_zero, Nat.mod_self, Pin.blinkAt_zero, if_neg fun hon => hlen ⟨hon, hoff⟩]
    rfl
  · next hoff =>
    rw [Nat.mod_eq_of_lt (Nat.lt_add_of_pos_right (base_pos_iff.mpr hoff)), Pin.blinkAt_off le_rfl, Nat.sub_self]
    rfl

theorem Pin.ledTick_blinkAt (hmode : q.mode = .analogOutput) (hOn : LegalCode q.ton) (hOff : LegalCode q.toff) :
    ∀ k < base q.ton + base q.toff,
      (q.blinkAt k).ledTick = some (q.blinkAt ((k + 1) % (base q.ton + base q.toff))) := by
  intro k hk
  have harmed : q.wave ≠ .none := by rw [hwave]; decide
  obtain hon | hoff := Nat.lt_or_ge k (base q.ton)
  · exact Pin.ledTick_of_span (ph := .on) (next := .off) hmode harmed (base_le_ticksMax hOn) (by rw [hwave]; rfl)
      (Nat.zero_add _) (fun j _ hj => Pin.blinkAt_on hj) (Nat.le_add_right _ _) (Pin.enterPhase_off_of_blink hwave hlen)
      (Nat.zero_le k) hon
  · exact Pin.ledTick_of_span (stop := base q.ton + base q.toff) (ph := .off) (next := .on) hmode harmed
      (base_le_ticksMax hOff) (by rw [hwave]; rfl) rfl (fun j hj _ => Pin.blinkAt_off hj) le_rfl
      (by rw [Nat.mod_self]; exact Pin.enterPhase_on_of_blink hwave hlen) hoff hk

end Blink

/-- Settles O25: the engine is periodic over the positions of `Pin.blinkAt`. -/
theorem blinkIsPeriodic : Obligations.BlinkIsPeriodic := by
  intro q t hmode hwave hOn hOff hlen hcnt hph
  have hperiod : 0 < base q.ton + base q.toff := by
    by_contra hzero
    obtain ⟨hon, hoff⟩ := Nat.add_eq_zero_iff.mp (Nat.eq_zero_of_not_pos hzero)
    exact hlen ⟨base_eq_zero_iff.mp hon, base_eq_zero_iff.mp hoff⟩
  have hstart : q = q.blinkAt 0 := by
    rw [Pin.blinkAt_zero, ← hph, Pin.inPhase, show BitVec.ofNat 16 0 = q.ledCnt from hcnt.symm]
  exact Pin.ledRun_of_periodic hperiod hstart (Pin.ledTick_blinkAt hwave hlen hmode hOn hOff) t

/-! ### Breathe -/

/-- The breathing pin at a position of its cycle: RISE, ON, FALL and OFF, for the ticks of their codes. -/
def Pin.breatheAt (q : Pin) (k : Nat) : Pin :=
  if k < base q.trise then q.inPhase .rise k
  else if k < base q.trise + base q.ton then q.inPhase .on (k - base q.trise)
  else if k < base q.trise + base q.ton + base q.tfall then q.inPhase .fall (k - (base q.trise + base q.ton))
  else q.inPhase .off (k - (base q.trise + base q.ton + base q.tfall))

section BreatheAt

variable {q : Pin} {k : Nat}

theorem Pin.breatheAt_rise (h : k < base q.trise) : q.breatheAt k = q.inPhase .rise k := if_pos h

theorem Pin.breatheAt_on (hlow : base q.trise ≤ k) (h : k < base q.trise + base q.ton) :
    q.breatheAt k = q.inPhase .on (k - base q.trise) := by
  rw [Pin.breatheAt, if_neg hlow.not_gt, if_pos h]

theorem Pin.breatheAt_fall (hlow : base q.trise + base q.ton ≤ k)
    (h : k < base q.trise + base q.ton + base q.tfall) :
    q.breatheAt k = q.inPhase .fall (k - (base q.trise + base q.ton)) := by
  rw [Pin.breatheAt, if_neg (by omega), if_neg hlow.not_gt, if_pos h]

theorem Pin.breatheAt_off (hlow : base q.trise + base q.ton + base q.tfall ≤ k) :
    q.breatheAt k = q.inPhase .off (k - (base q.trise + base q.ton + base q.tfall)) := by
  rw [Pin.breatheAt, if_neg (by omega), if_neg (by omega), if_neg hlow.not_gt]

end BreatheAt

section Breathe

variable {q : Pin} (hwave : q.wave = .breathe) (hrise : q.trise ≠ 0) (hfall : q.tfall ≠ 0)

include hwave hrise hfall

theorem Pin.enterPhase_rise_of_breathe : q.enterPhase .rise = some (q.breatheAt 0) := by
  rw [(Pin.enterPhase_breathe hwave hrise hfall).1, Pin.breatheAt_rise (base_pos_iff.mpr hrise)]
  rfl

/-- ON is entered after the span of RISE, or, where it has no length, FALL. -/
theorem Pin.enterPhase_on_of_breathe : q.enterPhase .on = some (q.breatheAt (base q.trise)) := by
  obtain ⟨-, henter, -⟩ := Pin.enterPhase_breathe hwave hrise hfall
  rw [henter]
  split
  · next hon =>
    have hzero := base_eq_zero_iff.mpr hon
    have hpos := base_pos_iff.mpr hfall
    rw [Pin.breatheAt_fall (by omega) (by omega), hzero, Nat.add_zero, Nat.sub_self]
    rfl
  · next hon =>
    have hpos := base_pos_iff.mpr hon
    rw [Pin.breatheAt_on le_rfl (by omega), Nat.sub_self]
    rfl

theorem Pin.enterPhase_fall_of_breathe : q.enterPhase .fall = some (q.breatheAt (base q.trise + base q.ton)) := by
  obtain ⟨-, -, henter, -⟩ := Pin.enterPhase_breathe hwave hrise hfall
  have hpos := base_pos_iff.mpr hfall
  rw [henter, Pin.breatheAt_fall le_rfl (by omega), Nat.sub_self]
  rfl

/-- OFF is entered after the span of FALL, or, where it has no length, RISE. -/
theorem Pin.enterPhase_off_of_breathe :
    q.enterPhase .off = some (q.breatheAt ((base q.trise + base q.ton + base q.tfall) %
      (base q.trise + base q.ton + base q.tfall + base q.toff))) := by
  obtain ⟨-, -, -, henter⟩ := Pin.enterPhase_breathe hwave hrise hfall
  rw [henter]
  split
  · next hoff =>
    rw [base_eq_zero_iff.mpr hoff, Nat.add_zero, Nat.mod_self, Pin.breatheAt_rise (base_pos_iff.mpr hrise)]
    rfl
  · next hoff =>
    rw [Nat.mod_eq_of_lt (Nat.lt_add_of_pos_right (base_pos_iff.mpr hoff)), Pin.breatheAt_off le_rfl, Nat.sub_self]
    rfl

theorem Pin.ledTick_breatheAt (hmode : q.mode = .analogOutput) (hlegal : q.CodesLegal) :
    ∀ k < base q.trise + base q.ton + base q.tfall + base q.toff,
      (q.breatheAt k).ledTick =
        some (q.breatheAt ((k + 1) % (base q.trise + base q.ton + base q.tfall + base q.toff))) := by
  intro k hk
  have hriseLen := base_pos_iff.mpr hrise
  have hfallLen := base_pos_iff.mpr hfall
  have hmax := Pin.len_le_ticksMax hlegal
  have harmed : q.wave ≠ .none := by rw [hwave]; decide
  have hnext {ph next : Phase} (h : nextPhase .breathe ph = some next) : nextPhase q.wave ph = some next := hwave ▸ h
  obtain hk1 | hk1 := Nat.lt_or_ge k (base q.trise)
  · exact Pin.ledTick_of_span (stop := base q.trise) hmode harmed (hmax .rise) (hnext rfl) (Nat.zero_add _)
      (fun j _ hj => Pin.breatheAt_rise hj) (by omega)
      (by rw [Nat.mod_eq_of_lt (by omega)]; exact Pin.enterPhase_on_of_breathe hwave hrise hfall) (Nat.zero_le k) hk1
  obtain hk2 | hk2 := Nat.lt_or_ge k (base q.trise + base q.ton)
  · exact Pin.ledTick_of_span (stop := base q.trise + base q.ton) hmode harmed (hmax .on) (hnext rfl) rfl
      (fun j => Pin.breatheAt_on) (by omega)
      (by rw [Nat.mod_eq_of_lt (by omega)]; exact Pin.enterPhase_fall_of_breathe hwave hrise hfall) hk1 hk2
  obtain hk3 | hk3 := Nat.lt_or_ge k (base q.trise + base q.ton + base q.tfall)
  · exact Pin.ledTick_of_span (stop := base q.trise + base q.ton + base q.tfall) hmode harmed (hmax .fall) (hnext rfl)
      rfl (fun j => Pin.breatheAt_fall) (Nat.le_add_right _ _) (Pin.enterPhase_off_of_breathe hwave hrise hfall) hk2 hk3
  · exact Pin.ledTick_of_span (stop := base q.trise + base q.ton + base q.tfall + base q.toff) hmode harmed (hmax .off)
      (hnext rfl) rfl (fun j hj _ => Pin.breatheAt_off hj) le_rfl
      (by rw [Nat.mod_self]; exact Pin.enterPhase_rise_of_breathe hwave hrise hfall) hk3 hk

end Breathe

/-- Settles O26: the engine is periodic over the positions of `Pin.breatheAt`. -/
theorem breatheIsPeriodic : Obligations.BreatheIsPeriodic := by
  intro q t hmode hwave hOn hOff hRise hFall hrise hfall hcnt hph
  have hpos := base_pos_iff.mpr hrise
  have hstart : q = q.breatheAt 0 := by
    rw [Pin.breatheAt_rise hpos, ← hph, Pin.inPhase, show BitVec.ofNat 16 0 = q.ledCnt from hcnt.symm]
  exact Pin.ledRun_of_periodic (by omega) hstart
    (Pin.ledTick_breatheAt hwave hrise hfall hmode ⟨hOn, hOff, hRise, hFall⟩) t

end Sys2Proof.Machine
end

section
/-! The keypad scan over any number of ticks (44_keypad.md section 2): the position in the cycle, and the key held
through its row's window. -/

namespace Sys2Proof.Machine

/-! ### Runs of the engine -/

theorem SameKeypadConfig.trans {k₁ k₂ k₃ : Keypad} (h : SameKeypadConfig k₁ k₂) (h' : SameKeypadConfig k₂ k₃) :
    SameKeypadConfig k₁ k₃ := by
  obtain ⟨hen, hrows, hcols, hsleep, hscan, hdeb⟩ := h
  obtain ⟨hen', hrows', hcols', hsleep', hscan', hdeb'⟩ := h'
  exact ⟨hen'.trans hen, hrows'.trans hrows, hcols'.trans hcols, hsleep'.trans hsleep, hscan'.trans hscan,
    hdeb'.trans hdeb⟩

/-- Whatever the samples, a run keeps the configuration and the bounds of the engine. -/
theorem Keypad.ticks_bounded {k : Keypad} (ds : List Draws) (hc : k.ConfigOk) (hb : k.EngineBounded) :
    SameKeypadConfig k (k.ticks ds) ∧ (k.ticks ds).ConfigOk ∧ (k.ticks ds).EngineBounded := by
  induction ds using List.reverseRecOn with
  | nil => exact ⟨⟨rfl, rfl, rfl, rfl, rfl, rfl⟩, hc, hb⟩
  | append_singleton ds d ih =>
    obtain ⟨hsame, hc', hb'⟩ := ih
    obtain ⟨hsame', hc'', hb''⟩ := Keypad.tick_bounded d hc' hb'
    rw [Keypad.ticks_concat]
    exact ⟨hsame.trans hsame', hc'', hb''⟩

/-- With the engine in its bounds its count does not wrap. -/
theorem toNat_ofNat_succ {cnt : BitVec 16} {len : Nat} (hlt : cnt.toNat + 1 < len) (hmax : len ≤ 32768) :
    (BitVec.ofNat 16 (cnt.toNat + 1)).toNat = cnt.toNat + 1 := Nat.mod_eq_of_lt (by omega)

/-! ### The position in the cycle (R175, R179) -/

/-- The length of a cycle: the window of every row, and the sleep. -/
def Keypad.cycle (k : Keypad) : Nat := k.rows * base k.scanCode + base k.sleepCode

/-- The engine is `pos` ticks into its cycle: in the scan, the windows of the rows before the current one and the
count; asleep, at row 0, the whole scan and the count. -/
def Keypad.AtPosition (k : Keypad) (pos : Nat) : Prop :=
  match k.state with
  | .scan => pos = k.row.toNat * base k.scanCode + k.cnt.toNat
  | .sleep => k.row = 0 ∧ pos = k.rows * base k.scanCode + k.cnt.toNat

section AtPosition

variable {k : Keypad} {pos : Nat}

theorem Keypad.atPosition_scan_iff (hs : k.state = .scan) :
    k.AtPosition pos ↔ pos = k.row.toNat * base k.scanCode + k.cnt.toNat := by
  rw [Keypad.AtPosition, hs]

theorem Keypad.atPosition_sleep_iff (hs : k.state = .sleep) :
    k.AtPosition pos ↔ k.row = 0 ∧ pos = k.rows * base k.scanCode + k.cnt.toNat := by
  rw [Keypad.AtPosition, hs]

/-- The windows of the rows up to one in use, with that row's own. -/
theorem Keypad.windows_le {r : Nat} (hr : r ≤ k.rowsM1.toNat) :
    r * base k.scanCode + base k.scanCode ≤ k.rows * base k.scanCode :=
  Nat.succ_mul r _ ▸ Nat.mul_le_mul_right _ (Nat.succ_le_succ hr)

-- Below, `by exact` delays the equation of the state until the goal has fixed the keypad.

section Tick

variable (d : Draws) (hc : k.ConfigOk) (hb : k.EngineBounded) (he : k.en = true)

include hc hb he

theorem Keypad.tick_atPosition_of_scan (hs : k.state = .scan) (hpos : k.AtPosition pos) :
    (k.tick d).AtPosition ((pos + 1) % k.cycle) := by
  obtain ⟨hrow, hscan, -⟩ := hb he
  obtain ⟨hcnt, -⟩ := hscan hs
  obtain ⟨-, hlegal, -⟩ := id hc
  have hr := Keypad.run_lt_max hc hb he hs
  have hwindows := Keypad.windows_le hrow
  have hcycle : k.cycle = k.rows * base k.scanCode + base k.sleepCode := rfl
  obtain rfl := (Keypad.atPosition_scan_iff hs).mp hpos
  obtain hw | hw := Nat.lt_or_ge (k.cnt.toNat + 1) (base k.scanCode)
  · rw [Keypad.tick_within he hs hw, Nat.mod_eq_of_lt (by omega), Keypad.atPosition_scan_iff (by exact hs),
      toNat_ofNat_succ hw (base_le_ticksMax hlegal), Nat.add_assoc]
  have hend : k.cnt.toNat + 1 = base k.scanCode := le_antisymm hcnt hw
  obtain hnext | hlast := Nat.lt_or_ge k.row.toNat k.rowsM1.toNat
  · obtain ⟨_, _, _, htick, -⟩ := Keypad.tick_nextRow (d := d) he hs hw hnext hr
    have hrowVal : (BitVec.ofNat 3 (k.row.toNat + 1)).toNat = k.row.toNat + 1 :=
      Nat.mod_eq_of_lt (by have := k.rowsM1.isLt; omega)
    have hwindows' := Keypad.windows_le hnext
    rw [Nat.succ_mul] at hwindows'
    rw [htick, Nat.mod_eq_of_lt (by omega), Keypad.atPosition_scan_iff (by exact hs), hrowVal, Nat.succ_mul,
      Nat.add_assoc, hend]
    rfl
  · obtain ⟨_, _, _, htick, -⟩ := Keypad.tick_endCycle (d := d) he hs hw hlast hr
    have hscanEnd : k.row.toNat * base k.scanCode + k.cnt.toNat + 1 = k.rows * base k.scanCode := by
      rw [Nat.add_assoc, hend, ← Nat.succ_mul, Keypad.rows, le_antisymm hrow hlast]
    rw [htick, hscanEnd, hcycle]
    by_cases hsleep : k.sleepCode = 0
    · rw [base_eq_zero_iff.mpr hsleep, Nat.add_zero, Nat.mod_self, Keypad.atPosition_scan_iff (by exact if_pos hsleep)]
      exact (Nat.zero_mul _).symm
    · rw [Nat.mod_eq_of_lt (Nat.lt_add_of_pos_right (base_pos_iff.mpr hsleep)),
        Keypad.atPosition_sleep_iff (by exact if_neg hsleep)]
      exact ⟨rfl, rfl⟩

theorem Keypad.tick_atPosition_of_sleep (hs : k.state = .sleep) (hpos : k.AtPosition pos) :
    (k.tick d).AtPosition ((pos + 1) % k.cycle) := by
  obtain ⟨-, -, hsleep⟩ := hb he
  obtain ⟨hcnt, -⟩ := hsleep hs
  obtain ⟨hlegal, -⟩ := hc
  have hcycle : k.cycle = k.rows * base k.scanCode + base k.sleepCode := rfl
  obtain ⟨hrow, rfl⟩ := (Keypad.atPosition_sleep_iff hs).mp hpos
  rw [Keypad.tick_sleep he hs]
  split
  · next hw =>
    rw [Nat.mod_eq_of_lt (by omega), Keypad.atPosition_sleep_iff (by exact hs),
      toNat_ofNat_succ hw (base_le_ticksMax hlegal), Nat.add_assoc]
    exact ⟨hrow, rfl⟩
  · next hw =>
    have hend : k.rows * base k.scanCode + k.cnt.toNat + 1 = k.cycle := by omega
    rw [hend, Nat.mod_self, Keypad.atPosition_scan_iff (by rfl), hrow]
    exact (Nat.zero_mul _).symm

/-- A tick goes one position on, and from the last position of the cycle to the first. -/
theorem Keypad.tick_atPosition (hpos : k.AtPosition pos) : (k.tick d).AtPosition ((pos + 1) % k.cycle) := by
  cases hs : k.state with
  | scan => exact Keypad.tick_atPosition_of_scan d hc hb he hs hpos
  | sleep => exact Keypad.tick_atPosition_of_sleep d hc hb he hs hpos

end Tick

end AtPosition

/-- The same configuration has windows, a scan and a cycle of the same length. -/
theorem SameKeypadConfig.lengths_eq {k k' : Keypad} (h : SameKeypadConfig k k') :
    base k'.scanCode = base k.scanCode ∧ k'.rows * base k'.scanCode = k.rows * base k.scanCode ∧
    k'.cycle = k.cycle := by
  obtain ⟨-, hrows, -, hsleep, hscan, -⟩ := h
  simp only [Keypad.cycle, Keypad.rows, hrows, hsleep, hscan, and_self]

/-- In its bounds an engine at a position of the scan is in the row and at the count the position says. -/
theorem Keypad.scan_of_atPosition {k : Keypad} {pos : Nat} (hb : k.EngineBounded) (he : k.en = true)
    (hpos : k.AtPosition pos) (hlt : pos < k.rows * base k.scanCode) :
    k.state = .scan ∧ k.row.toNat = pos / base k.scanCode ∧ k.cnt.toNat = pos % base k.scanCode := by
  obtain ⟨-, hscan, -⟩ := hb he
  cases hs : k.state with
  | scan =>
    obtain ⟨hcnt, -⟩ := hscan hs
    obtain rfl := (Keypad.atPosition_scan_iff hs).mp hpos
    refine ⟨rfl, ?_, ?_⟩
    · rw [Nat.mul_comm, Nat.mul_add_div (Nat.zero_lt_of_lt hcnt), Nat.div_eq_of_lt hcnt, Nat.add_zero]
    · rw [Nat.mul_add_mod_self_right, Nat.mod_eq_of_lt hcnt]
  | sleep =>
    obtain ⟨-, rfl⟩ := (Keypad.atPosition_sleep_iff hs).mp hpos
    exact absurd hlt (Nat.le_add_right _ _).not_gt

/-- In its bounds an engine at a later position is asleep since the end of the scan. -/
theorem Keypad.sleep_of_atPosition {k : Keypad} {pos : Nat} (hb : k.EngineBounded) (he : k.en = true)
    (hpos : k.AtPosition pos) (hge : k.rows * base k.scanCode ≤ pos) :
    k.state = .sleep ∧ k.row = 0 ∧ k.cnt.toNat = pos - k.rows * base k.scanCode := by
  obtain ⟨hrow, hscan, -⟩ := hb he
  cases hs : k.state with
  | scan =>
    obtain ⟨hcnt, -⟩ := hscan hs
    have hwindows := Keypad.windows_le hrow
    have hat := (Keypad.atPosition_scan_iff hs).mp hpos
    omega
  | sleep =>
    obtain ⟨hrow0, rfl⟩ := (Keypad.atPosition_sleep_iff hs).mp hpos
    exact ⟨rfl, hrow0, (Nat.add_sub_cancel_left ..).symm⟩

section FromStart

variable {k : Keypad} (hc : k.ConfigOk) (hb : k.EngineBounded) (he : k.en = true) (hstart : k.AtPosition 0)

include hc hb he hstart

/-- From the start of a cycle every tick goes one position on, whatever the samples. -/
theorem Keypad.ticks_atPosition (ds : List Draws) : (k.ticks ds).AtPosition (ds.length % k.cycle) := by
  induction ds using List.reverseRecOn with
  | nil =>
    rw [List.length_nil, Nat.zero_mod]
    exact hstart
  | append_singleton ds d ih =>
    obtain ⟨hsame, hc', hb'⟩ := Keypad.ticks_bounded ds hc hb
    have hnext := Keypad.tick_atPosition d hc' hb' (hsame.1.trans he) ih
    obtain ⟨-, -, hcycle⟩ := hsame.lengths_eq
    rw [hcycle, Nat.mod_add_mod] at hnext
    rw [Keypad.ticks_concat, List.length_append]
    exact hnext

/-- Before the first scan ends nothing is published. -/
theorem Keypad.keyData_ticks_of_lt {ds : List Draws} (hlen : ds.length < k.rows * base k.scanCode) :
    (k.ticks ds).keyData = k.keyData := by
  induction ds using List.reverseRecOn with
  | nil => rfl
  | append_singleton ds d ih =>
    rw [List.length_append, List.length_singleton] at hlen
    obtain ⟨⟨-, hrows, -, -, hscan, -⟩, hc', hb'⟩ := Keypad.ticks_bounded ds hc hb
    have hat := Keypad.ticks_atPosition hc hb he hstart ds
    rw [Nat.mod_eq_of_lt (by unfold Keypad.cycle; omega)] at hat
    rw [Keypad.ticks_concat, Keypad.tick_keyData d hc' hb', ih (by omega)]
    rintro ⟨-, hs, hend, hlast⟩
    rw [Keypad.atPosition_scan_iff hs, hlast, hrows, hscan] at hat
    rw [hscan] at hend
    rw [Keypad.rows, Nat.succ_mul] at hlen
    omega

/-- After any number of ticks, in the scan: the row and the count by the position in the cycle. -/
theorem Keypad.ticks_in_scan {ds : List Draws} (hlt : ds.length % k.cycle < k.rows * base k.scanCode) :
    (k.ticks ds).state = .scan ∧ (k.ticks ds).row.toNat = ds.length % k.cycle / base k.scanCode ∧
    (k.ticks ds).cnt.toNat = ds.length % k.cycle % base k.scanCode := by
  obtain ⟨hsame, -, hb'⟩ := Keypad.ticks_bounded ds hc hb
  obtain ⟨hwindow, hscan, -⟩ := hsame.lengths_eq
  rw [← hwindow]
  exact Keypad.scan_of_atPosition hb' (hsame.1.trans he) (Keypad.ticks_atPosition hc hb he hstart ds)
    (hlt.trans_eq hscan.symm)

/-- After any number of ticks, past the scan: asleep, at row 0, since the end of the scan. -/
theorem Keypad.ticks_in_sleep {ds : List Draws} (hge : k.rows * base k.scanCode ≤ ds.length % k.cycle) :
    (k.ticks ds).state = .sleep ∧ (k.ticks ds).row = 0 ∧
    (k.ticks ds).cnt.toNat = ds.length % k.cycle - k.rows * base k.scanCode := by
  obtain ⟨hsame, -, hb'⟩ := Keypad.ticks_bounded ds hc hb
  obtain ⟨-, hscan, -⟩ := hsame.lengths_eq
  rw [← hscan] at hge ⊢
  exact Keypad.sleep_of_atPosition hb' (hsame.1.trans he) (Keypad.ticks_atPosition hc hb he hstart ds) hge

end FromStart

/-- Settles O34: CONFIGURE_KEYPAD leaves the engine at position 0 of its cycle. -/
theorem keypadScanPosition : Obligations.KeypadScanPosition := by
  rintro r c cSleep cScan cDeb ds scan k kp hSleep hScan - hlt rfl rfl rfl
  obtain ⟨hc, hb⟩ := Keypad.configured_bounded r c hSleep hScan hlt
  have hstart : (Keypad.configured r c cSleep cScan cDeb).AtPosition 0 :=
    (Keypad.atPosition_scan_iff rfl).mpr (Nat.zero_mul _).symm
  exact ⟨Keypad.ticks_in_scan hc hb rfl hstart, Keypad.ticks_in_sleep hc hb rfl hstart,
    Keypad.keyData_ticks_of_lt hc hb rfl hstart⟩

/-! ### A key held through its row's window (R175 to R177) -/

/-- One tick more of a held column in use is one more low sample. -/
theorem Keypad.lowRun_of_low {k : Keypad} {d : Draws} {c : Fin 8} (h : d.pinIn.getLsbD (8 + c.val) = false) :
    k.lowRun d c = (k.run.get c).toNat + 1 := by
  rw [Keypad.lowRun, h, if_neg Bool.false_ne_true]

theorem Keypad.lowRun_of_high {k : Keypad} {d : Draws} {c : Fin 8} (h : d.pinIn.getLsbD (8 + c.val) = true) :
    k.lowRun d c = 0 := by
  rw [Keypad.lowRun, h, if_pos rfl]

theorem Keypad.lowRun_le (k : Keypad) (d : Draws) (c : Fin 8) : k.lowRun d c ≤ (k.run.get c).toNat + 1 := by
  unfold Keypad.lowRun
  split <;> omega

theorem Keypad.mem_detected {k : Keypad} {d : Draws} {c : Fin 8} :
    c ∈ k.detected d ↔ c.val ≤ k.colsM1.toNat ∧ max (base k.debCode) 1 ≤ k.lowRun d c := by
  simp only [Keypad.detected, List.mem_filter, List.mem_finRange, true_and, Bool.and_eq_true, decide_eq_true_eq]

/-- Where one column passes and every other is high on the sample, that column is the one detection. -/
theorem Keypad.detected_eq_singleton {k : Keypad} {d : Draws} {c : Fin 8} (hmem : c ∈ k.detected d)
    (hothers : ∀ x : Fin 8, x ≠ c → x.val ≤ k.colsM1.toNat → d.pinIn.getLsbD (8 + x.val) = true) :
    k.detected d = [c] := by
  have honly : ∀ x ∈ k.detected d, x = c := by
    intro x hx
    obtain ⟨hused, hrun⟩ := Keypad.mem_detected.mp hx
    by_contra hne
    rw [Keypad.lowRun_of_high (hothers x hne hused)] at hrun
    exact absurd (le_max_right _ _) (hrun.trans_lt Nat.one_pos).not_ge
  have hnodup : (k.detected d).Nodup := (List.nodup_finRange 8).filter _
  exact List.perm_singleton.mp ((List.perm_ext_iff_of_nodup hnodup (List.nodup_singleton c)).mpr fun x =>
    ⟨fun hx => List.mem_singleton.mpr (honly x hx), fun hx => List.mem_singleton.mp hx ▸ hmem⟩)

/-- A detection is the cycle's one so far, or there are several. -/
theorem HitsRecorded.of_mem {hits hits' : KpHits} {hitR hitC row hitR' hitC' : BitVec 3} {det : List (Fin 8)}
    {c : Fin 8} (h : HitsRecorded hits hitR hitC row det hits' hitR' hitC') (hmem : c ∈ det) :
    hits' = .many ∨ (hits = .zero ∧ hits' = .one ∧ hitR' = row ∧ hitC' = BitVec.ofNat 3 c.val) := by
  cases det with
  | nil => cases hmem
  | cons a rest =>
    cases hits with
    | zero =>
      cases rest with
      | nil =>
        obtain rfl := List.mem_singleton.mp hmem
        exact .inr ⟨rfl, h⟩
      | cons => exact .inl h.1
    | one | many => exact .inl (by cases rest <;> exact h.1)

theorem Keypad.published_of_many {k : Keypad} (h : k.hits = .many) (ghost : Half) : k.published ghost = ghost := by
  rw [Keypad.published, h]

theorem Keypad.published_of_one {k : Keypad} (h : k.hits = .one) (ghost : Half) :
    k.published ghost = (1#16 <<< (8 + k.hitR.toNat)) ||| (1#16 <<< k.hitC.toNat) := by
  rw [Keypad.published, h]

section Window

variable {k : Keypad} (hc : k.ConfigOk) (he : k.en = true) (hs : k.state = .scan) (hcnt : k.cnt = 0)
  (hrun : ∀ x : Fin 8, k.run.get x = 0)

include hc he hs hcnt hrun

/-- From the start of a window its ticks are counted, and with them the low samples of every held column. -/
theorem Keypad.ticks_within_window {ds : List Draws} (hlen : ds.length < base k.scanCode) :
    ∃ v : Vector (BitVec 16) 8, k.ticks ds = { k with run := v, cnt := BitVec.ofNat 16 ds.length } ∧
      (∀ x : Fin 8, (v.get x).toNat ≤ ds.length) ∧
      ∀ x : Fin 8, x.val ≤ k.colsM1.toNat → (∀ d ∈ ds, d.pinIn.getLsbD (8 + x.val) = false) →
        (v.get x).toNat = ds.length := by
  induction ds using List.reverseRecOn with
  | nil =>
    refine ⟨k.run, ?_, fun x => by simp [hrun x], fun x _ _ => by simp [hrun x]⟩
    show k = { k with cnt := 0 }
    rw [← hcnt]
  | append_singleton ds d ih =>
    rw [List.length_append, List.length_singleton] at hlen ⊢
    obtain ⟨v, hticks, hbound, hheld⟩ := ih (by omega)
    obtain ⟨-, hlegal, -⟩ := hc
    have hmax := base_le_ticksMax hlegal
    have hval : (BitVec.ofNat 16 ds.length).toNat = ds.length := Nat.mod_eq_of_lt (by omega)
    have hfit (x : Fin 8) : (v.get x).toNat < 65535 := by have := hbound x; omega
    refine ⟨Keypad.sampleColumns { k with run := v, cnt := BitVec.ofNat 16 ds.length } d.pinIn, ?_, fun x => ?_,
      fun x hused hlow => ?_⟩
    · rw [Keypad.ticks_concat, hticks, Keypad.tick_within (by exact he) (by exact hs) (by rwa [hval]), hval]
    · obtain hunused | hused := Nat.lt_or_ge k.colsM1.toNat x.val
      · rw [Keypad.get_sampleColumns_of_unused (by exact hunused)]
        exact (hbound x).trans (Nat.le_succ _)
      · rw [Keypad.get_sampleColumns_of_used (by exact hused) (hfit x)]
        exact (Keypad.lowRun_le _ d x).trans (Nat.succ_le_succ (hbound x))
    · have hlow' : ∀ d ∈ ds, d.pinIn.getLsbD (8 + x.val) = false := fun d' hd' => hlow d' (List.mem_append_left _ hd')
      rw [Keypad.get_sampleColumns_of_used (by exact hused) (hfit x), Keypad.lowRun_of_low (hlow d (by simp))]
      exact congrArg (· + 1) (hheld x hused hlow')

/-- A column held for the whole window is among the detections at its end, and, where every other column is high then,
the one detection. The engine goes on with what they record: before the last row it is kept, in the last row it is
published. -/
theorem Keypad.ticks_heldWindow {ds : List Draws} {last : Draws} {c : Fin 8} (hused : c.val ≤ k.colsM1.toNat)
    (hlen : ds.length + 1 = base k.scanCode) (hheld : ∀ d ∈ ds ++ [last], d.pinIn.getLsbD (8 + c.val) = false) :
    ∃ det hits hitR hitC, HitsRecorded k.hits k.hitR k.hitC k.row det hits hitR hitC ∧ c ∈ det ∧
      ((∀ x : Fin 8, x ≠ c → x.val ≤ k.colsM1.toNat → last.pinIn.getLsbD (8 + x.val) = true) → det = [c]) ∧
      (k.row.toNat < k.rowsM1.toNat → (k.ticks (ds ++ [last])).hits = hits ∧
        (k.ticks (ds ++ [last])).hitR = hitR ∧ (k.ticks (ds ++ [last])).hitC = hitC) ∧
      (k.row = k.rowsM1 → (k.ticks (ds ++ [last])).keyData =
        Keypad.published { k with hits := hits, hitR := hitR, hitC := hitC } last.ghost) := by
  obtain ⟨v, hticks, hbound, hrunHeld⟩ := Keypad.ticks_within_window hc he hs hcnt hrun (ds := ds) (by omega)
  obtain ⟨-, hlegal, -, -, hdeb⟩ := hc
  have hmax := base_le_ticksMax hlegal
  have hval : (BitVec.ofNat 16 ds.length).toNat = ds.length := Nat.mod_eq_of_lt (by omega)
  have hfit (x : Fin 8) : (v.get x).toNat < 65535 := by have := hbound x; omega
  have hcol : (v.get c).toNat = ds.length := hrunHeld c hused fun d hd => hheld d (List.mem_append_left _ hd)
  have hend : base k.scanCode ≤ (BitVec.ofNat 16 ds.length).toNat + 1 := by rw [hval, hlen]
  have hmem : c ∈ Keypad.detected { k with run := v, cnt := BitVec.ofNat 16 ds.length } last := by
    refine Keypad.mem_detected.mpr ⟨hused, ?_⟩
    rw [Keypad.lowRun_of_low (hheld last (by simp)), hcol, hlen]
    have hdebounce := base_lt_base (hdeb he) hlegal
    exact max_le hdebounce.le (Nat.one_le_of_lt hdebounce)
  rw [Keypad.ticks_concat, hticks]
  obtain hnext | hlast := Nat.lt_or_ge k.row.toNat k.rowsM1.toNat
  · obtain ⟨hits, hitR, hitC, htick, hrec⟩ := Keypad.tick_nextRow (k := { k with
      run := v, cnt := BitVec.ofNat 16 ds.length }) (d := last) he hs hend hnext hfit
    rw [htick]
    exact ⟨_, hits, hitR, hitC, hrec, hmem, Keypad.detected_eq_singleton hmem, fun _ => ⟨rfl, rfl, rfl⟩,
      fun hlast => absurd (congrArg BitVec.toNat hlast) hnext.ne⟩
  · obtain ⟨hits, hitR, hitC, htick, hrec⟩ := Keypad.tick_endCycle (k := { k with
      run := v, cnt := BitVec.ofNat 16 ds.length }) (d := last) he hs hend hlast hfit
    rw [htick]
    exact ⟨_, hits, hitR, hitC, hrec, hmem, Keypad.detected_eq_singleton hmem, fun hnext => absurd hnext hlast.not_gt,
      fun _ => rfl⟩

end Window

/-- Settles O35: what the window records of the held column, kept before the last row and published in it. -/
theorem heldKeyIsDetected : Obligations.HeldKeyIsDetected := by
  rintro k k' ds last c word hc he hs hcnt hrun - hused hlen hheld rfl rfl
  obtain ⟨det, hits, hitR, hitC, hrec, hmem, honly, hkept, hpublished⟩ :=
    Keypad.ticks_heldWindow hc he hs hcnt hrun hused hlen hheld
  have hcol : (BitVec.ofNat 3 c.val).toNat = c.val := Nat.mod_eq_of_lt c.isLt
  have hword (hone : hits = .one) (hr : hitR = k.row) (hcl : hitC = BitVec.ofNat 3 c.val) (hlast : k.row = k.rowsM1) :
      (k.ticks (ds ++ [last])).keyData = (1#16 <<< (8 + k.row.toNat)) ||| (1#16 <<< c.val) := by
    rw [hpublished hlast, Keypad.published_of_one (by exact hone), hr, hcl, hcol]
  refine ⟨fun hnext => ?next, fun hlast => ?last, fun hzero hothers => ?alone⟩
  case next =>
    obtain ⟨h1, h2, h3⟩ := hkept hnext
    rw [h1, h2, h3]
    obtain hmany | ⟨hzero, hone, hr, hcl⟩ := hrec.of_mem hmem
    · exact ⟨.inl hmany, fun _ => hmany⟩
    · exact ⟨.inr ⟨hzero, hone, hr, hcl ▸ hcol⟩, fun hne => absurd hzero hne⟩
  case last =>
    obtain hmany | ⟨hzero, hone, hr, hcl⟩ := hrec.of_mem hmem
    · have hghost : (k.ticks (ds ++ [last])).keyData = last.ghost := by
        rw [hpublished hlast, Keypad.published_of_many (by exact hmany)]
      exact ⟨.inl hghost, fun _ => hghost⟩
    · exact ⟨.inr ⟨hzero, hword hone hr hcl hlast⟩, fun hne => absurd hzero hne⟩
  case alone =>
    rw [honly hothers, hzero] at hrec
    obtain ⟨hone, hr, hcl⟩ := hrec
    refine ⟨fun hnext => ?_, hword hone hr hcl⟩
    obtain ⟨h1, h2, h3⟩ := hkept hnext
    rw [h1, h2, h3]
    exact ⟨hone, hr, hcl ▸ hcol⟩

end Sys2Proof.Machine
end

section
/-! The register view (46_system.md R232, 10_state.md R44 to R47), cell by cell. -/

namespace Sys2Proof.Machine

/-! ### The cells of one-bit fields -/

theorem Block.pinAt_val (b : Block) (p : PinNo) : b.pinAt p.val = b.pin p := by
  rw [Block.pinAt, Fin.ofNat_val_eq_self]

/-- A pin's bit in the cell of its bank. -/
theorem Block.getLsbD_pack1 (b : Block) (f : Pin → Bool) (p : PinNo) :
    (b.pack1 f (p.val / 8)).getLsbD (p.val % 8) = f (b.pin p) := by
  rw [Block.pack1, getLsbD_packBits, decide_eq_true (Nat.mod_lt _ (by decide)), Bool.true_and, Nat.div_add_mod,
    Block.pinAt_val]

/-- The two cells of each one-bit field, the high bank's first. -/
theorem Block.view_bank (b : Block) {bank : Nat} (h : bank < 2) :
    b.view (0x05 - bank) = b.pack1 Pin.outlvl bank ∧
    b.view (0x07 - bank) = b.pack1 (fun q => q.mode.dir) bank ∧
    b.view (0x09 - bank) = b.pack1 (fun q => q.mode.indis) bank ∧
    b.view (0x0B - bank) = b.pack1 (fun q => q.mode.pullup) bank ∧
    b.view (0x0D - bank) = b.pack1 (fun q => q.mode.od) bank ∧
    b.view (0x15 - bank) = b.pack1 Pin.mask bank ∧
    b.view (0x17 - bank) = b.pack1 Pin.dben bank ∧
    b.view (0x19 - bank) = b.pack1 Pin.source bank := by
  obtain rfl | rfl : bank = 0 ∨ bank = 1 := by omega
  all_goals exact ⟨rfl, rfl, rfl, rfl, rfl, rfl, rfl, rfl⟩

/-- The pad bits of each mode (10_state.md R24). -/
theorem Mode.padBits (m : Mode) :
    m.dir = decide (m = .input ∨ m = .inputPullUp) ∧ m.indis = decide (m = .analogOutput) ∧
    m.pullup = decide (m = .inputPullUp) ∧ m.od = decide (m = .analogOutput) := by
  cases m <;> decide

/-- Settles O48: the cell of the pin's bank packs the field. -/
theorem viewShowsOneBitFields : Obligations.ViewShowsOneBitFields := by
  intro b p
  obtain ⟨houtlvl, hdir, hindis, hpullup, hod, hmask, hdben, hsource⟩ :=
    b.view_bank (show p.val / 8 < 2 by have := p.isLt; omega)
  obtain ⟨mdir, mindis, mpullup, mod⟩ := (b.pin p).mode.padBits
  have hbit (f : Pin → Bool) := b.getLsbD_pack1 f p
  rw [houtlvl, hdir, hindis, hpullup, hod, hmask, hdben, hsource]
  exact ⟨hbit _, (hbit _).trans mdir, (hbit _).trans mindis, (hbit _).trans mpullup, (hbit _).trans mod, hbit _, hbit _,
    hbit _⟩

/-! ### The other cells -/

theorem toNat_append_eq_add {m n : Nat} (x : BitVec m) (y : BitVec n) :
    (x ++ y).toNat = x.toNat * 2 ^ n + y.toNat := by
  rw [BitVec.toNat_append, ← Nat.shiftLeft_add_eq_or_of_lt y.isLt, Nat.shiftLeft_eq]

/-- A pin's two bits in the cell of its four pins. -/
theorem Block.toNat_pack2 (b : Block) (f : Pin → BitVec 2) (k : Nat) {j : Nat} (hj : j < 4) :
    (b.pack2 f k).toNat / 4 ^ j % 4 = (f (b.pinAt (4 * k + j))).toNat := by
  have h0 := (f (b.pinAt (4 * k))).isLt
  have h1 := (f (b.pinAt (4 * k + 1))).isLt
  have h2 := (f (b.pinAt (4 * k + 2))).isLt
  have h3 := (f (b.pinAt (4 * k + 3))).isLt
  rw [Block.pack2, toNat_append_eq_add, toNat_append_eq_add, toNat_append_eq_add]
  obtain rfl | rfl | rfl | rfl : j = 0 ∨ j = 1 ∨ j = 2 ∨ j = 3 := by omega
  · show _ / 1 % 4 = (f (b.pinAt (4 * k))).toNat
    omega
  all_goals omega

theorem Block.toNat_pack2_of_pin (b : Block) (f : Pin → BitVec 2) (p : PinNo) :
    (b.pack2 f (p.val / 4)).toNat / 4 ^ (p.val % 4) % 4 = (f (b.pin p)).toNat := by
  rw [Block.toNat_pack2 b f _ (Nat.mod_lt _ (by decide)), Nat.div_add_mod, Block.pinAt_val]

/-- The cells of MODE and of SENSE. -/
theorem Block.view_four (b : Block) {k : Nat} (hk : k < 4) :
    b.view k = b.pack2 (fun q => q.mode.toBits) k ∧ b.view (0x10 + k) = b.pack2 (fun q => q.sense.toBits) k := by
  obtain rfl | rfl | rfl | rfl : k = 0 ∨ k = 1 ∨ k = 2 ∨ k = 3 := by omega
  all_goals exact ⟨rfl, rfl⟩

/-- The LED block of a pin. -/
theorem Block.view_ledBlock (b : Block) (p : PinNo) {k : Nat} (hk : k < 8) :
    b.view (0x20 + 8 * p.val + k) = (b.pin p).ledCell k := by
  have hpin : (0x20 + 8 * p.val + k - 0x20) / 8 = p.val := by omega
  have hcell : (0x20 + 8 * p.val + k - 0x20) % 8 = k := by omega
  have habove {m : Nat} (hm : m < 0x20) : ¬ 0x20 + 8 * p.val + k ≤ m ∧ ¬ 0x20 + 8 * p.val + k = m := by omega
  simp only [Block.view, habove, Nat.reduceLT, if_false, hpin, hcell, Block.pinAt_val]

theorem Keypad.toNat_ctl (k : Keypad) :
    k.ctl.toNat = 128 * k.en.toNat + 16 * k.rowsM1.toNat + k.colsM1.toNat := by
  rw [Keypad.ctl, toNat_append_eq_add, toNat_append_eq_add, toNat_append_eq_add, BitVec.toNat_ofBool]
  show (_ * 2 ^ 1 + 0) * 2 ^ 3 + _ = _
  omega

/-- A register narrower than its cell is read whole. -/
theorem toNat_setWidth_byte {n : Nat} (x : BitVec n) (hn : n ≤ 8) : (x.setWidth 8).toNat = x.toNat := by
  rw [BitVec.toNat_setWidth, Nat.mod_eq_of_lt (x.isLt.trans_le (Nat.pow_le_pow_right (by decide) hn))]

/-- The two bytes of a word make up its value. -/
theorem toNat_bytes (w : Half) : 256 * (w.extractLsb' 8 8).toNat + (w.extractLsb' 0 8).toNat = w.toNat := by
  rw [Nat.mul_comm, ← toNat_be16, be16_of_bytes16]

/-- The cell of LEDCTL (10_state.md R26, R41). -/
theorem Pin.toNat_ledCell_one (q : Pin) : (q.ledCell 1).toNat = 4 * q.ledPhase.toBits.toNat + q.wave.toBits.toNat := by
  show (0#4 ++ q.ledPhase.toBits ++ q.wave.toBits).toNat = _
  rw [toNat_append_eq_add, toNat_append_eq_add, BitVec.toNat_ofNat, Nat.zero_mod, Nat.zero_mul, Nat.zero_add,
    Nat.mul_comm]
  rfl

/-- Settles O49: each cell by its own equation. -/
theorem viewShowsOtherFields : Obligations.ViewShowsOtherFields := by
  intro b
  refine ⟨toNat_setWidth_byte b.clkdiv (by decide), toNat_setWidth_byte b.dbtime (by decide), b.kp.toNat_ctl,
    toNat_setWidth_byte b.kp.sleepCode (by decide), toNat_setWidth_byte b.kp.scanCode (by decide),
    toNat_setWidth_byte b.kp.debCode (by decide), toNat_bytes b.kp.keyData, fun p => ?_⟩
  obtain ⟨hmode, hsense⟩ := b.view_four (show p.val / 4 < 4 by omega)
  have hcell (k : Nat) (hk : k < 8) := b.view_ledBlock p hk
  have hcode {k : Nat} (hk : k < 8) {c : TimeCode} (hc : (b.pin p).ledCell k = c.setWidth 8) :
      (b.view (0x20 + 8 * p.val + k)).toNat = c.toNat := by
    rw [hcell k hk, hc, toNat_setWidth_byte c (by decide)]
  rw [hmode, hsense, b.toNat_pack2_of_pin, b.toNat_pack2_of_pin, hcell 1 (by decide), Pin.toNat_ledCell_one]
  exact ⟨rfl, rfl, hcell 0 (by decide), rfl, hcode (by decide) rfl, hcode (by decide) rfl, hcode (by decide) rfl,
    hcode (by decide) rfl⟩

end Sys2Proof.Machine
end

section
/-! Whole-machine claims (10_state.md sections 1 to 7, 20_memory.md section 4, 60_exceptions.md): what a command depends
on, that it is idempotent, which fields it writes, and that an ill-formed one fails. -/

namespace Sys2Proof.Machine

/-! ### What a command depends on (10_state.md R49) -/

/-- Two states answer alike: both raise the same status, or both finish on the same block with the same results. -/
inductive AnswersAlike (s s' : State) : Result → Result → Prop where
  | raised (st : Status) : AnswersAlike s s' (s.raise st) (s'.raise st)
  | finished (b : Block) (rs : List Byte) : AnswersAlike s s' (s.finish b rs) (s'.finish b rs)

section AnswersAlike

variable {s s' : State} (hblock : s.block = s'.block)

include hblock

theorem decodeLine_answersAlike (x : Byte) : AnswersAlike s s' (s.decodeLine x) (s'.decodeLine x) := by
  simp only [State.decodeLine, hblock]
  split <;> constructor

/-- The level READ_DIGITAL returns depends on the block and the draws. -/
theorem digitalLevel_congr (hdraws : s.draws = s'.draws) : s.digitalLevel = s'.digitalLevel := by
  funext p
  simp only [State.digitalLevel, hblock, hdraws]

/-- On the same block a command makes the same checks, and so gives the same answer. -/
theorem exec_answersAlike (i : Instr) (hdraws : i.mnemonic = .readDigital → s.draws = s'.draws) :
    AnswersAlike s s' (exec i s) (exec i s') := by
  cases i with
  | readKeyData | readSource | reset =>
    simp only [exec, execReadKeyData, execReadSource, execReset, hblock]
    constructor
  | decodeRow raw | decodeCol raw => exact decodeLine_answersAlike hblock _
  | setGlobalDebounce | setDivider | readReg =>
    simp only [exec, execSetGlobalDebounce, execSetDivider, execReadReg, hblock]
    split <;> constructor
  | readDigital pin =>
    simp only [exec, execReadDigital, hblock, digitalLevel_congr hblock (hdraws rfl)]
    split
    · constructor
    · split <;> constructor
  | setIntensity | stop | setEdgeSense | setMask | enableDebounce | codecEncode | codecDecode =>
    simp only [exec, execSetIntensity, execStop, execSetEdgeSense, execSetMask, execEnableDebounce, execCodecEncode,
      execCodecDecode, hblock]
    split
    · constructor
    · split <;> constructor
  | setMode | writeDigital =>
    simp only [exec, execSetMode, execWriteDigital, hblock]
    split
    · constructor
    · split
      · constructor
      · split <;> constructor
  | configureKeypad =>
    simp only [exec, execConfigureKeypad, hblock]
    split
    · split
      · split <;> constructor
      · constructor
    · constructor
  | breathe =>
    simp only [exec, execBreathe, hblock]
    split
    · constructor
    · split
      · constructor
      · split
        · constructor
        · split <;> constructor
  | blink =>
    simp only [exec, execBlink, hblock]
    split
    · constructor
    · split
      · constructor
      · split
        · constructor
        · split
          · constructor
          · split
            · constructor
            · next hlen =>
              rw [(Pin.enterPhase_blink rfl hlen).1]
              constructor

end AnswersAlike

/-- Settles O55: the two answers are alike, so they differ in the state they are added to only. -/
theorem earlierResponsesAreNotRead : Obligations.EarlierResponsesAreNotRead := by
  intro i s s' hblock hdraws
  have halike := exec_answersAlike hblock i hdraws
  generalize exec i s = r at halike ⊢
  generalize exec i s' = r' at halike ⊢
  cases halike with
  | raised st => exact ⟨_, _, [st.code], rfl, rfl, hblock, ⟨rfl, rfl, rfl, rfl⟩, ⟨rfl, rfl, rfl, rfl⟩⟩
  | finished b rs => exact ⟨_, _, 0x00 :: rs, rfl, rfl, rfl, ⟨rfl, rfl, rfl, rfl⟩, ⟨rfl, rfl, rfl, rfl⟩⟩

/-! ### A command issued twice (20_memory.md section 4) -/

theorem Block.setPin_setPin (b : Block) (p : PinNo) (q q' : Pin) : (b.setPin p q).setPin p q' = b.setPin p q' := by
  refine Block.ext_pins rfl rfl rfl fun r => ?_
  simp only [Block.pin_setPin]
  split <;> rfl

theorem Keypad.roleMode_of_not_owns {k : Keypad} {p : PinNo} (h : k.owns p = false) : k.roleMode k p = none := by
  have hroles := h
  rw [Keypad.owns, Bool.or_eq_false_iff] at hroles
  simp only [Keypad.roleMode, hroles, h, Bool.false_eq_true, if_false]

/-- The keypad's assignment made again finds every pin settled. -/
theorem Block.assignKeypad_twice (b : Block) (new : Keypad) :
    (b.assignKeypad new).assignKeypad new = b.assignKeypad new := by
  refine Block.ext_pins (Block.assignKeypad_clkdiv _ _) (Block.assignKeypad_dbtime _ _) ?_ fun p => ?_
  · rw [Block.assignKeypad_kp, Block.assignKeypad_kp]
  have hkp := b.assignKeypad_kp new
  cases hown : new.owns p with
  | true =>
    have hmode := Block.mode_pin_assignKeypad (Keypad.roleMode_of_owns b.kp hown)
    obtain ⟨-, -, hkept⟩ := Block.pin_assignKeypad_of_role (Keypad.roleMode_of_owns (b.assignKeypad new).kp hown)
    exact hkept hmode (by rw [Block.owned, hkp, hown])
  | false =>
    rw [Block.pin_assignKeypad, hkp, Keypad.clearTaken_assignPin_of_noRole (Keypad.roleMode_of_not_owns hown)]

theorem Effect.idempotent {i : Instr} {b b' b'' : Block} (h : Effect i b b') (h' : Effect i b' b'') : b'' = b' := by
  cases i with
  | readKeyData | decodeRow | decodeCol | codecEncode | codecDecode => exact h'
  | readDigital =>
    obtain ⟨-, -, -, rfl⟩ := h'
    rfl
  | readReg =>
    obtain ⟨-, rfl⟩ := h'
    rfl
  | reset => exact Eq.trans h' h.symm
  | setMode =>
    obtain ⟨p, m, hp, -, hm, rfl⟩ := h
    obtain ⟨p', m', hp', -, hm', rfl⟩ := h'
    cases hp.symm.trans hp'
    cases hm.symm.trans hm'
    rw [Block.setPin_setPin, Block.pin_setPin_same, Pin.applyMode_twice]
  | writeDigital =>
    obtain ⟨p, v, hp, -, -, hv, rfl⟩ := h
    obtain ⟨p', v', hp', -, -, hv', rfl⟩ := h'
    cases hp.symm.trans hp'
    cases hv.symm.trans hv'
    rw [Block.setPin_setPin, Block.pin_setPin_same]
  | setIntensity | stop =>
    obtain ⟨p, hp, -, rfl⟩ := h
    obtain ⟨p', hp', -, rfl⟩ := h'
    cases hp.symm.trans hp'
    rw [Block.setPin_setPin, Block.pin_setPin_same]
    rfl
  | blink =>
    obtain ⟨p, cOn, cOff, hp, -, hOn, hOff, -, rfl⟩ := h
    obtain ⟨p', cOn', cOff', hp', -, hOn', hOff', -, rfl⟩ := h'
    cases hp.symm.trans hp'
    cases hOn.symm.trans hOn'
    cases hOff.symm.trans hOff'
    rw [Block.setPin_setPin, Block.pin_setPin_same]
  | breathe =>
    obtain ⟨p, cOn, cOff, cRise, cFall, hp, -, -, hOn, hOff, hRise, hFall, rfl⟩ := h
    obtain ⟨p', cOn', cOff', cRise', cFall', hp', -, -, hOn', hOff', hRise', hFall', rfl⟩ := h'
    cases hp.symm.trans hp'
    cases hOn.symm.trans hOn'
    cases hOff.symm.trans hOff'
    cases hRise.symm.trans hRise'
    cases hFall.symm.trans hFall'
    rw [Block.setPin_setPin, Block.pin_setPin_same]
  | configureKeypad =>
    obtain ⟨r, c, cSleep, cScan, cDeb, hr, hc, hSleep, hScan, hDeb, -, rfl⟩ := h
    obtain ⟨r', c', cSleep', cScan', cDeb', hr', hc', hSleep', hScan', hDeb', -, rfl⟩ := h'
    rw [Block.encodeDuration, Block.assignKeypad_clkdiv, ← Block.encodeDuration] at hSleep' hScan' hDeb'
    cases hr.symm.trans hr'
    cases hc.symm.trans hc'
    cases hSleep.symm.trans hSleep'
    cases hScan.symm.trans hScan'
    cases hDeb.symm.trans hDeb'
    rw [Block.assignKeypad_twice]
  | setEdgeSense =>
    obtain ⟨p, e, hp, he, rfl⟩ := h
    obtain ⟨p', e', hp', he', rfl⟩ := h'
    cases hp.symm.trans hp'
    cases he.symm.trans he'
    rw [Block.setPin_setPin, Block.pin_setPin_same]
    simp only [Pin.openWindow, Bool.or_assoc, Bool.or_self]
    split <;> rfl
  | setMask =>
    obtain ⟨p, v, hp, hv, rfl⟩ := h
    obtain ⟨p', v', hp', hv', rfl⟩ := h'
    cases hp.symm.trans hp'
    cases hv.symm.trans hv'
    rw [Block.setPin_setPin, Block.pin_setPin_same]
    simp only [Pin.openWindow, Bool.or_assoc, Bool.or_self]
    split <;> rfl
  | enableDebounce =>
    obtain ⟨p, v, hp, hv, rfl⟩ := h
    obtain ⟨p', v', hp', hv', rfl⟩ := h'
    cases hp.symm.trans hp'
    cases hv.symm.trans hv'
    rw [Block.setPin_setPin, Block.pin_setPin_same]
    split
    · rfl
    · rw [if_pos rfl]
  | setGlobalDebounce =>
    obtain ⟨c, hc, rfl⟩ := h
    obtain ⟨c', hc', rfl⟩ := h'
    cases hc.symm.trans hc'
    rfl
  | setDivider =>
    obtain ⟨d, hd, rfl⟩ := h
    obtain ⟨d', hd', rfl⟩ := h'
    cases hd.symm.trans hd'
    rfl
  | readSource =>
    obtain rfl : b' = _ := h
    obtain rfl : b'' = _ := h'
    refine Block.ext_pins (Block.mapPins_clkdiv _ _) (Block.mapPins_dbtime _ _) (Block.mapPins_kp _ _) fun p => ?_
    rw [Block.pin_mapPins, Block.pin_mapPins]

/-- Settles O54: a command that failed fails again in the same way, and one that had an effect has no second one. -/
theorem commandsAreIdempotent : Obligations.CommandsAreIdempotent := by
  intro i s t u hst htu
  obtain hsame | heffect := exec_block hst
  · obtain ⟨t', -, -, ht', ⟨-, -, hdraws, -⟩, -⟩ := failedCommandChangesNothing i s
    obtain rfl := Host.Outcome.next.inj (ht'.symm.trans hst)
    obtain ⟨t'', u', -, ht'', hu', hblock, -⟩ := earlierResponsesAreNotRead i s t' hsame.symm fun _ => hdraws.symm
    obtain rfl := Host.Outcome.next.inj (ht''.symm.trans hst)
    obtain rfl := Host.Outcome.next.inj (hu'.symm.trans htu)
    exact hblock.symm
  · obtain hsame | hagain := exec_block htu
    · exact hsame
    · exact heffect.idempotent hagain

/-! ### The writers of each field (10_state.md sections 2 to 7) -/

/-- From `q` to `q'` only fields changed that the rules let commands of row `m` write. -/
def PinWrittenBy (m : Mnemonic) (q q' : Pin) : Prop :=
  (m ∉ [.setMode, .configureKeypad, .reset] → q'.mode = q.mode) ∧
  (m ∉ [.writeDigital, .setMode, .configureKeypad, .reset] → q'.outlvl = q.outlvl) ∧
  (m ∉ [.setIntensity, .blink, .breathe, .stop, .setMode, .configureKeypad, .reset] → SameLed q q') ∧
  (m ∉ [.setEdgeSense, .reset] → q'.sense = q.sense) ∧
  (m ∉ [.setMask, .reset] → q'.mask = q.mask) ∧
  (m ∉ [.enableDebounce, .reset] → q'.dben = q.dben) ∧
  (m ∉ [.readSource, .setMask, .setEdgeSense, .reset] → q'.source = q.source) ∧
  (m ∉ [.setMode, .configureKeypad, .reset] → q'.detValid = q.detValid) ∧
  (m ∉ [.setMode, .configureKeypad, .enableDebounce, .reset] → q'.dbCnt = q.dbCnt) ∧
  (m ∉ [.setMode, .configureKeypad, .setEdgeSense, .setMask, .reset] → q'.cfgwin = q.cfgwin) ∧
  (m ∉ [.reset] → q'.detLvl = q.detLvl)

/-- From `b` to `b'` only fields changed that the rules let commands of row `m` write. -/
def BlockWrittenBy (m : Mnemonic) (b b' : Block) : Prop :=
  (m ∉ [.setDivider, .reset] → b'.clkdiv = b.clkdiv) ∧
  (m ∉ [.setGlobalDebounce, .reset] → b'.dbtime = b.dbtime) ∧
  (m ∉ [.configureKeypad, .reset] → b'.kp = b.kp) ∧
  ∀ p, PinWrittenBy m (b.pin p) (b'.pin p)

theorem sameLed_refl (q : Pin) : SameLed q q := ⟨rfl, rfl, rfl, rfl, rfl, rfl, rfl, rfl⟩

section Writers

variable (m : Mnemonic)

theorem PinWrittenBy.refl (q : Pin) : PinWrittenBy m q q :=
  ⟨fun _ => rfl, fun _ => rfl, fun _ => sameLed_refl q, fun _ => rfl, fun _ => rfl, fun _ => rfl, fun _ => rfl,
    fun _ => rfl, fun _ => rfl, fun _ => rfl, fun _ => rfl⟩

theorem BlockWrittenBy.refl (b : Block) : BlockWrittenBy m b b :=
  ⟨fun _ => rfl, fun _ => rfl, fun _ => rfl, fun p => .refl m (b.pin p)⟩

variable {m}

theorem BlockWrittenBy.setPin {b : Block} {p : PinNo} {q : Pin} (hq : PinWrittenBy m (b.pin p) q) :
    BlockWrittenBy m b (b.setPin p q) := by
  refine ⟨fun _ => rfl, fun _ => rfl, fun _ => rfl, fun r => ?_⟩
  rw [Block.pin_setPin]
  split
  · next hr => exact hr ▸ hq
  · exact .refl m (b.pin r)

/-- RESET may write every field. -/
theorem BlockWrittenBy.reset (b b' : Block) : BlockWrittenBy .reset b b' := by
  simp [BlockWrittenBy, PinWrittenBy]

theorem PinWrittenBy.setMode (q : Pin) (new : Mode) : PinWrittenBy .setMode q (q.applyMode new) := by
  obtain ⟨hsense, hmask, hdben, hsource, hlvl⟩ := q.applyMode_kept new
  simp [PinWrittenBy, hsense, hmask, hdben, hsource, hlvl]

theorem PinWrittenBy.configureKeypad (old new : Keypad) (p : PinNo) (q : Pin) :
    PinWrittenBy .configureKeypad q (old.clearTaken new p (old.assignPin new p q)) := by
  obtain ⟨hsense, hmask, hdben, hsource, hlvl⟩ := old.clearTaken_assignPin_kept new p q
  simp [PinWrittenBy, hsense, hmask, hdben, hsource, hlvl]

/-- The LED commands write the LED profile and its engine. -/
theorem PinWrittenBy.led (hm : m ∈ [.setIntensity, .blink, .breathe, .stop]) {q q' : Pin} (h : SameOutsideLed q q') :
    PinWrittenBy m q q' := by
  obtain ⟨hmode, hlevel, hsense, hmask, hdben, hsource, hvalid, hlvl, hcnt, hwin⟩ := h
  refine ⟨fun _ => hmode, fun _ => hlevel, fun hnot => absurd ?_ hnot, fun _ => hsense, fun _ => hmask, fun _ => hdben,
    fun _ => hsource, fun _ => hvalid, fun _ => hcnt, fun _ => hwin, fun _ => hlvl⟩
  exact List.mem_append_left [.setMode, .configureKeypad, .reset] hm

end Writers

theorem Effect.writes {i : Instr} {b b' : Block} (h : Effect i b b') : BlockWrittenBy i.mnemonic b b' := by
  cases i with
  | readKeyData | decodeRow | decodeCol | codecEncode | codecDecode =>
    obtain rfl : b' = b := h
    exact .refl _ b'
  | readDigital =>
    obtain ⟨-, -, -, rfl⟩ := h
    exact .refl _ b'
  | readReg =>
    obtain ⟨-, rfl⟩ := h
    exact .refl _ b'
  | reset => exact .reset b b'
  | setDivider =>
    obtain ⟨d, -, rfl⟩ := h
    exact ⟨fun hnot => absurd List.mem_cons_self hnot, fun _ => rfl, fun _ => rfl, fun p => .refl _ (b.pin p)⟩
  | setGlobalDebounce =>
    obtain ⟨c, -, rfl⟩ := h
    exact ⟨fun _ => rfl, fun hnot => absurd List.mem_cons_self hnot, fun _ => rfl, fun p => .refl _ (b.pin p)⟩
  | configureKeypad =>
    obtain ⟨r, c, cSleep, cScan, cDeb, -, -, -, -, -, -, rfl⟩ := h
    refine ⟨fun _ => Block.assignKeypad_clkdiv _ _, fun _ => Block.assignKeypad_dbtime _ _,
      fun hnot => absurd List.mem_cons_self hnot, fun p => ?_⟩
    rw [Block.pin_assignKeypad]
    exact .configureKeypad _ _ p (b.pin p)
  | setMode =>
    obtain ⟨p, new, -, -, -, rfl⟩ := h
    exact .setPin (.setMode (b.pin p) new)
  | writeDigital =>
    obtain ⟨p, v, -, -, -, -, rfl⟩ := h
    exact .setPin (by simp [Instr.mnemonic, PinWrittenBy, SameLed])
  | setIntensity =>
    obtain ⟨p, -, -, rfl⟩ := h
    exact .setPin (.led (m := .setIntensity) (by decide) (sameOutsideLed_withLed ..))
  | stop =>
    obtain ⟨p, -, -, rfl⟩ := h
    exact .setPin (.led (m := .stop) (by decide) (sameOutsideLed_withLed ..))
  | blink =>
    obtain ⟨p, cOn, cOff, -, -, -, -, -, rfl⟩ := h
    exact .setPin (.led (m := .blink) (by decide) (sameOutsideLed_withLed ..))
  | breathe =>
    obtain ⟨p, cOn, cOff, cRise, cFall, -, -, -, -, -, -, -, rfl⟩ := h
    exact .setPin (.led (m := .breathe) (by decide) (sameOutsideLed_withLed ..))
  | setEdgeSense =>
    obtain ⟨p, e, -, -, rfl⟩ := h
    exact .setPin (by simp [Instr.mnemonic, PinWrittenBy, SameLed, Pin.openWindow])
  | setMask =>
    obtain ⟨p, v, -, -, rfl⟩ := h
    exact .setPin (by simp [Instr.mnemonic, PinWrittenBy, SameLed, Pin.openWindow])
  | enableDebounce =>
    obtain ⟨p, v, -, -, rfl⟩ := h
    refine .setPin ?_
    split
    · exact .refl _ (b.pin p)
    · simp [Instr.mnemonic, PinWrittenBy, SameLed]
  | readSource =>
    obtain rfl : b' = _ := h
    refine ⟨fun _ => Block.mapPins_clkdiv _ _, fun _ => Block.mapPins_dbtime _ _, fun _ => Block.mapPins_kp _ _,
      fun p => ?_⟩
    rw [Block.pin_mapPins]
    simp [Instr.mnemonic, PinWrittenBy, SameLed]

/-- Settles O56: a command leaves the block, or has its effect, whose writes are its own. -/
theorem fieldsHaveOnlyTheirWriters : Obligations.FieldsHaveOnlyTheirWriters := by
  intro i s t hexec
  obtain hsame | heffect := exec_block hexec
  · rw [hsame]
    exact BlockWrittenBy.refl i.mnemonic s.block
  · exact heffect.writes

/-- Settles O45: the four writers of SOURCE among the commands keep or clear it. -/
theorem commandsNeverLatchSource : Obligations.CommandsNeverLatchSource := by
  intro i s t p hexec hafter
  by_cases hwriter : i.mnemonic ∈ [.readSource, .setMask, .setEdgeSense, .reset]
  · obtain hsame | heffect := exec_block hexec
    · rwa [hsame] at hafter
    cases i with
    | readSource =>
      rw [show t.block = _ from heffect, Block.pin_mapPins] at hafter
      cases hafter
    | reset =>
      rw [show t.block = _ from heffect, Block.pin_reset] at hafter
      cases hafter
    | setMask =>
      obtain ⟨r, v, -, -, hblock⟩ := heffect
      rw [hblock, Block.pin_setPin] at hafter
      split at hafter
      · next hr =>
        subst hr
        cases v with
        | false => cases hafter
        | true => exact hafter
      · exact hafter
    | setEdgeSense =>
      obtain ⟨r, e, -, -, hblock⟩ := heffect
      rw [hblock, Block.pin_setPin] at hafter
      split at hafter
      · next hr =>
        subst hr
        cases e with
        | none => cases hafter
        | rising | falling | both => exact hafter
      · exact hafter
    | _ => simp [Instr.mnemonic] at hwriter
  · obtain ⟨-, -, -, hpins⟩ := fieldsHaveOnlyTheirWriters i s t hexec
    obtain ⟨-, -, -, -, -, -, hsource, -⟩ := hpins p
    rwa [hsource hwriter] at hafter

/-! ### Operands out of range (30_encoding.md R82) -/

section Ranges

variable {x : Byte}

theorem pinInRange_eq_false_iff : pinInRange x = false ↔ 15 < x.toNat := by
  rw [pinInRange, decide_eq_false_iff_not, not_le]

theorem enumInRange_eq_false_iff : enumInRange x = false ↔ 3 < x.toNat := by
  rw [enumInRange, decide_eq_false_iff_not, not_le]

theorem bitInRange_eq_false_iff : bitInRange x = false ↔ 1 < x.toNat := by
  rw [bitInRange, decide_eq_false_iff_not, not_le]

theorem dvInRange_eq_false_iff : dvInRange x = false ↔ 7 < x.toNat := by
  rw [dvInRange, decide_eq_false_iff_not, not_le]

theorem codeInRange_eq_false_iff : codeInRange x = false ↔ 29 < x.toNat := by
  rw [codeInRange, decide_eq_false_iff_not, not_le, Config.maxCode]

theorem lineCountInRange_eq_false_iff : lineCountInRange x = false ↔ ¬(1 ≤ x.toNat ∧ x.toNat ≤ 8) := by
  rw [lineCountInRange, ← Bool.decide_and, decide_eq_false_iff_not, Config.maxLines]

theorem addrInRange_eq_false_iff :
    addrInRange x = false ↔ 0xA0 ≤ x.toNat ∨ (0x20 ≤ x.toNat ∧ 6 ≤ (x.toNat - 0x20) % 8) := by
  rw [addrInRange, Bool.and_eq_false_iff, decide_eq_false_iff_not, not_lt, Bool.not_eq_false', Bool.and_eq_true,
    decide_eq_true_eq, decide_eq_true_eq]

end Ranges

/-- A command whose pin is out of range, or else another operand, fails, if the block rejects each. -/
theorem pinCommand_fails {i : Instr} {s : State} {pin : Byte} {ok : Bool} (h : (pinInRange pin && ok) = false)
    (hpin : 15 < pin.toNat → AnswersError i s 0x01)
    (hother : ∀ p : PinNo, pin.toNat = p.val → ok = false → AnswersError i s 0x02 ∨ AnswersError i s 0x03) :
    AnswersError i s 0x01 ∨ AnswersError i s 0x02 ∨ AnswersError i s 0x03 := by
  obtain hbad | hbad := Bool.and_eq_false_iff.mp h
  · exact .inl (hpin (pinInRange_eq_false_iff.mp hbad))
  · obtain hlt | hle := Nat.lt_or_ge 15 pin.toNat
    · exact .inl (hpin hlt)
    · exact .inr (hother ⟨pin.toNat, Nat.lt_succ_of_le hle⟩ rfl hbad)

/-- Settles O57: the status each command gives the operand it checks first. -/
theorem operandsOutOfRangeFail : Obligations.OperandsOutOfRangeFail := by
  intro i s h
  cases i with
  | readKeyData | decodeRow | decodeCol | setGlobalDebounce | readSource | reset => cases h
  | readDigital pin =>
    obtain ⟨-, hpin, -⟩ := readDigitalAnswersLevel pin s
    exact .inl (hpin (pinInRange_eq_false_iff.mp h))
  | setIntensity pin value =>
    obtain ⟨-, hpin, -⟩ := setIntensityStopsWaveform pin value s
    exact .inl (hpin (pinInRange_eq_false_iff.mp h))
  | blink pin onMs offMs =>
    obtain ⟨-, hpin, -⟩ := blinkArmsWaveform pin onMs offMs s
    exact .inl (hpin (pinInRange_eq_false_iff.mp h))
  | breathe pin onMs offMs riseMs fallMs =>
    obtain ⟨-, hpin, -⟩ := breatheArmsWaveform pin onMs offMs riseMs fallMs s
    exact .inl (hpin (pinInRange_eq_false_iff.mp h))
  | stop pin =>
    obtain ⟨-, hpin, -⟩ := stopRestoresIntensity pin s
    exact .inl (hpin (pinInRange_eq_false_iff.mp h))
  | setMode pin mode =>
    obtain ⟨-, hpin, hset⟩ := setModeAppliesTransition pin mode s
    refine pinCommand_fails h hpin fun p hp hmode => ?_
    obtain ⟨howned, hbad, -⟩ := hset p hp
    cases hown : s.block.owned p with
    | true => exact .inl (howned hown)
    | false => exact .inr (hbad hown (enumInRange_eq_false_iff.mp hmode))
  | writeDigital pin level =>
    obtain ⟨-, hpin, hwrite⟩ := writeDigitalWritesOutlvl pin level s
    refine pinCommand_fails h hpin fun p hp hlevel => ?_
    obtain ⟨hwrong, hbad, -⟩ := hwrite p hp
    by_cases hmode : (s.block.pin p).mode ≠ .output ∨ s.block.owned p = true
    · exact .inl (hwrong hmode)
    · obtain ⟨hout, hfree⟩ := not_or.mp hmode
      exact .inr (hbad (not_not.mp hout) (Bool.eq_false_iff.mpr hfree) (bitInRange_eq_false_iff.mp hlevel))
  | setEdgeSense pin edge =>
    obtain ⟨-, hpin, hset⟩ := setEdgeSenseWritesSense pin edge s
    exact pinCommand_fails h hpin fun p hp hedge => .inr ((hset p hp).1 (enumInRange_eq_false_iff.mp hedge))
  | setMask pin enabled =>
    obtain ⟨-, hpin, hset⟩ := setMaskWritesMask pin enabled s
    exact pinCommand_fails h hpin fun p hp hflag => .inr ((hset p hp).1 (bitInRange_eq_false_iff.mp hflag))
  | enableDebounce pin enabled =>
    obtain ⟨-, hpin, hset⟩ := enableDebounceRestartsCount pin enabled s
    exact pinCommand_fails h hpin fun p hp hflag => .inr ((hset p hp).1 (bitInRange_eq_false_iff.mp hflag))
  | configureKeypad rows cols sleepMs scanMs debMs =>
    obtain ⟨-, hcounts, -⟩ := configureKeypadReplacesConfiguration rows cols sleepMs scanMs debMs s
    refine .inr (.inr (hcounts ?_))
    rintro ⟨hr1, hr8, hc1, hc8⟩
    obtain hrows | hcols := Bool.and_eq_false_iff.mp h
    · exact lineCountInRange_eq_false_iff.mp hrows ⟨hr1, hr8⟩
    · exact lineCountInRange_eq_false_iff.mp hcols ⟨hc1, hc8⟩
  | codecEncode ms dv =>
    obtain ⟨-, hdv, -⟩ := codecEncodeAnswersCode ms dv s
    exact .inr (.inr (hdv (dvInRange_eq_false_iff.mp h)))
  | codecDecode code dv =>
    obtain ⟨-, hbad, -⟩ := codecDecodeAnswersExactDuration code dv s
    exact .inr (.inr (hbad ((Bool.and_eq_false_iff.mp h).imp codeInRange_eq_false_iff.mp dvInRange_eq_false_iff.mp)))
  | setDivider dv =>
    obtain ⟨-, hdv, -⟩ := setDividerWritesClkdivOnly dv s
    exact .inr (.inr (hdv (dvInRange_eq_false_iff.mp h)))
  | readReg addr =>
    obtain ⟨-, hres, -⟩ := readRegPeeksView addr s
    exact .inr (.inr (hres (addrInRange_eq_false_iff.mp h)))

end Sys2Proof.Machine
end
